-- ==== Sys2Proof/Word.lean ====
section
/-! DEFINITION. The two word widths of the block (00_scope.md R8) and their plainest arithmetic. -/

namespace Sys2Proof

/-- A byte: 8 bits, unsigned (R8). -/
abbrev Byte := BitVec 8

/-- The width of `pos`, `ck`, `mfill` and `ek` (R23, R26, R28, R32). -/
abbrev Half := BitVec 16

/-- `zext_16` of R8. -/
def zext16 (b : Byte) : Half := b.setWidth 16

/-- `v[7:0]` of R8. -/
def low8 (h : Half) : Byte := h.setWidth 8

end Sys2Proof
end

