-- ==== Sys2Proof/Config.lean ====
section
/-! DEFINITION. The parameters of 00_scope.md R6: the fixed ones as constants, the others as the record a block is
built with. A model takes the open ones as arguments (R6), so the record is carried by the machine's state and kept by every step. -/

namespace Sys2Proof

/-- Which byte the unexpected-start guard tests (R6, R104). This hardware is `raw`; `unescaped` is the literal reading
of the source, kept for a compatibility model only (90_conflicts.md C1). -/
inductive StartGuard where
  | raw
  | unescaped
  deriving DecidableEq, Repr

/-- What the aborting start byte does (R6, R104, R105; 92_eei_decisions.md D7). -/
inductive AbortPolicy where
  | discard
  | seed
  deriving DecidableEq, Repr

/-- The parameters a block is built with (R6). -/
structure Config where
  /-- MAX_FRAME_SIZE, `M` -/
  maxFrameSize : Nat
  /-- RECEIVED_DATA_IDX, `RDI` -/
  receivedDataIdx : Nat
  startGuard : StartGuard
  abortPolicy : AbortPolicy
  deriving DecidableEq, Repr

/-- The constraint of R6: 4 <= RDI <= M <= 65533. -/
def Config.wf (c : Config) : Bool :=
  decide (4 ≤ c.receivedDataIdx) && decide (c.receivedDataIdx ≤ c.maxFrameSize) && decide (c.maxFrameSize ≤ 65533)

/-- MSG_CAP = M + 1 - RDI (R6, R51). -/
def Config.msgCap (c : Config) : Nat := c.maxFrameSize + 1 - c.receivedDataIdx

/-- Test configuration TC1 (R7): a test choice of the spec, not a value of a built block. -/
def Config.tc1 : Config :=
  { maxFrameSize := 24, receivedDataIdx := 15, startGuard := .raw, abortPolicy := .discard }

/-- START (R6). -/
abbrev startByte : Byte := 0x7E
/-- ESC (R6). -/
abbrev escMarker : Byte := 0x7D
/-- XMASK (R6). -/
abbrev escMask : Byte := 0x20
/-- XON, the third reserved value (R72). -/
abbrev xonByte : Byte := 0x11
/-- XOFF, the fourth reserved value (R72). -/
abbrev xoffByte : Byte := 0x13
/-- FRAME_TYPE_IDX (R6). -/
abbrev frameTypeIdx : Nat := 3
/-- RX_API_ID (R6). -/
abbrev rxApiId : Byte := 0x90
/-- TX_API_ID (R6): informative, no rule branches on it. -/
abbrev txApiId : Byte := 0x10
/-- FRAME_OVERHEAD (R6, R153). -/
abbrev frameOverhead : Nat := 14
/-- TXP_CAP = 255 - FRAME_OVERHEAD (R6, R52). -/
abbrev txpCap : Nat := 241

/-- The 13 header bytes between apiId and payload: TX_FRAME_ID, TX_DEST64, TX_DEST16, TX_RADIUS, TX_OPTIONS (R6, R152). -/
def txHeader : List Byte :=
  [0x00] ++ [0x00, 0x00, 0x00, 0x00, 0x00, 0x00, 0x00, 0x00] ++ [0xFF, 0xFE] ++ [0x00] ++ [0x00]

/-- RESERVED (R6, R72): the values the encoder escapes. -/
def isReserved (v : Byte) : Bool :=
  v == startByte || v == escMarker || v == xonByte || v == xoffByte

end Sys2Proof
end

