-- ==== Sys2Proof/Syntax.lean ====
section
/-! DEFINITION. The instructions: one constructor per row of spec/opcode_table.json, with the operands the row names. -/

namespace Sys2Proof

/-- The rows of the table's `dec-case` format: the dispatch cases of one DEC.FEED (40_decoder.md R102 to R114). -/
inductive DecCase where
  | syncHit
  | syncMiss
  | esc
  | abort
  | lenhi
  | lenlo
  | api
  | toolarge
  | data
  | msg
  | finalOk
  | finalBad
  deriving DecidableEq, Repr

/-- The formats of the table: transaction records (R81), wire bytes and pairs (R72, R73), dispatch cases. The bytes of
a dispatch case do not say which case they are: the decoder's state does, so the case is part of the format. -/
inductive Format where
  | record
  | wire
  | decCase (c : DecCase)
  deriving DecidableEq, Repr

/-- One constructor per row of spec/opcode_table.json. -/
inductive Instr where
  /-- NOP, record `00` (R82) -/
  | nop
  /-- RESET, record `01` (R230) -/
  | reset
  /-- DEC.CLEAR, record `02` (R120) -/
  | decClear
  /-- DEC.FEED, record `03 bb` (R100) -/
  | decFeed (b : Byte)
  /-- ENC.REQUEST, record `04 aa nn p0 .. p(n-1)` (R156 to R158) -/
  | encRequest (api n : Byte) (p : List Byte)
  /-- SINK.ACCEPT, record `05` (R160) -/
  | sinkAccept
  /-- SINK.STALL, record `06` (R161) -/
  | sinkStall
  /-- SINK.FAIL, record `07` (R162) -/
  | sinkFail
  /-- RESERVED, op bytes 08..0F (R82) -/
  | reserved08 (v : BitVec 3)
  /-- RESERVED, op bytes 10..1F (R82) -/
  | reserved10 (v : BitVec 4)
  /-- RESERVED, op bytes 20..3F (R82) -/
  | reserved20 (v : BitVec 5)
  /-- RESERVED, op bytes 40..7F (R82) -/
  | reserved40 (v : BitVec 6)
  /-- RESERVED, op bytes 80..FF (R82) -/
  | reserved80 (v : BitVec 7)
  /-- WIRE.SOF, the raw byte 7E (R70, R73) -/
  | wireSof
  /-- WIRE.ESC, the raw byte 7D (R72, R73) -/
  | wireEsc
  /-- WIRE.XON, the raw byte 11 (R72, R73) -/
  | wireXon
  /-- WIRE.XOFF, the raw byte 13 (R72, R73) -/
  | wireXoff
  /-- WIRE.DATA, any raw byte outside {7E, 7D, 11, 13} (R73) -/
  | wireData (d : Byte)
  /-- WIRE.ESCPAIR, the two raw bytes 7D x (R72, R74) -/
  | wireEscpair (x : Byte)
  /-- DEC.SYNC-HIT (R107) -/
  | decSyncHit
  /-- DEC.SYNC-MISS (R107); the pattern is the raw byte -/
  | decSyncMiss (raw : Byte)
  /-- DEC.ESC (R102) -/
  | decEsc
  /-- DEC.ABORT (R104, R105) -/
  | decAbort
  /-- DEC.LENHI (R108); from here on the pattern is the logical byte b (R103) -/
  | decLenhi (b : Byte)
  /-- DEC.LENLO (R109) -/
  | decLenlo (b : Byte)
  /-- DEC.API (R110) -/
  | decApi (b : Byte)
  /-- DEC.TOOLARGE (R113) -/
  | decToolarge (b : Byte)
  /-- DEC.DATA (R111) -/
  | decData (b : Byte)
  /-- DEC.MSG (R112) -/
  | decMsg (b : Byte)
  /-- DEC.FINAL-OK (R114) -/
  | decFinalOk (b : Byte)
  /-- DEC.FINAL-BAD (R114) -/
  | decFinalBad (b : Byte)
  deriving DecidableEq, Repr

end Sys2Proof
end

