-- ==== Sys2Proof/WellFormed.lean ====
section
/-! DEFINITION. Which instruction terms are words of their row. Operand widths are in the types; what is left is the
payload count of ENC.REQUEST and the byte classes of two rows. -/

namespace Sys2Proof

/-- The row's own conditions on its operands: `p` is n bytes (R81), WIRE.DATA is no named byte (R73), DEC.SYNC-MISS is no
start byte (R107). -/
def Instr.wf : Instr → Bool
  | .nop => true
  | .reset => true
  | .decClear => true
  | .decFeed _ => true
  | .encRequest _ n p => p.length == n.toNat
  | .sinkAccept => true
  | .sinkStall => true
  | .sinkFail => true
  | .reserved08 _ => true
  | .reserved10 _ => true
  | .reserved20 _ => true
  | .reserved40 _ => true
  | .reserved80 _ => true
  | .wireSof => true
  | .wireEsc => true
  | .wireXon => true
  | .wireXoff => true
  | .wireData d => !isReserved d
  | .wireEscpair _ => true
  | .decSyncHit => true
  | .decSyncMiss raw => !(raw == startByte)
  | .decEsc => true
  | .decAbort => true
  | .decLenhi _ => true
  | .decLenlo _ => true
  | .decApi _ => true
  | .decToolarge _ => true
  | .decData _ => true
  | .decMsg _ => true
  | .decFinalOk _ => true
  | .decFinalBad _ => true

end Sys2Proof
end

