-- ==== Sys2Proof/Decode.lean ====
section
/-! DEFINITION. From bytes to instructions, and back. One decoder for each format of the table, each total on any bytes
and rejecting by name; then the script decoder of R82; then the encoder, written from the same rows. -/

namespace Sys2Proof

/-- Why bytes spell no instruction, or a script is refused (R82). -/
inductive Invalid where
  /-- the bytes end before the record's stated length -/
  | cutShort
  /-- the op byte is one of 08..FF -/
  | reserved
  /-- the byte does not match the pattern of the dispatch case it is offered as -/
  | patternMismatch
  deriving DecidableEq, Repr

/-- An instruction and the bytes after it, or the reason there is none. -/
inductive Decoded where
  | ok (i : Instr) (rest : List Byte)
  | invalid (why : Invalid)
  deriving DecidableEq, Repr

/-- The five RESERVED rows, by the highest set bits of the op byte (opcode_table.json, masks F8 F0 E0 C0 80). -/
def reservedRow (op : Byte) : Instr :=
  if op.toNat < 0x10 then .reserved08 (op.setWidth 3)
  else if op.toNat < 0x20 then .reserved10 (op.setWidth 4)
  else if op.toNat < 0x40 then .reserved20 (op.setWidth 5)
  else if op.toNat < 0x80 then .reserved40 (op.setWidth 6)
  else .reserved80 (op.setWidth 7)

/-- The operands of ENC.REQUEST: api, n, then n payload bytes (R81). -/
def decodeRequest : List Byte → Decoded
  | api :: n :: bs =>
    if n.toNat ≤ bs.length then .ok (.encRequest api n (bs.take n.toNat)) (bs.drop n.toNat) else .invalid .cutShort
  | _ => .invalid .cutShort

/-- The operand of DEC.FEED: one byte (R81). -/
def decodeFeed : List Byte → Decoded
  | b :: bs => .ok (.decFeed b) bs
  | [] => .invalid .cutShort

/-- One transaction record (R81): the op byte alone selects the operation, no prefix or mode changes it (R82). A reserved
op byte is read as its row of the table; that it spells no operation is `Instr.isOperation`'s to say. -/
def decodeRecord : List Byte → Decoded
  | [] => .invalid .cutShort
  | op :: bs =>
    if op = 0x00 then .ok .nop bs
    else if op = 0x01 then .ok .reset bs
    else if op = 0x02 then .ok .decClear bs
    else if op = 0x03 then decodeFeed bs
    else if op = 0x04 then decodeRequest bs
    else if op = 0x05 then .ok .sinkAccept bs
    else if op = 0x06 then .ok .sinkStall bs
    else if op = 0x07 then .ok .sinkFail bs
    else .ok (reservedRow op) bs

/-- Wire bytes by class (R73); a 7D with a byte after it opens a pair (R74). -/
def decodeWire : List Byte → Decoded
  | [] => .invalid .cutShort
  | w :: bs =>
    if w = startByte then .ok .wireSof bs
    else if w = escMarker then
      match bs with
      | [] => .ok .wireEsc []
      | x :: rest => .ok (.wireEscpair x) rest
    else if w = xonByte then .ok .wireXon bs
    else if w = xoffByte then .ok .wireXoff bs
    else .ok (.wireData w) bs

/-- The instruction of a dispatch case with its byte; the first, third and fourth case have a fixed byte. -/
def DecCase.instr : DecCase → Byte → Instr
  | .syncHit, _ => .decSyncHit
  | .syncMiss, x => .decSyncMiss x
  | .esc, _ => .decEsc
  | .abort, _ => .decAbort
  | .lenhi, x => .decLenhi x
  | .lenlo, x => .decLenlo x
  | .api, x => .decApi x
  | .toolarge, x => .decToolarge x
  | .data, x => .decData x
  | .msg, x => .decMsg x
  | .finalOk, x => .decFinalOk x
  | .finalBad, x => .decFinalBad x

/-- The byte pattern of a dispatch case (opcode_table.json, format dec-case). -/
def DecCase.matchesByte : DecCase → Byte → Bool
  | .syncHit, x => x == startByte
  | .syncMiss, x => !(x == startByte)
  | .esc, x => x == escMarker
  | .abort, x => x == startByte
  | .lenhi, _ => true
  | .lenlo, _ => true
  | .api, _ => true
  | .toolarge, _ => true
  | .data, _ => true
  | .msg, _ => true
  | .finalOk, _ => true
  | .finalBad, _ => true

/-- A byte read as the given dispatch case. -/
def decodeCase (c : DecCase) : List Byte → Decoded
  | [] => .invalid .cutShort
  | x :: bs => if c.matchesByte x then .ok (c.instr x) bs else .invalid .patternMismatch

/-- The decoder: the first instruction of the bytes in the given format. -/
def decode : Format → List Byte → Decoded
  | .record, bs => decodeRecord bs
  | .wire, bs => decodeWire bs
  | .decCase c, bs => decodeCase c bs

/-- Whether an instruction is one of the eight operations of R80. The RESERVED rows spell none (R82), and neither the
wire rows nor the dispatch cases are records. -/
def Instr.isOperation : Instr → Bool
  | .nop => true
  | .reset => true
  | .decClear => true
  | .decFeed _ => true
  | .encRequest _ _ _ => true
  | .sinkAccept => true
  | .sinkStall => true
  | .sinkFail => true
  | .reserved08 _ => false
  | .reserved10 _ => false
  | .reserved20 _ => false
  | .reserved40 _ => false
  | .reserved80 _ => false
  | .wireSof => false
  | .wireEsc => false
  | .wireXon => false
  | .wireXoff => false
  | .wireData _ => false
  | .wireEscpair _ => false
  | .decSyncHit => false
  | .decSyncMiss _ => false
  | .decEsc => false
  | .decAbort => false
  | .decLenhi _ => false
  | .decLenlo _ => false
  | .decApi _ => false
  | .decToolarge _ => false
  | .decData _ => false
  | .decMsg _ => false
  | .decFinalOk _ => false
  | .decFinalBad _ => false

/-- A whole script, or the reason it is refused (R82). -/
inductive Script where
  | ok (ops : List Instr)
  | invalid (why : Invalid)
  deriving DecidableEq, Repr

/-- Puts one operation before a script; a refused script stays refused as a whole (R82). -/
def Script.cons (i : Instr) : Script → Script
  | .ok ops => .ok (i :: ops)
  | .invalid why => .invalid why

/-- The records of a script, at most `fuel` of them. -/
def decodeRecords : Nat → List Byte → Script
  | _, [] => .ok []
  | 0, _ :: _ => .invalid .cutShort
  | fuel + 1, b :: bs =>
    match decodeRecord (b :: bs) with
    | .invalid why => .invalid why
    | .ok i rest => if i.isOperation then (decodeRecords fuel rest).cons i else .invalid .reserved

/-- The record decoder of R82 over a whole script: every record takes at least one byte, so the byte count is fuel
enough. A reserved or cut-short record anywhere refuses the script. -/
def decodeScript (bs : List Byte) : Script := decodeRecords bs.length bs

/-- The format a row is written in. -/
def Instr.format : Instr → Format
  | .nop => .record
  | .reset => .record
  | .decClear => .record
  | .decFeed _ => .record
  | .encRequest _ _ _ => .record
  | .sinkAccept => .record
  | .sinkStall => .record
  | .sinkFail => .record
  | .reserved08 _ => .record
  | .reserved10 _ => .record
  | .reserved20 _ => .record
  | .reserved40 _ => .record
  | .reserved80 _ => .record
  | .wireSof => .wire
  | .wireEsc => .wire
  | .wireXon => .wire
  | .wireXoff => .wire
  | .wireData _ => .wire
  | .wireEscpair _ => .wire
  | .decSyncHit => .decCase .syncHit
  | .decSyncMiss _ => .decCase .syncMiss
  | .decEsc => .decCase .esc
  | .decAbort => .decCase .abort
  | .decLenhi _ => .decCase .lenhi
  | .decLenlo _ => .decCase .lenlo
  | .decApi _ => .decCase .api
  | .decToolarge _ => .decCase .toolarge
  | .decData _ => .decCase .data
  | .decMsg _ => .decCase .msg
  | .decFinalOk _ => .decCase .finalOk
  | .decFinalBad _ => .decCase .finalBad

/-- The bytes of an instruction, from the rows of the table (R81, R72, R73, R107 to R114). -/
def encode : Instr → List Byte
  | .nop => [0x00]
  | .reset => [0x01]
  | .decClear => [0x02]
  | .decFeed b => [0x03, b]
  | .encRequest api n p => 0x04 :: api :: n :: p
  | .sinkAccept => [0x05]
  | .sinkStall => [0x06]
  | .sinkFail => [0x07]
  | .reserved08 v => [1#5 ++ v]
  | .reserved10 v => [1#4 ++ v]
  | .reserved20 v => [1#3 ++ v]
  | .reserved40 v => [1#2 ++ v]
  | .reserved80 v => [1#1 ++ v]
  | .wireSof => [0x7E]
  | .wireEsc => [0x7D]
  | .wireXon => [0x11]
  | .wireXoff => [0x13]
  | .wireData d => [d]
  | .wireEscpair x => [0x7D, x]
  | .decSyncHit => [0x7E]
  | .decSyncMiss raw => [raw]
  | .decEsc => [0x7D]
  | .decAbort => [0x7E]
  | .decLenhi b => [b]
  | .decLenlo b => [b]
  | .decApi b => [b]
  | .decToolarge b => [b]
  | .decData b => [b]
  | .decMsg b => [b]
  | .decFinalOk b => [b]
  | .decFinalBad b => [b]

/-- The bytes of a script (R81). -/
def encodeScript (ops : List Instr) : List Byte := ops.flatMap encode

/-- The bytes of a table word, first byte first. A 16-bit word is the wire pair, the table's one row of that width, whose
fixed 7D the table puts in bits 15..8; every other word has its first byte in bits 7..0. -/
def tableBytes (nbits w : Nat) : List Byte :=
  if nbits = 16 ∧ BitVec.ofNat 8 (w / 256) = escMarker then [escMarker, BitVec.ofNat 8 w]
  else (List.range (nbits / 8)).map (fun k => BitVec.ofNat 8 (w / 2 ^ (8 * k)))

/-- Whether a table word is one of the wire rows with a fixed pattern. Their bytes are also op bytes of a RESERVED row;
the row that fixes more bits is taken (log 10). -/
def isWireWord : List Byte → Bool
  | [w] => isReserved w
  | [w, _] => w == escMarker
  | _ => false

/-- The operand bytes a table word leaves out are zero; 257 is the most an ENC.REQUEST can need after its op byte. -/
def operandZeros : List Byte := List.replicate 257 0x00

/-- The instruction the decoder reads from a table word. -/
def decodeTableWord (nbits w : Nat) : Option Instr :=
  let bs := tableBytes nbits w
  match (if isWireWord bs then decodeWire bs else if bs.isEmpty then .invalid .cutShort else decodeRecord (bs ++ operandZeros)) with
  | .ok i _ => some i
  | .invalid _ => none

end Sys2Proof
end

