-- ==== Sys2Proof/Machine/State.lean ====
section
/-! DEFINITION. The machine's state: the decoder's and the encoder's registers and arrays (10_state.md, 20_memory.md), the
parameters the block is built with, the host's and the sink's input, and the outputs of the step just performed. -/

namespace Sys2Proof.Machine

/-- One of the block's byte arrays (R50 to R52): the bytes that are not 0x00, indices strictly rising. An unlisted index
reads 0x00, the reset contents of R34 and R35. -/
abbrev Memory := List Host.Cell

/-- R29. The code 11 is never produced, so it has no name here (U16). -/
inductive Status where
  | inProgress
  | complete
  | failed
  deriving DecidableEq, Repr

/-- R30, R201. -/
inductive ErrorKind where
  | noError
  | checksumFailure
  | frameTooLarge
  | unexpectedStart
  deriving DecidableEq, Repr

/-- R33, R202. -/
inductive EncResult where
  | none
  | ok
  | transportError
  | lengthError
  deriving DecidableEq, Repr

/-- R22. -/
inductive Phase where
  | waitingStart
  | readingLength
  | readingType
  | readingPayload
  | complete
  | failed
  deriving DecidableEq, Repr

/-- R87: the event of a DEC.FEED step, with the data that comes with it. -/
inductive Event where
  | needMore
  | frameReady (apiId : Byte) (message : List Byte)
  | error (kind : ErrorKind)
  deriving DecidableEq, Repr

/-- The decoder's registers and arrays (R23 to R30, R50, R51). -/
structure Decoder where
  pos : Half
  dlen : Byte
  api : Byte
  ck : Half
  esc : Bool
  mfill : Half
  status : Status
  err : ErrorKind
  buf : Memory
  msg : Memory
  deriving DecidableEq, Repr

/-- The encoder's registers and array (R31 to R33, R52). -/
structure Encoder where
  ebusy : Bool
  ek : Half
  eapi : Byte
  en : Byte
  eres : EncResult
  txp : Memory
  deriving DecidableEq, Repr

/-- The input signals of R85 and R86 in one clocked cycle. `txReqPayload` is the 241-byte bus, first byte first. -/
structure Signals where
  rst : Bool
  decClear : Bool
  rxValid : Bool
  rxData : Byte
  decMsgIdx : Half
  txReqValid : Bool
  txReqApi : Byte
  txReqLen : Byte
  txReqPayload : List Byte
  txReady : Bool
  txFail : Bool
  deriving DecidableEq, Repr

/-- What the host and the sink do next, not yet performed (R80 to R86). The MODEL's own: the block has no program counter
and fetches nothing (R21), its agents outside drive it (R213). DESIGN CHOICE, safe (log 3). -/
inductive Input where
  /-- transaction records (R81) -/
  | script (bytes : List Byte)
  /-- raw wire bytes at the byte source (R84), read by wire class (R73) -/
  | wire (bytes : List Byte)
  /-- raw wire bytes at the byte source, each read as the dispatch case the decoder's state selects (R100) -/
  | rx (bytes : List Byte)
  /-- clocked cycles at signal level (R85, R86) -/
  | cycles (signals : List Signals)
  deriving DecidableEq, Repr

/-- The outputs that last one step only (R85: dec_ev_valid, dec_ev, dec_ev_err; R156 to R158: req_taken; R160: the byte the
sink took). The MODEL's own place for them; no operation reads them (R235). DESIGN CHOICE, safe (log 4). -/
structure StepOutputs where
  ev : Option Event
  reqTaken : Option Bool
  sinkTook : Option Byte
  deriving DecidableEq, Repr

/-- The state of one instance of the block. -/
structure State where
  cfg : Config
  resetDone : Bool
  dec : Decoder
  enc : Encoder
  input : Input
  out : StepOutputs
  deriving DecidableEq, Repr

/-- Why the machine stops. Neither happens from reset: `Safe` (Safety.lean) excludes both and every step keeps it. -/
inductive Fault where
  /-- raised by DEC.FEED (and the rows that feed) when `Msg` would be written at an index MSG_CAP or above, which the
  array does not have (R51, R112). Safe: the machine stops where the spec says no step can come (log 6). -/
  | msgIndexOutsideArray
  /-- raised by SINK.ACCEPT when the encoder is busy and `W[ek]` does not exist (R32, R155). Safe (log 6). -/
  | noByteOffered
  deriving DecidableEq, Repr

/-- Why a step has no meaning (R203). -/
inductive Refusal where
  /-- raised by an arm of exec whose instruction has no meaning yet. Safe. -/
  | notModelled (mnemonic : String)
  /-- raised by the RESERVED rows and by a script that holds one (R82). Safe. -/
  | reservedRecord
  /-- raised by a script whose last record is cut short (R82). Safe. -/
  | cutShortRecord
  /-- raised by step when the parameters break a constraint of R6 (R203). Safe. -/
  | illFormedConfig
  /-- raised by step for every step before the first RESET but RESET's own (R203, R232, R233). DEDUCED, safe (log 5). -/
  | beforeReset
  /-- raised by a cycle that carries both decoder operations, which R80 does not describe. DESIGN CHOICE, safe (log 8). -/
  | twoDecoderOperations
  deriving DecidableEq, Repr

/-- The zero value of R34. -/
def Decoder.zero : Decoder :=
  { pos := 0, dlen := 0x00, api := 0x00, ck := 0x0000, esc := false, mfill := 0, status := .inProgress, err := .noError,
    buf := [], msg := [] }

/-- The reset values of R35. -/
def Encoder.zero : Encoder :=
  { ebusy := false, ek := 0, eapi := 0x00, en := 0, eres := .none, txp := [] }

/-- A step without outputs. -/
def StepOutputs.quiet : StepOutputs := { ev := none, reqTaken := none, sinkTook := none }

/-- The state right after RESET (R231) of a block built with the parameters `c`, with nothing to do. -/
def State.resetFor (c : Config) : State :=
  { cfg := c, resetDone := true, dec := Decoder.zero, enc := Encoder.zero, input := .script [], out := StepOutputs.quiet }

/-- The state right after RESET (R231). R6 leaves M open: the parameters are those of TC1 (R7). DESIGN CHOICE, unsafe for a
claim that uses M = 24 (log 1); every statement of the package is about any parameters. -/
def State.reset : State := State.resetFor Config.tc1

end Sys2Proof.Machine
end

