-- ==== Sys2Proof/Machine/Ops.lean ====
section
/-! DEFINITION. The operations that several meanings share: the byte arrays, the decoder's zeroing, storing and failing,
and the ways a step ends. -/

namespace Sys2Proof.Machine

/-- `MemRead(A, i)` of R9; an unlisted index reads 0x00 (R34, R35). -/
def Memory.read : Memory → Nat → Byte
  | [], _ => 0x00
  | (j, w) :: m, i => if i = j then w else Memory.read m i

/-- `MemWrite(A, i, v)` of R9, keeping the canonical form. -/
def Memory.write : Memory → Nat → Byte → Memory
  | [], i, v => if v = 0x00 then [] else [(i, v)]
  | (j, w) :: m, i, v =>
    if i < j then (if v = 0x00 then (j, w) :: m else (i, v) :: (j, w) :: m)
    else if i = j then (if v = 0x00 then m else (i, v) :: m)
    else (j, w) :: Memory.write m i v

/-- `MemWrite(A, i, p[0])`, `MemWrite(A, i + 1, p[1])`, and so on (the loop of R157). -/
def Memory.writeAll : Memory → Nat → List Byte → Memory
  | m, _, [] => m
  | m, i, v :: p => Memory.writeAll (m.write i v) (i + 1) p

/-- The bytes of an array at indices 0 .. n-1. -/
def Memory.firstBytes (m : Memory) (n : Nat) : List Byte := (List.range n).map m.read

/-- Every listed index is at least `lo`, indices rise strictly, and no listed byte is 0x00. -/
def Memory.wfFrom : Nat → Memory → Bool
  | _, [] => true
  | lo, (i, v) :: m => decide (lo ≤ i) && !(v == 0x00) && Memory.wfFrom (i + 1) m

/-- The canonical form: equal arrays are equal lists. -/
def Memory.wf (m : Memory) : Bool := m.wfFrom 0

/-- Every listed index is below the array's capacity (R50 to R52, R60). -/
def Memory.within (m : Memory) (cap : Nat) : Bool := m.all (fun c => decide (c.1 < cap))

/-- S1 of R100, the lazy reset (R101): a terminal status at the start of a feed zeroes the decoder. -/
def Decoder.lazyReset (d : Decoder) : Decoder :=
  if d.status = .inProgress then d else Decoder.zero

/-- `raise Error(k)` of R9 and R206, without the event: the block's one way to enter an error. Nothing else is saved and
nothing vectors (R200). The lazy reset above leaves the error again (R207). -/
def Decoder.fail (d : Decoder) (k : ErrorKind) : Decoder := { d with status := .failed, err := k }

/-- `Buf` after `MemWrite(Buf, pos, b)` when pos < M, as S6 and R60 gate it; at pos == M the write is dropped. -/
def Decoder.bufStored (c : Config) (d : Decoder) (b : Byte) : Memory :=
  if d.pos.toNat < c.maxFrameSize then d.buf.write d.pos.toNat b else d.buf

/-- S6 of R100 (R115): store, then advance. -/
def Decoder.storeAdvance (c : Config) (d : Decoder) (b : Byte) : Decoder :=
  { d with buf := d.bufStored c b, pos := d.pos + 1 }

/-- S4 of R100 (R106) at pos >= 3, modulo 2^16. -/
def Decoder.addToSum (d : Decoder) (b : Byte) : Decoder := { d with ck := d.ck + zext16 b }

/-- The write of S5b (R112). -/
def Decoder.pushMsg (d : Decoder) (b : Byte) : Decoder :=
  { d with msg := d.msg.write d.mfill.toNat b, mfill := d.mfill + 1 }

/-- The message: Msg[0 .. mfill - 1] (R87, R114). -/
def Decoder.message (d : Decoder) : List Byte := d.msg.firstBytes d.mfill.toNat

/-- The seeded decoder of R105: zero, with the start byte stored and counted. -/
def Decoder.seeded (c : Config) : Decoder := Decoder.zero.storeAdvance c startByte

/-- A step that changes nothing and has no outputs (R82, R161, R163). -/
def State.quiet (s : State) : State := { s with out := StepOutputs.quiet }

/-- The end of a DEC.FEED step: the new decoder and the step's one event (R116). -/
def State.decoded (s : State) (r : Decoder × Event) : State :=
  { s with dec := r.1, out := { StepOutputs.quiet with ev := some r.2 } }

/-- The end of an ENC.REQUEST step: the new encoder and req_taken (R156 to R158). -/
def State.requested (s : State) (e : Encoder) (taken : Bool) : State :=
  { s with enc := e, out := { StepOutputs.quiet with reqTaken := some taken } }

/-- The end of a step in which the sink answers: the new encoder and the byte the sink took, if it took one (R160, R162). -/
def State.answered (s : State) (e : Encoder) (took : Option Byte) : State :=
  { s with enc := e, out := { StepOutputs.quiet with sinkTook := took } }

end Sys2Proof.Machine
end

