-- ==== Sys2Proof/Machine/Operands.lean ====
section
/-! DEFINITION. How operand bytes are formed: the escape code both ways (R72, R103), the byte the guard tests (R104), the
byte that carries a dispatch case, the checksum (R75), the frame and its wire form (R152 to R155). -/

namespace Sys2Proof.Machine

/-- The logical byte S2b forms from a raw one (R103). -/
def Decoder.logicalByte (d : Decoder) (raw : Byte) : Byte := if d.esc then raw ^^^ escMask else raw

/-- The decoder after S1 and S2b: the lazy reset done and the pending escape consumed (R101, R103). -/
def Decoder.opened (d : Decoder) : Decoder := { d.lazyReset with esc := false }

/-- The byte the unexpected-start guard tests: `g` of S3 (R104). -/
def guardByte (c : Config) (raw b : Byte) : Byte :=
  match c.startGuard with
  | .raw => raw
  | .unescaped => b

/-- The raw byte that gives the logical byte `b` in the decoder's next feed: the inverse of R103. -/
def Decoder.carrier (d : Decoder) (b : Byte) : Byte := d.lazyReset.logicalByte b

/-- `Esc(v)` of R72. -/
def escByte (v : Byte) : List Byte := if isReserved v then [escMarker, v ^^^ escMask] else [v]

/-- `sum8` of R8. -/
def sum8 : List Byte → Byte
  | [] => 0x00
  | b :: bs => b + sum8 bs

/-- The checksum of R75 and R154. -/
def checksum (data : List Byte) : Byte := 0xFF - sum8 data

/-- `D` of R152: apiId, the fixed header, the payload. -/
def frameData (api : Byte) (p : List Byte) : List Byte := api :: (txHeader ++ p)

/-- lenLo of R153; lenHi is 0x00. -/
def lenLo (n : Nat) : Byte := BitVec.ofNat 8 (n + frameOverhead)

/-- The frame after its start delimiter: F[1] .. F[n + 17] of R155. -/
def frameTail (api : Byte) (p : List Byte) : List Byte :=
  [0x00, lenLo p.length] ++ frameData api p ++ [checksum (frameData api p)]

/-- The logical frame `F` of R155 and R78. -/
def logicalFrame (api : Byte) (p : List Byte) : List Byte := startByte :: frameTail api p

/-- `EncodeWire` of R155: the start delimiter raw, every later byte through the escape generator (R151). -/
def encodeWire (api : Byte) (p : List Byte) : List Byte := startByte :: (frameTail api p).flatMap escByte

/-- The payload the encoder latched: Txp[0 .. en - 1] (R155). -/
def Encoder.payload (e : Encoder) : List Byte := e.txp.firstBytes e.en.toNat

/-- `W` of the operations (R155). -/
def Encoder.wire (e : Encoder) : List Byte := encodeWire e.eapi e.payload

/-- `W[ek]`, the byte on offer while the encoder is busy (R159). -/
def Encoder.offered (e : Encoder) : Option Byte := e.wire[e.ek.toNat]?

end Sys2Proof.Machine
end

