-- ==== Sys2Proof/Machine/Flags.lean ====
section
/-! DEFINITION. The codes of the named values and the flag words of the status view (R22, R29, R30, R33, R36, R87). -/

namespace Sys2Proof.Machine

/-- R29. -/
def Status.code : Status → BitVec 2
  | .inProgress => 0b00
  | .complete => 0b01
  | .failed => 0b10

/-- R30, R201. -/
def ErrorKind.code : ErrorKind → BitVec 2
  | .noError => 0b00
  | .checksumFailure => 0b01
  | .frameTooLarge => 0b10
  | .unexpectedStart => 0b11

/-- R33, R202. -/
def EncResult.code : EncResult → BitVec 2
  | .none => 0b00
  | .ok => 0b01
  | .transportError => 0b10
  | .lengthError => 0b11

/-- R36, field phase. -/
def Phase.code : Phase → BitVec 3
  | .waitingStart => 0b000
  | .readingLength => 0b001
  | .readingType => 0b010
  | .readingPayload => 0b011
  | .complete => 0b100
  | .failed => 0b101

/-- dec_ev of R85 and R87. -/
def Event.code : Event → BitVec 2
  | .needMore => 0b00
  | .frameReady _ _ => 0b01
  | .error _ => 0b10

/-- dec_ev_err of R85 and R87. -/
def Event.errCode : Event → BitVec 2
  | .needMore => 0b00
  | .frameReady _ _ => 0b00
  | .error k => k.code

/-- The phase, a function of status and pos (R22). -/
def phaseOf (st : Status) (pos : Half) : Phase :=
  match st with
  | .complete => .complete
  | .failed => .failed
  | .inProgress =>
    if pos.toNat = 0 then .waitingStart
    else if pos.toNat = 1 ∨ pos.toNat = 2 then .readingLength
    else if pos.toNat = 3 then .readingType
    else .readingPayload

/-- The decoder's phase (R22). -/
def Decoder.phase (d : Decoder) : Phase := phaseOf d.status d.pos

/-- DEC_STATUS of R36: [1:0] status, [3:2] err, [4] esc, [7:5] phase. -/
def Decoder.statusWord (d : Decoder) : Byte :=
  d.phase.code ++ BitVec.ofBool d.esc ++ d.err.code ++ d.status.code

/-- ENC_STATUS of R36: [0] ebusy, [2:1] eres, [7:3] reads 0. -/
def Encoder.statusWord (e : Encoder) : Byte :=
  0#5 ++ e.eres.code ++ BitVec.ofBool e.ebusy

/-- The comparison of S5c: ck[7:0] == 0xFF (R114). -/
def Decoder.sumValid (d : Decoder) : Bool := low8 d.ck == 0xFF

end Sys2Proof.Machine
end

