-- ==== Sys2Proof/Machine/Views.lean ====
section
/-! DEFINITION. The read-only status view (R36) and the output ports (R85, R86): functions of the state, without effect on it. -/

namespace Sys2Proof.Machine

/-- DEC_STATUS (R36). -/
def State.decStatus (s : State) : Byte := s.dec.statusWord
/-- DEC_POS (R36). -/
def State.decPos (s : State) : Half := s.dec.pos
/-- DEC_LEN (R36). -/
def State.decLen (s : State) : Byte := s.dec.dlen
/-- DEC_API (R36). -/
def State.decApi (s : State) : Byte := s.dec.api
/-- DEC_CK (R36). -/
def State.decCk (s : State) : Half := s.dec.ck
/-- DEC_MSGLEN (R36). -/
def State.decMsgLen (s : State) : Half := s.dec.mfill
/-- DEC_MSG(i) (R36): 0x00 at and above MSG_CAP. -/
def State.decMsg (s : State) (i : Half) : Byte := if i.toNat < s.cfg.msgCap then s.dec.msg.read i.toNat else 0x00
/-- ENC_STATUS (R36). -/
def State.encStatus (s : State) : Byte := s.enc.statusWord
/-- ENC_COUNT (R36). -/
def State.encCount (s : State) : Half := s.enc.ek
/-- ENC_TXDATA (R36, R159, R164): W[ek] while busy, 0x00 while idle. Busy with no W[ek] is excluded by `Safe` (log 6). -/
def State.encTxData (s : State) : Byte := if s.enc.ebusy then s.enc.offered.getD 0x00 else 0x00

/-- The output ports of R85 and R86. -/
structure OutputPorts where
  rxReady : Bool
  decEvValid : Bool
  decEv : BitVec 2
  decEvErr : BitVec 2
  decStatus : Byte
  decPos : Half
  decLen : Byte
  decApi : Byte
  decCk : Half
  decMsgLen : Half
  decMsgData : Byte
  txReqReady : Bool
  txValid : Bool
  txData : Byte
  encStatus : Byte
  encCount : Half
  deriving DecidableEq, Repr

/-- The output ports after a step, with dec_msg_idx = `idx`. rx_ready is constant 1; the event codes are 00 when
dec_ev_valid is 0 (R85). -/
def State.outputPorts (s : State) (idx : Half) : OutputPorts :=
  { rxReady := true
    decEvValid := s.out.ev.isSome
    decEv := (s.out.ev.map Event.code).getD 0b00
    decEvErr := (s.out.ev.map Event.errCode).getD 0b00
    decStatus := s.decStatus
    decPos := s.decPos
    decLen := s.decLen
    decApi := s.decApi
    decCk := s.decCk
    decMsgLen := s.decMsgLen
    decMsgData := s.decMsg idx
    txReqReady := !s.enc.ebusy
    txValid := s.enc.ebusy
    txData := s.encTxData
    encStatus := s.encStatus
    encCount := s.encCount }

/-- R217: the encoder owes the sink nothing. -/
def State.quiescent (s : State) : Bool := !s.enc.ebusy

end Sys2Proof.Machine
end

