-- ==== Sys2Proof/Machine/DecoderOps.lean ====
section
/-! DEFINITION. DEC.FEED (R100, lines S1 to S6) and DEC.CLEAR (R120). -/

namespace Sys2Proof.Machine

/-- S3 of R100 when the guard fires: R104 under DISCARD, R105 under SEED. -/
def Decoder.abortFrame (c : Config) (d : Decoder) : Decoder × Event :=
  match c.abortPolicy with
  | .discard => (d.fail .unexpectedStart, .error .unexpectedStart)
  | .seed => (Decoder.seeded c, .error .unexpectedStart)

/-- Whether S5b takes a byte at the decoder's position (R112). -/
def Decoder.inMessage (c : Config) (d : Decoder) : Bool :=
  d.api == rxApiId && decide (c.receivedDataIdx ≤ d.pos.toNat) && decide (d.pos.toNat < d.dlen.toNat + 3)

/-- S5b of R100 (R112). -/
def Decoder.takeMessage (c : Config) (d : Decoder) (b : Byte) : Decoder :=
  if d.inMessage c then d.pushMsg b else d

/-- S5c of R100 (R114). -/
def Decoder.finalise (d : Decoder) : Decoder × Event :=
  if d.pos.toNat = d.dlen.toNat + 3 then
    if d.sumValid then ({ d with status := .complete, err := .noError }, .frameReady d.api d.message)
    else (d.fail .checksumFailure, .error .checksumFailure)
  else (d, .needMore)

/-- S5 at pos >= 4 in the order of R111, then S6. -/
def Decoder.takeData (c : Config) (d : Decoder) (b : Byte) : Decoder × Event :=
  if c.maxFrameSize < d.pos.toNat then (d.fail .frameTooLarge, .error .frameTooLarge)
  else
    let r := (d.takeMessage c b).finalise
    (r.1.storeAdvance c b, r.2)

/-- S4 to S6 of R100, from a logical byte. -/
def Decoder.takeLogical (c : Config) (d : Decoder) (b : Byte) : Decoder × Event :=
  if d.pos.toNat = 0 then (if b = startByte then d.storeAdvance c b else d, .needMore)
  else if d.pos.toNat = 1 then (d.storeAdvance c b, .needMore)
  else if d.pos.toNat = 2 then ({ d with dlen := b }.storeAdvance c b, .needMore)
  else if d.pos.toNat = 3 then ({ d.addToSum b with api := b }.storeAdvance c b, .needMore)
  else (d.addToSum b).takeData c b

/-- DEC.FEED on the decoder alone: R100, lines S1 to S6. -/
def Decoder.feed (c : Config) (d0 : Decoder) (raw : Byte) : Decoder × Event :=
  let d := d0.lazyReset
  if 0 < d.pos.toNat ∧ raw = escMarker then ({ d with esc := true }, .needMore)
  else
    let b := d.logicalByte raw
    let d := { d with esc := false }
    if 0 < d.pos.toNat ∧ guardByte c raw b = startByte then d.abortFrame c
    else d.takeLogical c b

/-- Whether a feed reaches S5b's write (R112) with `mfill` outside the array, which R112 shows no run does (log 6). -/
def Decoder.overrunsMsg (c : Config) (d0 : Decoder) (raw : Byte) : Bool :=
  let d := d0.lazyReset
  !(raw == escMarker) && !(guardByte c raw (d.logicalByte raw) == startByte) && decide (4 ≤ d.pos.toNat)
    && decide (d.pos.toNat ≤ c.maxFrameSize) && d.inMessage c && decide (c.msgCap ≤ d.mfill.toNat)

/-- A DEC.FEED step (R100). -/
def State.feed (raw : Byte) (s : State) : Host.Outcome State Fault Refusal :=
  if s.dec.overrunsMsg s.cfg raw then .fault .msgIndexOutsideArray else .next (s.decoded (s.dec.feed s.cfg raw))

/-- DEC.CLEAR (R120): DecZero, no event. -/
def execDecClear (s : State) : Host.Outcome State Fault Refusal :=
  .next { s with dec := Decoder.zero, out := StepOutputs.quiet }

/-- DEC.FEED (R100). -/
def execDecFeed (b : Byte) (s : State) : Host.Outcome State Fault Refusal := s.feed b

end Sys2Proof.Machine
end

