-- ==== Sys2Proof/Machine/DecCases.lean ====
section
/-! DEFINITION. The dispatch cases of DEC.FEED: which case the decoder's state selects for a raw byte, and for each case the
effect its own row and rule give it. A row named in a state that selects another case is a DEC.FEED of its byte (log 9). -/

namespace Sys2Proof.Machine

/-- The case selected, by the `state` column of the table's dec-case rows, in the priority order of R204. -/
def decCase (c : Config) (d0 : Decoder) (raw : Byte) : DecCase :=
  let d := d0.lazyReset
  let b := d.logicalByte raw
  if d.pos.toNat = 0 then (if b = startByte then .syncHit else .syncMiss)
  else if raw = escMarker then .esc
  else if guardByte c raw b = startByte then .abort
  else if d.pos.toNat = 1 then .lenhi
  else if d.pos.toNat = 2 then .lenlo
  else if d.pos.toNat = 3 then .api
  else if c.maxFrameSize < d.pos.toNat then .toolarge
  else if d.pos.toNat = d.dlen.toNat + 3 then (if low8 (d.ck + zext16 b) = 0xFF then .finalOk else .finalBad)
  else if d.inMessage c then .msg
  else .data

/-- The raw byte that carries a case's byte. The first four rows name the raw byte itself, the others the logical byte;
under the UNESCAPED guard the aborting byte is the logical one (R104). -/
def caseRaw (k : DecCase) (c : Config) (d : Decoder) (x : Byte) : Byte :=
  match k with
  | .syncHit => d.carrier startByte
  | .syncMiss => x
  | .esc => escMarker
  | .abort => (match c.startGuard with | .raw => startByte | .unescaped => d.carrier startByte)
  | .lenhi => d.carrier x
  | .lenlo => d.carrier x
  | .api => d.carrier x
  | .toolarge => d.carrier x
  | .data => d.carrier x
  | .msg => d.carrier x
  | .finalOk => d.carrier x
  | .finalBad => d.carrier x

/-- The byte a row names when the raw byte is `raw`: the other direction of `caseRaw`. -/
def caseByte (k : DecCase) (d : Decoder) (raw : Byte) : Byte :=
  match k with
  | .syncHit => startByte
  | .syncMiss => raw
  | .esc => escMarker
  | .abort => startByte
  | .lenhi => d.lazyReset.logicalByte raw
  | .lenlo => d.lazyReset.logicalByte raw
  | .api => d.lazyReset.logicalByte raw
  | .toolarge => d.lazyReset.logicalByte raw
  | .data => d.lazyReset.logicalByte raw
  | .msg => d.lazyReset.logicalByte raw
  | .finalOk => d.lazyReset.logicalByte raw
  | .finalBad => d.lazyReset.logicalByte raw

/-- A row's step: its own effect `r` where the state selects it for its byte, else a DEC.FEED of that byte. -/
def State.asCase (k : DecCase) (x : Byte) (r : Decoder × Event) (s : State) : Host.Outcome State Fault Refusal :=
  let raw := caseRaw k s.cfg s.dec x
  if decCase s.cfg s.dec raw = k then .next (s.decoded r) else s.feed raw

/-- DEC.SYNC-HIT (R107): the start byte is stored at index 0 and pos becomes 1. -/
def execDecSyncHit (s : State) : Host.Outcome State Fault Refusal :=
  s.asCase .syncHit startByte (s.dec.opened.storeAdvance s.cfg startByte, .needMore)

/-- DEC.SYNC-MISS (R107): the byte is ignored. -/
def execDecSyncMiss (raw : Byte) (s : State) : Host.Outcome State Fault Refusal :=
  s.asCase .syncMiss raw (s.dec.opened, .needMore)

/-- DEC.ESC (R102): esc is armed, nothing else changes. -/
def execDecEsc (s : State) : Host.Outcome State Fault Refusal :=
  s.asCase .esc escMarker ({ s.dec.lazyReset with esc := true }, .needMore)

/-- DEC.ABORT (R104, R105). -/
def execDecAbort (s : State) : Host.Outcome State Fault Refusal :=
  s.asCase .abort startByte (s.dec.opened.abortFrame s.cfg)

/-- DEC.LENHI (R108): the byte is only stored. -/
def execDecLenhi (b : Byte) (s : State) : Host.Outcome State Fault Refusal :=
  s.asCase .lenhi b (s.dec.opened.storeAdvance s.cfg b, .needMore)

/-- DEC.LENLO (R109): dlen <- b. -/
def execDecLenlo (b : Byte) (s : State) : Host.Outcome State Fault Refusal :=
  s.asCase .lenlo b ({ s.dec.opened with dlen := b }.storeAdvance s.cfg b, .needMore)

/-- DEC.API (R110): api <- b, ck += b. -/
def execDecApi (b : Byte) (s : State) : Host.Outcome State Fault Refusal :=
  s.asCase .api b ({ s.dec.opened with api := b, ck := s.dec.opened.ck + zext16 b }.storeAdvance s.cfg b, .needMore)

/-- DEC.TOOLARGE (R113): ck += b, Error(FrameTooLarge); not stored, pos unchanged. -/
def execDecToolarge (b : Byte) (s : State) : Host.Outcome State Fault Refusal :=
  s.asCase .toolarge b ((s.dec.opened.addToSum b).fail .frameTooLarge, .error .frameTooLarge)

/-- DEC.DATA (R111): ck += b, stored if pos < M. -/
def execDecData (b : Byte) (s : State) : Host.Outcome State Fault Refusal :=
  s.asCase .data b ((s.dec.opened.addToSum b).storeAdvance s.cfg b, .needMore)

/-- DEC.MSG (R112): ck += b, Msg[mfill] <- b, mfill += 1, stored if pos < M. Where `Msg` has no index mfill, the feed faults. -/
def execDecMsg (b : Byte) (s : State) : Host.Outcome State Fault Refusal :=
  if s.dec.overrunsMsg s.cfg (caseRaw .msg s.cfg s.dec b) then .fault .msgIndexOutsideArray
  else s.asCase .msg b (((s.dec.opened.addToSum b).pushMsg b).storeAdvance s.cfg b, .needMore)

/-- DEC.FINAL-OK (R114, R115): ck += b, status Complete, the byte stored if pos < M; FrameReady. -/
def execDecFinalOk (b : Byte) (s : State) : Host.Outcome State Fault Refusal :=
  s.asCase .finalOk b ({ s.dec.opened.addToSum b with status := .complete, err := .noError }.storeAdvance s.cfg b,
    .frameReady s.dec.opened.api s.dec.opened.message)

/-- DEC.FINAL-BAD (R114, R115): ck += b, Error(ChecksumFailure), the byte stored if pos < M. -/
def execDecFinalBad (b : Byte) (s : State) : Host.Outcome State Fault Refusal :=
  s.asCase .finalBad b (((s.dec.opened.addToSum b).fail .checksumFailure).storeAdvance s.cfg b, .error .checksumFailure)

end Sys2Proof.Machine
end

