-- ==== Sys2Proof/Machine/EncoderOps.lean ====
section
/-! DEFINITION. ENC.REQUEST (R156 to R158) and the answers of the sink (R160 to R163). -/

namespace Sys2Proof.Machine

/-- The encoder after it takes a request (R157). -/
def Encoder.latch (e : Encoder) (api n : Byte) (p : List Byte) : Encoder :=
  { ebusy := true, ek := 0, eapi := api, en := n, eres := .none, txp := e.txp.writeAll 0 (p.take n.toNat) }

/-- The encoder after the sink takes W[ek] (R160). -/
def Encoder.advance (e : Encoder) : Encoder :=
  if e.ek.toNat + 1 = e.wire.length then { e with ek := e.ek + 1, ebusy := false, eres := .ok } else { e with ek := e.ek + 1 }

/-- ENC.REQUEST: busy R156, taken R157, too long R158. -/
def execEncRequest (api n : Byte) (p : List Byte) (s : State) : Host.Outcome State Fault Refusal :=
  if s.enc.ebusy then .next (s.requested s.enc false)
  else if txpCap < n.toNat then .next (s.requested { s.enc with eres := .lengthError } true)
  else .next (s.requested (s.enc.latch api n p) true)

/-- SINK.ACCEPT: R160 while busy, R163 while idle. -/
def execSinkAccept (s : State) : Host.Outcome State Fault Refusal :=
  if s.enc.ebusy then
    match s.enc.offered with
    | some v => .next (s.answered s.enc.advance (some v))
    | none => .fault .noByteOffered
  else .next s.quiet

/-- SINK.STALL (R161, R163). -/
def execSinkStall (s : State) : Host.Outcome State Fault Refusal := .next s.quiet

/-- SINK.FAIL: R162 while busy, R163 while idle. -/
def execSinkFail (s : State) : Host.Outcome State Fault Refusal :=
  if s.enc.ebusy then .next (s.answered { s.enc with ebusy := false, eres := .transportError } none) else .next s.quiet

end Sys2Proof.Machine
end

