-- ==== Sys2Proof/Machine/System.lean ====
section
/-! DEFINITION. NOP (R82), RESET (R230) and the RESERVED rows (R82). -/

namespace Sys2Proof.Machine

/-- NOP (R82): no state changes, no output. -/
def execNop (s : State) : Host.Outcome State Fault Refusal := .next s.quiet

/-- RESET (R230): DecZero, then the encoder's reset values; no decoder event. The parameters are built in (R6) and the
host's own plan is not the block's, so both stay. -/
def execReset (s : State) : Host.Outcome State Fault Refusal :=
  .next { s with resetDone := true, dec := Decoder.zero, enc := Encoder.zero, out := StepOutputs.quiet }

/-- A record that spells no operation: the script is refused (R82, R203). -/
def State.reservedRecord (_ : State) : Host.Outcome State Fault Refusal := .refused .reservedRecord

/-- RESERVED 08..0F (R82). -/
def execReserved08 (_ : BitVec 3) (s : State) : Host.Outcome State Fault Refusal := s.reservedRecord

/-- RESERVED 10..1F (R82). -/
def execReserved10 (_ : BitVec 4) (s : State) : Host.Outcome State Fault Refusal := s.reservedRecord

/-- RESERVED 20..3F (R82). -/
def execReserved20 (_ : BitVec 5) (s : State) : Host.Outcome State Fault Refusal := s.reservedRecord

/-- RESERVED 40..7F (R82). -/
def execReserved40 (_ : BitVec 6) (s : State) : Host.Outcome State Fault Refusal := s.reservedRecord

/-- RESERVED 80..FF (R82). -/
def execReserved80 (_ : BitVec 7) (s : State) : Host.Outcome State Fault Refusal := s.reservedRecord

end Sys2Proof.Machine
end

