-- ==== Sys2Proof/Machine/WireBytes.lean ====
section
/-! DEFINITION. The wire rows of the table (R70 to R74): the block takes a wire byte by a DEC.FEED of it (R84). -/

namespace Sys2Proof.Machine

/-- WIRE.SOF: raw 7E; a start at pos 0, the unexpected-start guard after it (R73). -/
def execWireSof (s : State) : Host.Outcome State Fault Refusal := s.feed startByte

/-- WIRE.ESC: raw 7D; ignored at pos 0, the escape marker after it (R73). -/
def execWireEsc (s : State) : Host.Outcome State Fault Refusal := s.feed escMarker

/-- WIRE.XON: raw 11, which the decoder takes as data (R73). -/
def execWireXon (s : State) : Host.Outcome State Fault Refusal := s.feed xonByte

/-- WIRE.XOFF: raw 13, which the decoder takes as data (R73). -/
def execWireXoff (s : State) : Host.Outcome State Fault Refusal := s.feed xoffByte

/-- WIRE.DATA: any other raw byte (R73). -/
def execWireData (d : Byte) (s : State) : Host.Outcome State Fault Refusal := s.feed d

/-- WIRE.ESCPAIR: raw 7D, then raw x (R72, R74). The row is two wire bytes, so its meaning is two DEC.FEED steps one
after the other; the outputs are those of the second, and the first one's event is NeedMore whatever the state (log 11). -/
def execWireEscpair (x : Byte) (s : State) : Host.Outcome State Fault Refusal :=
  match s.feed escMarker with
  | .next t => t.feed x
  | .fault r => .fault r
  | .refused r => .refused r

end Sys2Proof.Machine
end

