-- ==== Sys2Proof/Machine/Dispatch.lean ====
section
/-! DEFINITION. One arm per constructor of Instr. -/

namespace Sys2Proof.Machine

def exec (i : Instr) (s : State) : Host.Outcome State Fault Refusal :=
  match i with
  -- records (R80, R81)
  | .nop => Sys2Proof.Machine.execNop s
  | .reset => Sys2Proof.Machine.execReset s
  | .decClear => Sys2Proof.Machine.execDecClear s
  | .decFeed b => Sys2Proof.Machine.execDecFeed b s
  | .encRequest api n p => Sys2Proof.Machine.execEncRequest api n p s
  | .sinkAccept => Sys2Proof.Machine.execSinkAccept s
  | .sinkStall => Sys2Proof.Machine.execSinkStall s
  | .sinkFail => Sys2Proof.Machine.execSinkFail s
  -- reserved records (R82)
  | .reserved08 v => Sys2Proof.Machine.execReserved08 v s
  | .reserved10 v => Sys2Proof.Machine.execReserved10 v s
  | .reserved20 v => Sys2Proof.Machine.execReserved20 v s
  | .reserved40 v => Sys2Proof.Machine.execReserved40 v s
  | .reserved80 v => Sys2Proof.Machine.execReserved80 v s
  -- wire bytes (R73)
  | .wireSof => Sys2Proof.Machine.execWireSof s
  | .wireEsc => Sys2Proof.Machine.execWireEsc s
  | .wireXon => Sys2Proof.Machine.execWireXon s
  | .wireXoff => Sys2Proof.Machine.execWireXoff s
  | .wireData d => Sys2Proof.Machine.execWireData d s
  | .wireEscpair x => Sys2Proof.Machine.execWireEscpair x s
  -- dispatch cases (R102 to R114)
  | .decSyncHit => Sys2Proof.Machine.execDecSyncHit s
  | .decSyncMiss raw => Sys2Proof.Machine.execDecSyncMiss raw s
  | .decEsc => Sys2Proof.Machine.execDecEsc s
  | .decAbort => Sys2Proof.Machine.execDecAbort s
  | .decLenhi b => Sys2Proof.Machine.execDecLenhi b s
  | .decLenlo b => Sys2Proof.Machine.execDecLenlo b s
  | .decApi b => Sys2Proof.Machine.execDecApi b s
  | .decToolarge b => Sys2Proof.Machine.execDecToolarge b s
  | .decData b => Sys2Proof.Machine.execDecData b s
  | .decMsg b => Sys2Proof.Machine.execDecMsg b s
  | .decFinalOk b => Sys2Proof.Machine.execDecFinalOk b s
  | .decFinalBad b => Sys2Proof.Machine.execDecFinalBad b s

end Sys2Proof.Machine
end

