-- ==== Sys2Proof/Machine/Cycle.lean ====
section
/-! DEFINITION. One clocked cycle at signal level (R80, R85, R86): which operations the input signals ask for, and their
effect in one step. -/

namespace Sys2Proof.Machine

/-- The payload of an offered request: bytes 0 .. n-1 of the bus, the others are ignored (R86). -/
def Signals.payload (g : Signals) : List Byte := (List.range g.txReqLen.toNat).map (fun i => g.txReqPayload.getD i 0x00)

/-- The request the signals offer (R86). -/
def Signals.request (g : Signals) : Instr := .encRequest g.txReqApi g.txReqLen g.payload

/-- The sink's answer: tx_fail wins over tx_ready (R86). -/
def Signals.sinkAnswer (g : Signals) : Instr :=
  if g.txFail then .sinkFail else if g.txReady then .sinkAccept else .sinkStall

/-- The decoder's operation of the cycle, NOP if there is none (R85). -/
def Signals.decoderOp (g : Signals) : Instr :=
  if g.decClear then .decClear else if g.rxValid then .decFeed g.rxData else .nop

/-- The encoder's operation of the cycle. Busy (tx_valid = 1, tx_req_ready = 0), the sink answers and an offered request
waits (R86, R156). Idle (tx_valid = 0, tx_req_ready = 1), no byte is offered to the sink, and an offered request is taken. -/
def Signals.encoderOp (g : Signals) (busy : Bool) : Instr :=
  if busy then g.sinkAnswer else if g.txReqValid then g.request else .nop

/-- The outputs of a cycle: the decoder's event, and req_taken and the taken byte from the encoder; a request that waits
is not taken (R156). -/
def cycleOutputs (g : Signals) (busy : Bool) (dec enc : StepOutputs) : StepOutputs :=
  { ev := dec.ev
    reqTaken := if busy && g.txReqValid then some false else enc.reqTaken
    sinkTook := enc.sinkTook }

/-- One cycle. RESET wins over everything else (R80); otherwise at most one operation of each agent, in either order
(R61, R216). -/
def cycle (g : Signals) (s : State) : Host.Outcome State Fault Refusal :=
  if g.rst then exec .reset s
  else if g.decClear && g.rxValid then .refused .twoDecoderOperations
  else
    match exec g.decoderOp s with
    | .next t =>
      match exec (g.encoderOp s.enc.ebusy) t with
      | .next u => .next { u with out := cycleOutputs g s.enc.ebusy t.out u.out }
      | .fault r => .fault r
      | .refused r => .refused r
    | .fault r => .fault r
    | .refused r => .refused r

end Sys2Proof.Machine
end

