-- ==== Sys2Proof/Machine/Fetch.lean ====
section
/-! DEFINITION. How the machine comes to its next transaction. The block fetches nothing (R21); the host and the sink hand
it transactions, and the model holds what they will hand over in State.input (log 3). -/

namespace Sys2Proof.Machine

/-- What the next step does. -/
inductive Fetched where
  /-- nothing is left to do -/
  | idle
  /-- one instruction, on the state with its bytes taken from the input -/
  | instr (i : Instr) (s : State)
  /-- one clocked cycle, on the state with the cycle taken from the input -/
  | cycle (g : Signals) (s : State)
  /-- the input has no meaning (R203) -/
  | refused (r : Refusal)
  deriving DecidableEq, Repr

/-- The refusal for an invalid script (R82). -/
def refusalOf : Invalid → Refusal
  | .cutShort => .cutShortRecord
  | .reserved => .reservedRecord
  | .patternMismatch => .reservedRecord

/-- The first instruction of the bytes, on the state with `put rest` as its input. -/
def fetched (s : State) (put : List Byte → Input) : Decoded → Fetched
  | .ok i rest => .instr i { s with input := put rest }
  | .invalid why => .refused (refusalOf why)

/-- From a script: the WHOLE script is decoded before a record of it is run (R82). -/
def fetchScript (s : State) (bs : List Byte) : Fetched :=
  match decodeScript bs with
  | .invalid why => .refused (refusalOf why)
  | .ok [] => .idle
  | .ok (_ :: _) => fetched s .script (decodeRecord bs)

/-- From wire bytes, by wire class (R73, R74). -/
def fetchWire (s : State) (bs : List Byte) : Fetched :=
  match bs with
  | [] => .idle
  | _ :: _ => fetched s .wire (decodeWire bs)

/-- From wire bytes, each read as the dispatch case the decoder selects for it. -/
def fetchRx (s : State) (bs : List Byte) : Fetched :=
  match bs with
  | [] => .idle
  | raw :: rest =>
    let k := decCase s.cfg s.dec raw
    .instr (k.instr (caseByte k s.dec raw)) { s with input := .rx rest }

/-- From clocked cycles (R85, R86). -/
def fetchCycle (s : State) (gs : List Signals) : Fetched :=
  match gs with
  | [] => .idle
  | g :: rest => .cycle g { s with input := .cycles rest }

/-- The next transaction. -/
def fetch (s : State) : Fetched :=
  match s.input with
  | .script bs => fetchScript s bs
  | .wire bs => fetchWire s bs
  | .rx bs => fetchRx s bs
  | .cycles gs => fetchCycle s gs

/-- RESET comes before the first other operation (R232, R233): of what the state holds before it, no other step has a
meaning (R203; log 5). -/
def afterReset (s : State) (isReset : Bool) (run : Host.Outcome State Fault Refusal) : Host.Outcome State Fault Refusal :=
  if s.resetDone || isReset then run else .refused .beforeReset

/-- What a fetched transaction does. With nothing left the block holds its state (R212), as in a cycle without a
transaction, which R82 calls NOP (log 7); before RESET that is refused like any other step (R203, R232). An input without
meaning is refused for what it is, whether or not RESET has been performed: of two refusals that hold at once the spec
prefers none, and the order is the model's. DESIGN CHOICE, safe (log 16). -/
def run (s : State) : Fetched → Host.Outcome State Fault Refusal
  | .idle => afterReset s false (execNop s)
  | .instr i t => afterReset s (i == .reset) (exec i t)
  | .cycle g t => afterReset s g.rst (cycle g t)
  | .refused r => .refused r

/-- An instruction's bytes where the next step takes its transaction from: the script for a record, the byte source for a
wire byte, the byte source read by dispatch case for a case. -/
def inputFor (i : Instr) : Input :=
  match i.format with
  | .record => .script (encode i)
  | .wire => .wire (encode i)
  | .decCase _ => .rx (encode i)

/-- The input that holds a table word and nothing else. -/
def inputForWord (nbits w : Nat) : Input :=
  match decodeTableWord nbits w with
  | some i => inputFor i
  | none => .script (tableBytes nbits w)

end Sys2Proof.Machine
end

