-- ==== Sys2Proof/Machine/Step.lean ====
section
/-! DEFINITION. One step (R80): an ill-formed configuration has none (R203); otherwise the next transaction is performed. -/

namespace Sys2Proof.Machine

/-- One step of the machine. R203 lists its refusals without an order. Where several hold at once the model names the
configuration first, then the bad script, then beforeReset. DESIGN CHOICE, safe (log 16). -/
def step (s : State) : Host.Outcome State Fault Refusal :=
  if s.cfg.wf then run s (fetch s) else .refused .illFormedConfig

/-- The state with a table word as the next, and only, transaction: how a program comes to the machine (log 3). -/
def State.withFetchWord (s : State) (nbits w : Nat) : State := { s with input := inputForWord nbits w }

end Sys2Proof.Machine
end

