-- ==== Sys2Proof/Machine/Scripts.lean ====
section
/-! DEFINITION. The lines of a script and the pseudo-instructions of R84, expanded to operations from a known state. -/

namespace Sys2Proof.Machine

/-- One line of a script (R83, R84). -/
inductive ScriptLine where
  /-- an operation -/
  | op (i : Instr)
  /-- `FEEDS b1 b2 .. bk` -/
  | feeds (bs : List Byte)
  /-- `ACCEPT*k` -/
  | acceptTimes (k : Nat)
  /-- `DRAIN` -/
  | drain
  /-- `LOOPBACK` -/
  | loopback
  deriving DecidableEq, Repr

/-- The operations one after the other, stopping at the first fault or refusal. -/
def runOps : List Instr → State → Host.Outcome State Fault Refusal
  | [], s => .next s
  | i :: is, s =>
    match exec i s with
    | .next t => runOps is t
    | .fault r => .fault r
    | .refused r => .refused r

/-- The wire bytes the encoder still owes the sink. -/
def Encoder.owed (e : Encoder) : List Byte := if e.ebusy then e.wire.drop e.ek.toNat else []

/-- The expansion of a line in a state (R84): DRAIN is one ACCEPT for each byte still owed, len(W) - ek of them; LOOPBACK
feeds each byte on offer and then accepts it. -/
def ScriptLine.expand (s : State) : ScriptLine → List Instr
  | .op i => [i]
  | .feeds bs => bs.map Instr.decFeed
  | .acceptTimes k => List.replicate k .sinkAccept
  | .drain => List.replicate s.enc.owed.length .sinkAccept
  | .loopback => s.enc.owed.flatMap (fun v => [.decFeed v, .sinkAccept])

/-- A script's operations when it runs from `s`: the expansion of DRAIN and LOOPBACK depends on the state each is reached in
(R84). None where a line before the last one stops the machine. -/
def expandScript : List ScriptLine → State → Option (List Instr)
  | [], _ => some []
  | l :: ls, s =>
    match runOps (l.expand s) s with
    | .next t => (expandScript ls t).map (l.expand s ++ ·)
    | .fault _ => none
    | .refused _ => none

end Sys2Proof.Machine
end

