-- ==== Sys2Proof/Machine/Assembler.lean ====
section
/-! DEFINITION. The script text of R83: one operation a line, `;` for comments, hex numbers, byte lists and ASCII strings. R83 gives
no grammar. The forms it does not list and the scripts of 95_test_vectors.md use are read as the records beside them say
(DEDUCED), and what neither fixes is the model's choice (DESIGN CHOICE); both in log 13, safe. -/

namespace Sys2Proof.Machine

/-- The words and signs of a line. -/
inductive Token where
  | word (cs : List Char)
  | str (cs : List Char)
  | comma
  | openList
  | closeList
  /-- `*` or `×` -/
  | star
  deriving DecidableEq, Repr

/-- Where in a line the reader stands. -/
inductive LexMode where
  | code
  | inString
  | inComment
  deriving DecidableEq, Repr

/-- The reader of a line: its mode, the characters of the word or string it is in (last first), the tokens so far (last
first). -/
structure Lexer where
  mode : LexMode
  cur : List Char
  toks : List Token
  deriving DecidableEq, Repr

/-- Ends the word the reader is in. -/
def Lexer.flush (l : Lexer) : Lexer :=
  match l.cur with
  | [] => l
  | _ :: _ => { l with cur := [], toks := .word l.cur.reverse :: l.toks }

/-- Ends the word and adds a sign. -/
def Lexer.sign (l : Lexer) (t : Token) : Lexer := { l.flush with toks := t :: l.flush.toks }

/-- The double quote. -/
def quoteChar : Char := Char.ofNat 34

/-- One character. -/
def Lexer.next (l : Lexer) (c : Char) : Lexer :=
  match l.mode with
  | .inComment => l
  | .inString =>
    if c = quoteChar then { mode := .code, cur := [], toks := .str l.cur.reverse :: l.toks } else { l with cur := c :: l.cur }
  | .code =>
    if c = quoteChar then { l.flush with mode := .inString }
    else if c = ';' then { l.flush with mode := .inComment }
    else if c = ' ' then l.flush
    else if c = ',' then l.sign .comma
    else if c = '[' then l.sign .openList
    else if c = ']' then l.sign .closeList
    else if c = '*' ∨ c = '×' then l.sign .star
    else { l with cur := c :: l.cur }

/-- The tokens of a line; none where a string is left open. -/
def tokens (line : List Char) : Option (List Token) :=
  let l := line.foldl Lexer.next { mode := .code, cur := [], toks := [] }
  match l.mode with
  | .inString => none
  | .code => some l.flush.toks.reverse
  | .inComment => some l.flush.toks.reverse

/-- The value of a hex digit. -/
def hexDigit (c : Char) : Option Nat :=
  let n := c.toNat
  if 48 ≤ n ∧ n ≤ 57 then some (n - 48)
  else if 65 ≤ n ∧ n ≤ 70 then some (n - 55)
  else if 97 ≤ n ∧ n ≤ 102 then some (n - 87)
  else none

/-- The value of digits in a base, digits below the base only. -/
def digitsValue (base : Nat) : Nat → List Char → Option Nat
  | acc, [] => some acc
  | acc, c :: cs =>
    match hexDigit c with
    | some d => if d < base then digitsValue base (acc * base + d) cs else none
    | none => none

/-- A byte: hex with `0x`, or bare two-digit hex (R83). -/
def byteOf : List Char → Option Byte
  | '0' :: 'x' :: c :: cs =>
    match digitsValue 16 0 (c :: cs) with
    | some v => if v < 256 then some (BitVec.ofNat 8 v) else none
    | none => none
  | [a, b] =>
    match digitsValue 16 0 [a, b] with
    | some v => some (BitVec.ofNat 8 v)
    | none => none
  | _ => none

/-- A repeat count, decimal. -/
def countOf : List Char → Option Nat
  | [] => none
  | c :: cs => digitsValue 10 0 (c :: cs)

/-- The bytes of an ASCII string (R83). -/
def asciiBytes : List Char → Option (List Byte)
  | [] => some []
  | c :: cs => if c.toNat < 128 then (asciiBytes cs).map (BitVec.ofNat 8 c.toNat :: ·) else none

/-- The bytes from `a` up to `e`, one apart; none where `e` is below `a`. -/
def byteRange (a e : Byte) : Option (List Byte) :=
  if a.toNat ≤ e.toNat then some ((List.range (e.toNat + 1 - a.toNat)).map (fun k => a + BitVec.ofNat 8 k)) else none

/-- The items of a byte list: a byte; `bb*k` or `bb × k`, k times bb (programs P6 and P5 of 95_test_vectors.md); `aa .. ee`, the
bytes from aa up to ee (E-10). A comma may stand before an item (E-17). DEDUCED, safe (log 13). -/
def byteItems : List Token → Option (List Byte)
  | [] => some []
  | .comma :: .word b :: ts => byteItems (.word b :: ts)
  | .word b :: .star :: .word k :: ts =>
    match byteOf b, countOf k, byteItems ts with
    | some v, some n, some rest => some (List.replicate n v ++ rest)
    | _, _, _ => none
  | .word a :: .word ['.', '.'] :: .word e :: ts =>
    match byteOf a, byteOf e, byteItems ts with
    | some v, some w, some rest => (byteRange v w).map (· ++ rest)
    | _, _, _ => none
  | .word b :: ts =>
    match byteOf b, byteItems ts with
    | some v, some rest => some (v :: rest)
    | _, _ => none
  | _ => none

/-- A byte list (R83): no comma stands before its first item. -/
def byteList : List Token → Option (List Byte)
  | .comma :: _ => none
  | ts => byteItems ts

/-- A byte list in brackets, after its opening bracket. -/
def bracketed (ts : List Token) : Option (List Byte) :=
  if ts.getLast? = some .closeList then byteList ts.dropLast else none

/-- The payload of ENC: a string or a byte list (R83). -/
def payloadOf : List Token → Option (List Byte)
  | [.str cs] => asciiBytes cs
  | .openList :: ts => bracketed ts
  | _ => none

/-- ENC.REQUEST with its payload count, which one byte must hold (R81). -/
def encLine (api : List Char) (ts : List Token) : Option ScriptLine :=
  match byteOf api, payloadOf ts with
  | some a, some p => if p.length < 256 then some (.op (.encRequest a (BitVec.ofNat 8 p.length) p)) else none
  | _, _ => none

/-- The line of an operation or pseudo-instruction without operands (R83, R84). -/
def bareLine (w : List Char) : Option ScriptLine :=
  if w = ['N', 'O', 'P'] then some (.op .nop)
  else if w = ['R', 'E', 'S', 'E', 'T'] then some (.op .reset)
  else if w = ['D', 'E', 'C', '.', 'C', 'L', 'E', 'A', 'R'] then some (.op .decClear)
  else if w = ['A', 'C', 'C', 'E', 'P', 'T'] then some (.op .sinkAccept)
  else if w = ['S', 'T', 'A', 'L', 'L'] then some (.op .sinkStall)
  else if w = ['F', 'A', 'I', 'L'] then some (.op .sinkFail)
  else if w = ['D', 'R', 'A', 'I', 'N'] then some .drain
  else if w = ['L', 'O', 'O', 'P', 'B', 'A', 'C', 'K'] then some .loopback
  else none

/-- One line of script text: no line for a blank or comment line, none where the text is no line of R83 or R84. -/
def lineOf : List Token → Option (List ScriptLine)
  | [] => some []
  | [.word w] => if w = ['F', 'E', 'E', 'D', 'S'] then some [.feeds []] else (bareLine w).map ([·])
  | [.word w, .star, .word k] => if w = ['A', 'C', 'C', 'E', 'P', 'T'] then (countOf k).map (fun n => [.acceptTimes n]) else none
  | .word w :: .word a :: ts =>
    if w = ['F', 'E', 'E', 'D', 'S'] then (byteList (.word a :: ts)).map (fun bs => [.feeds bs])
    else if w = ['F', 'E', 'E', 'D'] then (if ts = [] then (byteOf a).map (fun b => [.op (.decFeed b)]) else none)
    else if w = ['E', 'N', 'C'] then
      match ts with
      | .comma :: us => (encLine a us).map ([·])
      | _ => none
    else none
  | _ => none

/-- The lines of a text. -/
def splitLines : List Char → List (List Char)
  | [] => [[]]
  | c :: cs =>
    if c = '\n' then [] :: splitLines cs
    else
      match splitLines cs with
      | [] => [[c]]
      | l :: ls => (c :: l) :: ls

/-- The script of a text, line by line; none where a line is none. -/
def parseLines : List (List Char) → Option (List ScriptLine)
  | [] => some []
  | l :: ls =>
    match (tokens l).bind lineOf, parseLines ls with
    | some a, some b => some (a ++ b)
    | _, _ => none

/-- The script a text spells (R83). -/
def parseScript (text : List Char) : Option (List ScriptLine) := parseLines (splitLines text)

/-- The records of a text that runs from `s` (R81, R83, R84). -/
def assemble (text : List Char) (s : State) : Option (List Byte) :=
  match parseScript text with
  | some ls => (expandScript ls s).map encodeScript
  | none => none

end Sys2Proof.Machine
end

