-- ==== Sys2Proof/Machine/RunningSum.lean ====
section
/-! DEFINITION. The equivalent encoder of R166, which stores no wire sequence: a logical index, a half flag and a running sum. -/

namespace Sys2Proof.Machine

/-- R166's state, with the request it works on. -/
structure RunningSum where
  api : Byte
  p : List Byte
  i : Nat
  half : Bool
  s : Byte
  deriving DecidableEq, Repr

/-- The state at the request. -/
def RunningSum.start (api : Byte) (p : List Byte) : RunningSum := { api := api, p := p, i := 0, half := false, s := 0x00 }

/-- F[i]: the bytes before the checksum from the request, the checksum from the running sum (R166). -/
def RunningSum.logical (r : RunningSum) : Byte :=
  if r.i = r.p.length + 17 then 0xFF - r.s
  else ([startByte, 0x00, lenLo r.p.length] ++ frameData r.api r.p).getD r.i 0x00

/-- `offered(i, half)` of R166. -/
def RunningSum.offered (r : RunningSum) : Byte :=
  if r.i = 0 then startByte
  else if isReserved r.logical then (if r.half then r.logical ^^^ escMask else escMarker)
  else r.logical

/-- `on ACCEPT` of R166. -/
def RunningSum.accept (r : RunningSum) : RunningSum :=
  if 1 ≤ r.i ∧ isReserved r.logical = true ∧ r.half = false then { r with half := true }
  else
    { r with
      half := false
      s := if 3 ≤ r.i ∧ r.i ≤ r.p.length + 16 then r.s + r.logical else r.s
      i := r.i + 1 }

/-- The state after `k` ACCEPT steps. -/
def RunningSum.acceptTimes : Nat → RunningSum → RunningSum
  | 0, r => r
  | k + 1, r => RunningSum.acceptTimes k r.accept

end Sys2Proof.Machine
end

