-- ==== Sys2Proof/Safety.lean ====
section
/-! DEFINITION. What a sound state of the block is: the invariants 10_state.md, 20_memory.md and 60_exceptions.md state of its
registers and arrays. Every state a run from reset reaches is one, and the two faults of the model cannot come from one. -/

namespace Sys2Proof.Machine

/-- The count of R28: message bytes taken once `pos` logical bytes have been taken. -/
def Decoder.expectedFill (c : Config) (d : Decoder) : Nat :=
  if d.api = rxApiId ∧ 4 ≤ d.pos.toNat then min d.pos.toNat (d.dlen.toNat + 3) - c.receivedDataIdx else 0

/-- The decoder's invariants. -/
structure Decoder.Safe (c : Config) (d : Decoder) : Prop where
  /-- R23: 0 <= pos <= M + 1 -/
  posBound : d.pos.toNat ≤ c.maxFrameSize + 1
  /-- R30: an error kind is held in Failed and only there -/
  errKind : d.status = .failed ↔ d.err ≠ .noError
  /-- R27 -/
  escOpen : d.esc = true → 0 < d.pos.toNat ∧ d.status = .inProgress
  /-- R28 while InProgress or Complete. For a Failed frame the same count, the message bytes kept (R112; vector D-14 of
  95_test_vectors.md): the model's reading where R28 says "Otherwise mfill == 0". DEDUCED, unsafe (log 12) -/
  fill : d.mfill.toNat = d.expectedFill c
  /-- R34, R107: while no start byte has been taken the decoder is the zero value -/
  startZero : d.status = .inProgress → d.pos = 0 → d = Decoder.zero
  /-- R114: a frame in progress has not gone past its checksum index; declared length 0 never reaches one (R118) -/
  inFrame : d.status = .inProgress → 4 ≤ d.pos.toNat → d.dlen ≠ 0 → d.pos.toNat ≤ d.dlen.toNat + 3
  /-- R114, R115 -/
  completePos : d.status = .complete → d.pos.toNat = d.dlen.toNat + 4 ∧ low8 d.ck = 0xFF
  /-- R201, record kept -/
  checksumPos : d.err = .checksumFailure → d.pos.toNat = d.dlen.toNat + 4 ∧ low8 d.ck ≠ 0xFF
  /-- R201, record kept -/
  tooLargePos : d.err = .frameTooLarge → d.pos.toNat = c.maxFrameSize + 1
  bufWf : d.buf.wf = true
  msgWf : d.msg.wf = true
  /-- R60: nothing is held at or above pos or the capacity -/
  bufIn : d.buf.within (min d.pos.toNat c.maxFrameSize) = true
  /-- R51: the bytes from mfill upward are 0x00 -/
  msgIn : d.msg.within d.mfill.toNat = true

/-- The encoder's invariants. -/
structure Encoder.Safe (e : Encoder) : Prop where
  /-- R32 -/
  ekBusy : e.ebusy = true → e.ek.toNat < e.wire.length
  /-- R32: ek never passes len(W) -/
  ekBound : e.ek.toNat ≤ e.wire.length
  /-- R157: only a request of at most 241 bytes is latched -/
  enBound : e.en.toNat ≤ txpCap
  /-- R33: None while a frame is in flight -/
  resBusy : e.ebusy = true → e.eres = .none
  txpWf : e.txp.wf = true
  /-- R52 -/
  txpIn : e.txp.within txpCap = true

/-- A sound state of a block with allowed parameters. -/
structure State.Safe (s : State) : Prop where
  cfg : s.cfg.wf = true
  dec : s.dec.Safe s.cfg
  enc : s.enc.Safe

/-- The sum of R26: while a frame is in progress and every byte of it was stored, ck is the sum of the stored bytes from the
apiId on, modulo 2^16. -/
def Decoder.SumOfStored (c : Config) (d : Decoder) : Prop :=
  d.status = .inProgress → d.pos.toNat ≤ c.maxFrameSize →
    d.ck = ((d.buf.firstBytes d.pos.toNat).drop frameTypeIdx).foldl (fun a b => a + zext16 b) 0

/-- The decoder is in a frame and the raw byte delivers the logical byte `b`: no marker (R102), no abort (R104), and `b` as R103
forms it. -/
def Decoder.Delivers (c : Config) (d : Decoder) (raw b : Byte) : Prop :=
  d.status = .inProgress ∧ 0 < d.pos.toNat ∧ raw ≠ escMarker ∧ guardByte c raw b ≠ startByte ∧
    b = (if d.esc then raw ^^^ escMask else raw)

/-- The outputs of a step whose only output is a decoder event (R85, R116). -/
def eventOnly (e : Event) : StepOutputs := { ev := some e, reqTaken := none, sinkTook := none }

/-- The decoder after the bytes of a list, one DEC.FEED each, and the event of each, in order. -/
def Decoder.feedAll (c : Config) : Decoder → List Byte → Decoder × List Event
  | d, [] => (d, [])
  | d, raw :: bs =>
    let r := d.feed c raw
    let q := Decoder.feedAll c r.1 bs
    (q.1, r.2 :: q.2)

/-- R117: wire bytes that carry logical bytes (all after the start delimiter), each as Esc(v) or as the single raw byte v other
than 7E and 7D. -/
inductive Carried : List Byte → List Byte → Prop where
  | nil : Carried [] []
  | cons (v : Byte) (ws vs bs : List Byte) (h : ws = escByte v ∨ (ws = [v] ∧ v ≠ startByte ∧ v ≠ escMarker))
      (t : Carried vs bs) : Carried (v :: vs) (ws ++ bs)

/-- `k` SINK.ACCEPT steps: the bytes the sink took and the state after them. None where a step stops or the sink takes
nothing. -/
def acceptStream : Nat → State → Option (List Byte × State)
  | 0, s => some ([], s)
  | k + 1, s =>
    match exec .sinkAccept s with
    | .next t =>
      match t.out.sinkTook, acceptStream k t with
      | some v, some (vs, u) => some (v :: vs, u)
      | _, _ => none
    | .fault _ => none
    | .refused _ => none

end Sys2Proof.Machine

namespace Sys2Proof

/-- The instructions by which the decoder takes wire bytes: DEC.FEED, the wire rows and the dispatch cases. -/
def Instr.takesByte : Instr → Bool
  | .nop => false
  | .reset => false
  | .decClear => false
  | .decFeed _ => true
  | .encRequest _ _ _ => false
  | .sinkAccept => false
  | .sinkStall => false
  | .sinkFail => false
  | .reserved08 _ => false
  | .reserved10 _ => false
  | .reserved20 _ => false
  | .reserved40 _ => false
  | .reserved80 _ => false
  | .wireSof => true
  | .wireEsc => true
  | .wireXon => true
  | .wireXoff => true
  | .wireData _ => true
  | .wireEscpair _ => true
  | .decSyncHit => true
  | .decSyncMiss _ => true
  | .decEsc => true
  | .decAbort => true
  | .decLenhi _ => true
  | .decLenlo _ => true
  | .decApi _ => true
  | .decToolarge _ => true
  | .decData _ => true
  | .decMsg _ => true
  | .decFinalOk _ => true
  | .decFinalBad _ => true

/-- The decoder's operations (R80, R213). -/
def Instr.isDecoderOp (i : Instr) : Bool := i.takesByte || i == .decClear

/-- The encoder's operations (R80, R213). -/
def Instr.isEncoderOp : Instr → Bool
  | .nop => false
  | .reset => false
  | .decClear => false
  | .decFeed _ => false
  | .encRequest _ _ _ => true
  | .sinkAccept => true
  | .sinkStall => true
  | .sinkFail => true
  | .reserved08 _ => false
  | .reserved10 _ => false
  | .reserved20 _ => false
  | .reserved40 _ => false
  | .reserved80 _ => false
  | .wireSof => false
  | .wireEsc => false
  | .wireXon => false
  | .wireXoff => false
  | .wireData _ => false
  | .wireEscpair _ => false
  | .decSyncHit => false
  | .decSyncMiss _ => false
  | .decEsc => false
  | .decAbort => false
  | .decLenhi _ => false
  | .decLenlo _ => false
  | .decApi _ => false
  | .decToolarge _ => false
  | .decData _ => false
  | .decMsg _ => false
  | .decFinalOk _ => false
  | .decFinalBad _ => false

end Sys2Proof
end

