-- ==== Sys2Proof/Certificates/Slice0/Obligations.lean ====
section
/-! DEFINITION. The statements for the provers. -/

open Sys2Proof
open Sys2Proof.Machine

-- ==== Encodings ====

/-- Decoding the bytes of a well-formed instruction, in its format, gives the instruction back and leaves what follows. A lone
WIRE.ESC must be the last byte, since 7D and a further byte are the pair WIRE.ESCPAIR (R74). -/
def Obligations.DecodeOfEncode : Prop :=
  ∀ (i : Instr) (rest : List Byte), i.wf = true → (i = .wireEsc → rest = []) →
    decode i.format (encode i ++ rest) = .ok i rest

/-- The other direction: bytes that decode are the encoding of what they decode to, which is well-formed and of the format. -/
def Obligations.EncodeOfDecode : Prop :=
  ∀ (f : Format) (bs : List Byte) (i : Instr) (rest : List Byte), decode f bs = .ok i rest →
    encode i ++ rest = bs ∧ i.wf = true ∧ i.format = f

/-- A script is accepted exactly when it is the records of well-formed operations, and then they are those operations. -/
def Obligations.ScriptAcceptedIffRecords : Prop :=
  ∀ (bs : List Byte) (ops : List Instr),
    decodeScript bs = .ok ops ↔ (bs = encodeScript ops ∧ ∀ i ∈ ops, i.wf = true ∧ i.isOperation = true)

/-- R82: a script with a reserved op byte, or cut short inside a record, after any number of good records is refused as a
whole: its first step is the refusal, before RESET too (of two refusals that hold at once the order is the model's, log 16). -/
def Obligations.BadScriptIsRefusedWhole : Prop :=
  ∀ (s : State) (ops : List Instr) (tail : List Byte),
    s.cfg.wf = true → (∀ i ∈ ops, i.wf = true ∧ i.isOperation = true) → s.input = .script (encodeScript ops ++ tail) →
      (∀ (op : Byte) (rest : List Byte), tail = op :: rest → 0x08 ≤ op.toNat → step s = .refused .reservedRecord) ∧
      (∀ (i : Instr) (more : List Byte), i.wf = true → i.isOperation = true → tail ++ more = encode i → tail ≠ [] → more ≠ [] →
        step s = .refused .cutShortRecord)

/-- R81, R72, R73: record and wire bytes written out from the spec. -/
def Obligations.WordsDecodeAsTheTableSays : Prop :=
  decodeRecord [0x00] = .ok .nop [] ∧ decodeRecord [0x01] = .ok .reset [] ∧ decodeRecord [0x02] = .ok .decClear [] ∧
  decodeRecord [0x03, 0x7E] = .ok (.decFeed 0x7E) [] ∧
  decodeRecord [0x04, 0x10, 0x02, 0x6F, 0x6E, 0x05] = .ok (.encRequest 0x10 0x02 [0x6F, 0x6E]) [0x05] ∧
  decodeRecord [0x05] = .ok .sinkAccept [] ∧ decodeRecord [0x06] = .ok .sinkStall [] ∧ decodeRecord [0x07] = .ok .sinkFail [] ∧
  decodeRecord [0x0F] = .ok (.reserved08 7) [] ∧ decodeRecord [0xFF] = .ok (.reserved80 127) [] ∧
  decodeWire [0x7E, 0x00] = .ok .wireSof [0x00] ∧ decodeWire [0x7D, 0x5E] = .ok (.wireEscpair 0x5E) [] ∧
  decodeWire [0x11] = .ok .wireXon [] ∧ decodeWire [0x13] = .ok .wireXoff [] ∧ decodeWire [0x41] = .ok (.wireData 0x41) []

-- ==== The step ====

/-- When the whole script is good and its first record decodes to `i`, the step is `i` on the state with the record taken. -/
def Obligations.StepRunsDecodedRecord : Prop :=
  ∀ (s : State) (bs rest : List Byte) (ops : List Instr) (i : Instr),
    s.cfg.wf = true → s.resetDone = true → s.input = .script bs → decodeScript bs = .ok ops → decodeRecord bs = .ok i rest →
      step s = exec i { s with input := .script rest }

/-- The model's own ways of driving the block, all its own choice: the input forms `wire`, `rx` and `cycles` are log 3, a pair
WIRE.ESCPAIR run in one step is log 11, the cycle's two operations are log 8, the empty input is log 7. At the byte source the
step runs the wire row the bytes decode to (R73, R74), or, where bytes are read by dispatch case, the row the decoder's state
selects; a signal-level cycle is `cycle`; with nothing left to do the state is held. -/
def Obligations.StepRunsWireBytesAndCases : Prop :=
  ∀ (s : State), s.cfg.wf = true → s.resetDone = true →
    (∀ (bs rest : List Byte) (i : Instr), s.input = .wire bs → decodeWire bs = .ok i rest →
      step s = exec i { s with input := .wire rest }) ∧
    (∀ (raw : Byte) (rest : List Byte), s.input = .rx (raw :: rest) →
      step s = exec ((decCase s.cfg s.dec raw).instr (caseByte (decCase s.cfg s.dec raw) s.dec raw)) { s with input := .rx rest }) ∧
    (∀ (g : Signals) (rest : List Signals), s.input = .cycles (g :: rest) →
      step s = cycle g { s with input := .cycles rest }) ∧
    ((s.input = .script [] ∨ s.input = .wire [] ∨ s.input = .rx [] ∨ s.input = .cycles []) →
      step s = .next { s with out := { ev := none, reqTaken := none, sinkTook := none } })

/-- R203, R232, R233: no step of an ill-formed configuration; before the first RESET no step but RESET's, from a good script,
wire bytes, bytes by dispatch case, cycles, or with nothing left to do. That the refusal of what precedes RESET is a refused
step is the model's reading (log 5), and so is the order of two refusals that hold at once: the configuration first (log 16). -/
def Obligations.StepRefusesAtTheModelBoundary : Prop :=
  (∀ s : State, s.cfg.wf = false → step s = .refused .illFormedConfig) ∧
  (∀ s : State, s.cfg.wf = true → s.resetDone = false →
    (∀ (bs rest : List Byte) (ops : List Instr) (i : Instr),
      s.input = .script bs → decodeScript bs = .ok ops → decodeRecord bs = .ok i rest →
        (i ≠ .reset → step s = .refused .beforeReset) ∧
        (i = .reset → step s = exec .reset { s with input := .script rest })) ∧
    (∀ bs : List Byte, s.input = .wire bs → step s = .refused .beforeReset) ∧
    (∀ bs : List Byte, s.input = .rx bs → step s = .refused .beforeReset) ∧
    (∀ (g : Signals) (rest : List Signals), s.input = .cycles (g :: rest) →
      (g.rst = false → step s = .refused .beforeReset) ∧
      (g.rst = true → step s = exec .reset { s with input := .cycles rest })) ∧
    ((s.input = .script [] ∨ s.input = .cycles []) → step s = .refused .beforeReset))

-- ==== NOP, RESET, DEC.CLEAR, RESERVED ====

/-- R82: NOP changes no state and has no outputs. -/
def Obligations.NopChangesNothing : Prop :=
  ∀ s : State, exec .nop s = .next { s with out := { ev := none, reqTaken := none, sinkTook := none } }

/-- R230, R34, R35: RESET writes every register and array and gives no event; a cycle with rst does the same whatever else it
carries. The parameters and what the host does next stay. -/
def Obligations.ResetWritesEveryRegister : Prop :=
  encode .reset = [0x01] ∧ (∀ (s : State) (g : Signals), g.rst = true → cycle g s = exec .reset s) ∧
  ∀ s : State, exec .reset s = .next
    { cfg := s.cfg
      resetDone := true
      dec := { pos := 0, dlen := 0, api := 0, ck := 0, esc := false, mfill := 0, status := .inProgress, err := .noError,
               buf := [], msg := [] }
      enc := { ebusy := false, ek := 0, eapi := 0, en := 0, eres := .none, txp := [] }
      input := s.input
      out := { ev := none, reqTaken := none, sinkTook := none } }

/-- R231: every observable after RESET. -/
def Obligations.ResetObservables : Prop :=
  ∀ (s t : State) (idx : Half), exec .reset s = .next t →
    t.decStatus = 0x00 ∧ t.dec.phase = .waitingStart ∧ t.decPos = 0 ∧ t.decLen = 0 ∧ t.decApi = 0 ∧ t.decCk = 0 ∧
    t.decMsgLen = 0 ∧ (∀ i : Half, t.decMsg i = 0x00) ∧ t.encStatus = 0x00 ∧ t.encCount = 0 ∧ t.encTxData = 0x00 ∧
    (t.outputPorts idx).txValid = false ∧ (t.outputPorts idx).txReqReady = true ∧ (t.outputPorts idx).rxReady = true ∧
    (∀ i : Nat, t.dec.buf.read i = 0x00 ∧ t.dec.msg.read i = 0x00 ∧ t.enc.txp.read i = 0x00)

/-- R120: DEC.CLEAR zeroes the decoder, gives no event and leaves the encoder. -/
def Obligations.ClearZeroesTheDecoder : Prop :=
  (∀ s : State, exec .decClear s = .next
    { s with
      dec := { pos := 0, dlen := 0, api := 0, ck := 0, esc := false, mfill := 0, status := .inProgress, err := .noError,
               buf := [], msg := [] }
      out := { ev := none, reqTaken := none, sinkTook := none } }) ∧
  encode .decClear = [0x02] ∧ (∀ g : Signals, g.decClear = true → g.decoderOp = .decClear)

/-- R82, R203: a reserved record has no step. -/
def Obligations.ReservedRecordsAreRefused : Prop :=
  ∀ (op : Byte) (rest : List Byte), 0x08 ≤ op.toNat →
    ∃ i, decodeRecord (op :: rest) = .ok i rest ∧ encode i = [op] ∧ i.isOperation = false ∧
      ∀ s : State, exec i s = .refused .reservedRecord

-- ==== DEC.FEED ====

/-- R101: from a terminal status every raw byte meets the zero decoder: a start byte begins a frame, any other is ignored. -/
def Obligations.FeedAfterTerminalStatus : Prop :=
  ∀ (s : State) (raw : Byte), s.cfg.wf = true → s.dec.status ≠ .inProgress →
    (raw ≠ startByte → exec (.decFeed raw) s = .next { s with dec := Decoder.zero, out := eventOnly .needMore }) ∧
    (raw = startByte → exec (.decFeed raw) s = .next
      { s with dec := { Decoder.zero with pos := 1, buf := [(0, startByte)] }, out := eventOnly .needMore })

/-- R102: at pos > 0 a raw 7D arms esc and changes nothing else, whatever esc was; DEC.ESC and WIRE.ESC do the same. -/
def Obligations.EscapeMarkerArmsEsc : Prop :=
  ∀ (s : State) (i : Instr), s.dec.status = .inProgress → 0 < s.dec.pos.toNat →
    (i = .decFeed escMarker ∨ i = .wireEsc ∨ i = .decEsc) →
      exec i s = .next { s with dec := { s.dec with esc := true }, out := eventOnly .needMore }

/-- R104: under RAW and DISCARD a raw 7E at pos > 0 fails the frame, pending escape or not; only status, err and the consumed
escape change. -/
def Obligations.RawStartAbortsUnderDiscard : Prop :=
  ∀ (s : State) (i : Instr), s.cfg.startGuard = .raw → s.cfg.abortPolicy = .discard → s.dec.status = .inProgress →
    0 < s.dec.pos.toNat → (i = .decFeed startByte ∨ i = .wireSof ∨ i = .decAbort) →
      exec i s = .next { s with
        dec := { s.dec with esc := false, status := .failed, err := .unexpectedStart }
        out := eventOnly (.error .unexpectedStart) }

/-- R105: under RAW and SEED the same byte begins the next frame at once. -/
def Obligations.RawStartSeedsUnderSeed : Prop :=
  ∀ (s : State) (i : Instr), s.cfg.wf = true → s.cfg.startGuard = .raw → s.cfg.abortPolicy = .seed → s.dec.status = .inProgress →
    0 < s.dec.pos.toNat → (i = .decFeed startByte ∨ i = .wireSof ∨ i = .decAbort) →
      exec i s = .next { s with
        dec := { Decoder.zero with pos := 1, buf := [(0, startByte)] }
        out := eventOnly (.error .unexpectedStart) }

/-- R107: at pos 0 a raw 7E is stored and counted, any other byte leaves the decoder as it was. -/
def Obligations.SynchronisationAtPositionZero : Prop :=
  ∀ (s : State), s.cfg.wf = true → s.dec.status = .inProgress → s.dec.pos = 0 → s.dec.esc = false →
    (∀ i : Instr, (i = .decFeed startByte ∨ i = .wireSof ∨ i = .decSyncHit) → exec i s = .next
      { s with dec := { s.dec with pos := 1, buf := s.dec.buf.write 0 startByte }, out := eventOnly .needMore }) ∧
    (∀ (raw : Byte) (i : Instr), raw ≠ startByte →
      (i = .decFeed raw ∨ i = .wireData raw ∨ i = .decSyncMiss raw ∨ (raw = escMarker ∧ i = .wireEsc) ∨
        (raw = xonByte ∧ i = .wireXon) ∨ (raw = xoffByte ∧ i = .wireXoff)) →
      exec i s = .next { s with out := eventOnly .needMore })

/-- R108, R109, R110: the three header bytes after the start delimiter; a header byte may arrive escaped. -/
def Obligations.HeaderBytes : Prop :=
  ∀ (s : State) (raw b : Byte), s.cfg.wf = true → s.dec.Delivers s.cfg raw b →
    (s.dec.pos = 1 → ∀ i : Instr, (i = .decFeed raw ∨ i = .decLenhi b) → exec i s = .next
      { s with dec := { s.dec with esc := false, pos := 2, buf := s.dec.buf.write 1 b }, out := eventOnly .needMore }) ∧
    (s.dec.pos = 2 → ∀ i : Instr, (i = .decFeed raw ∨ i = .decLenlo b) → exec i s = .next
      { s with dec := { s.dec with esc := false, dlen := b, pos := 3, buf := s.dec.buf.write 2 b }, out := eventOnly .needMore }) ∧
    (s.dec.pos = 3 → ∀ i : Instr, (i = .decFeed raw ∨ i = .decApi b) → exec i s = .next
      { s with
        dec := { s.dec with esc := false, api := b, ck := s.dec.ck + zext16 b, pos := 4, buf := s.dec.buf.write 3 b }
        out := eventOnly .needMore })

/-- R113: above M the byte is summed, not stored, pos stays, and the frame fails. -/
def Obligations.FrameTooLargeAboveM : Prop :=
  ∀ (s : State) (raw b : Byte) (i : Instr), s.dec.Delivers s.cfg raw b → 4 ≤ s.dec.pos.toNat →
    s.cfg.maxFrameSize < s.dec.pos.toNat → (i = .decFeed raw ∨ i = .decToolarge b) →
      exec i s = .next { s with
        dec := { s.dec with esc := false, ck := s.dec.ck + zext16 b, status := .failed, err := .frameTooLarge }
        out := eventOnly (.error .frameTooLarge) }

/-- R112: a byte of the message region of a receive packet goes to Msg[mfill] as well. -/
def Obligations.MessageByteIsCopied : Prop :=
  ∀ (s : State) (raw b : Byte) (i : Instr), s.dec.Delivers s.cfg raw b → 4 ≤ s.dec.pos.toNat →
    s.dec.pos.toNat ≤ s.cfg.maxFrameSize → s.dec.api = 0x90 → s.cfg.receivedDataIdx ≤ s.dec.pos.toNat →
    s.dec.pos.toNat < s.dec.dlen.toNat + 3 → s.dec.mfill.toNat < s.cfg.msgCap → (i = .decFeed raw ∨ i = .decMsg b) →
      exec i s = .next { s with
        dec := { s.dec with
          esc := false
          ck := s.dec.ck + zext16 b
          msg := s.dec.msg.write s.dec.mfill.toNat b
          mfill := s.dec.mfill + 1
          buf := s.dec.bufStored s.cfg b
          pos := s.dec.pos + 1 }
        out := eventOnly .needMore }

/-- R111, R106, R115: any other frame byte before the checksum is summed, stored below M and counted. -/
def Obligations.DataByteIsSummedAndStored : Prop :=
  ∀ (s : State) (raw b : Byte) (i : Instr), s.dec.Delivers s.cfg raw b → 4 ≤ s.dec.pos.toNat →
    s.dec.pos.toNat ≤ s.cfg.maxFrameSize → s.dec.pos.toNat ≠ s.dec.dlen.toNat + 3 →
    (s.dec.api ≠ 0x90 ∨ s.dec.pos.toNat < s.cfg.receivedDataIdx ∨ s.dec.dlen.toNat + 3 < s.dec.pos.toNat) →
    (i = .decFeed raw ∨ i = .decData b ∨ i = .wireData raw ∨ (raw = xonByte ∧ i = .wireXon) ∨ (raw = xoffByte ∧ i = .wireXoff)) →
      exec i s = .next { s with
        dec := { s.dec with
          esc := false, ck := s.dec.ck + zext16 b, buf := s.dec.bufStored s.cfg b, pos := s.dec.pos + 1 }
        out := eventOnly .needMore }

/-- R114, R115: the byte at index dlen + 3 finalises the frame; the low 8 bits of the sum decide, and S6 still runs. -/
def Obligations.ChecksumByteFinalises : Prop :=
  ∀ (s : State) (raw b : Byte), s.dec.Delivers s.cfg raw b → 4 ≤ s.dec.pos.toNat → s.dec.pos.toNat ≤ s.cfg.maxFrameSize →
    s.dec.pos.toNat = s.dec.dlen.toNat + 3 →
      (low8 (s.dec.ck + zext16 b) = 0xFF → ∀ i : Instr, (i = .decFeed raw ∨ i = .decFinalOk b) → exec i s = .next { s with
        dec := { s.dec with
          esc := false, ck := s.dec.ck + zext16 b, status := .complete, err := .noError
          buf := s.dec.bufStored s.cfg b, pos := s.dec.pos + 1 }
        out := eventOnly (.frameReady s.dec.api (s.dec.msg.firstBytes s.dec.mfill.toNat)) }) ∧
      (low8 (s.dec.ck + zext16 b) ≠ 0xFF → ∀ i : Instr, (i = .decFeed raw ∨ i = .decFinalBad b) → exec i s = .next { s with
        dec := { s.dec with
          esc := false, ck := s.dec.ck + zext16 b, status := .failed, err := .checksumFailure
          buf := s.dec.bufStored s.cfg b, pos := s.dec.pos + 1 }
        out := eventOnly (.error .checksumFailure) })

/-- R103, R72: an escape pair takes exactly the logical byte x xor 20, once, as data, whatever escape was pending. That
the pair is one step is the model's choice (log 11). -/
def Obligations.EscapePairDeliversItsByte : Prop :=
  ∀ (s : State) (v : Byte), s.cfg.startGuard = .raw → s.dec.status = .inProgress → 0 < s.dec.pos.toNat →
    s.dec.mfill.toNat < s.cfg.msgCap → isReserved v = true →
      escByte v = [0x7D, v ^^^ 0x20] ∧
      exec (.wireEscpair (v ^^^ 0x20)) s =
        .next { s with
          dec := (({ s.dec with esc := false } : Decoder).takeLogical s.cfg v).1
          out := eventOnly (({ s.dec with esc := false } : Decoder).takeLogical s.cfg v).2 }

/-- R100, R116: from a sound state DEC.FEED and every row that feeds complete, with an event. For two kinds of row that is the
model's choice: a dispatch-case row in a state that selects another case is the feed of the byte that carries its byte (log 9),
and WIRE.ESCPAIR is two feeds in one step with the second one's event (log 11). -/
def Obligations.ByteInstructionsComplete : Prop :=
  ∀ (s : State) (i : Instr), s.Safe → i.takesByte = true →
    ∃ t e, exec i s = .next t ∧ t.out = eventOnly e ∧ t.enc = s.enc ∧ t.cfg = s.cfg ∧ t.input = s.input ∧
      t.resetDone = s.resetDone

/-- R84, R73: taking a wire byte is DEC.FEED of it. The clause of WIRE.ESCPAIR, two feeds in one step with the second one's event
standing as the output, is the model's choice (log 11). -/
def Obligations.WireRowsAreFeeds : Prop :=
  ∀ s : State, exec .wireSof s = exec (.decFeed 0x7E) s ∧ exec .wireEsc s = exec (.decFeed 0x7D) s ∧
    exec .wireXon s = exec (.decFeed 0x11) s ∧ exec .wireXoff s = exec (.decFeed 0x13) s ∧
    (∀ d : Byte, exec (.wireData d) s = exec (.decFeed d) s) ∧
    (∀ x : Byte,
      ∃ t, exec (.decFeed 0x7D) s = .next t ∧ t.out = eventOnly .needMore ∧
        exec (.wireEscpair x) s = exec (.decFeed x) t)

/-- The table's dec-case rows: DEC.FEED does exactly what the one row its state selects does. -/
def Obligations.FeedIsItsDispatchCase : Prop :=
  ∀ (s : State) (raw : Byte),
    exec (.decFeed raw) s = exec ((decCase s.cfg s.dec raw).instr (caseByte (decCase s.cfg s.dec raw) s.dec raw)) s

/-- R116: the event of a feed and the status it leaves. -/
def Obligations.EventDecidesStatus : Prop :=
  ∀ (s t : State) (raw : Byte), exec (.decFeed raw) s = .next t →
    ∃ e, t.out = eventOnly e ∧
      (e = .needMore → t.dec.status = .inProgress) ∧
      (∀ a m, e = .frameReady a m → t.dec.status = .complete) ∧
      (∀ k, e = .error k → k ≠ .noError ∧
        ((s.cfg.abortPolicy = .discard ∨ k ≠ .unexpectedStart) → t.dec.status = .failed ∧ t.dec.err = k))

/-- R58 under DISCARD: the two feeds that leave the decoder unchanged, and no other does. (Under SEED an aborting 7E at pos 1 may
rebuild the very state it meets, R105; it still writes it.) -/
def Obligations.FeedChangesTheDecoderButInTwoCases : Prop :=
  ∀ (s t : State) (raw : Byte), s.Safe → s.cfg.startGuard = .raw → s.cfg.abortPolicy = .discard →
    exec (.decFeed raw) s = .next t →
      (t.dec = s.dec ↔ (s.dec.status = .inProgress ∧
        ((s.dec.pos = 0 ∧ raw ≠ startByte) ∨ (0 < s.dec.pos.toNat ∧ raw = escMarker ∧ s.dec.esc = true))))

/-- R23 to R30, R60, R115: what a feed inside a frame leaves alone, register by register and byte by byte. -/
def Obligations.FeedFrame : Prop :=
  ∀ (s t : State) (raw b : Byte), s.dec.Delivers s.cfg raw b → s.dec.buf.wf = true → s.dec.msg.wf = true →
    exec (.decFeed raw) s = .next t →
      (∀ k : Nat, (k ≠ s.dec.pos.toNat ∨ s.cfg.maxFrameSize ≤ k) → t.dec.buf.read k = s.dec.buf.read k) ∧
      (∀ k : Nat, k ≠ s.dec.mfill.toNat → t.dec.msg.read k = s.dec.msg.read k) ∧
      (s.dec.pos.toNat ≠ 2 → t.dec.dlen = s.dec.dlen) ∧ (s.dec.pos.toNat ≠ 3 → t.dec.api = s.dec.api) ∧
      t.dec.ck = (if 3 ≤ s.dec.pos.toNat then s.dec.ck + zext16 b else s.dec.ck) ∧ t.dec.esc = false ∧
      (s.dec.api ≠ 0x90 → t.dec.mfill = s.dec.mfill ∧ t.dec.msg = s.dec.msg) ∧
      t.enc = s.enc ∧ t.cfg = s.cfg ∧ t.input = s.input ∧ t.resetDone = s.resetDone

-- ==== The encoder ====

/-- R156: a request while busy, when tx_req_ready is 0, is not taken and changes nothing. -/
def Obligations.RequestWhileBusyIsNotTaken : Prop :=
  ∀ (s : State) (api n : Byte) (p : List Byte), s.enc.ebusy = true →
    encode (.encRequest api n p) = 0x04 :: api :: n :: p ∧ (∀ idx : Half, (s.outputPorts idx).txReqReady = false) ∧
    exec (.encRequest api n p) s = .next { s with out := { ev := none, reqTaken := some false, sinkTook := none } }

/-- R157: a request of at most 241 bytes while idle is latched; the first byte on offer is the start delimiter, and no byte is
sent in the step. -/
def Obligations.RequestIsLatched : Prop :=
  ∀ (s : State) (api n : Byte) (p : List Byte), s.enc.ebusy = false → n.toNat ≤ 241 → p.length = n.toNat →
    s.enc.txp.wf = true →
      ∃ t, exec (.encRequest api n p) s = .next t ∧ t.enc.eapi = api ∧ t.enc.en = n ∧ t.enc.ek = 0 ∧ t.enc.ebusy = true ∧
        t.enc.eres = .none ∧ (∀ i : Nat, i < n.toNat → some (t.enc.txp.read i) = p[i]?) ∧
        (∀ i : Nat, n.toNat ≤ i → t.enc.txp.read i = s.enc.txp.read i) ∧ t.enc.wire = encodeWire api p ∧
        t.encTxData = 0x7E ∧ t.out = { ev := none, reqTaken := some true, sinkTook := none } ∧
        t.dec = s.dec ∧ t.cfg = s.cfg ∧ t.input = s.input ∧ t.resetDone = s.resetDone

/-- R158: a longer request while idle is taken, reports LengthError and changes nothing else. -/
def Obligations.LongRequestIsLengthError : Prop :=
  ∀ (s : State) (api n : Byte) (p : List Byte), s.enc.ebusy = false → 241 < n.toNat →
    exec (.encRequest api n p) s = .next { s with
      enc := { s.enc with eres := .lengthError }
      out := { ev := none, reqTaken := some true, sinkTook := none } }

/-- R160: the sink takes W[ek]; the last byte ends the frame with Ok, and ek keeps its value until the next taken request
(or RESET). -/
def Obligations.AcceptTakesTheOfferedByte : Prop :=
  encode .sinkAccept = [0x05] ∧ (∀ g : Signals, g.txReady = true → g.txFail = false → g.sinkAnswer = .sinkAccept) ∧
  (∀ (s t : State) (i : Instr), s.enc.ebusy = false → exec i s = .next t → t.enc.ek ≠ s.enc.ek →
    i = .reset ∨ ∃ api n p, i = .encRequest api n p ∧ n.toNat ≤ 241) ∧
  ∀ (s : State) (v : Byte), s.enc.ebusy = true → s.enc.wire[s.enc.ek.toNat]? = some v →
    (s.enc.ek.toNat + 1 ≠ s.enc.wire.length → exec .sinkAccept s = .next { s with
      enc := { s.enc with ek := s.enc.ek + 1 }
      out := { ev := none, reqTaken := none, sinkTook := some v } }) ∧
    (s.enc.ek.toNat + 1 = s.enc.wire.length → exec .sinkAccept s = .next { s with
      enc := { s.enc with ek := s.enc.ek + 1, ebusy := false, eres := .ok }
      out := { ev := none, reqTaken := none, sinkTook := some v } })

/-- R161: a stall changes nothing, and the byte stays offered. -/
def Obligations.StallChangesNothing : Prop :=
  ∀ (s : State), ∃ t, exec .sinkStall s = .next t ∧
    t = { s with out := { ev := none, reqTaken := none, sinkTook := none } } ∧ t.enc.offered = s.enc.offered ∧
    encode .sinkStall = [0x06] ∧ (∀ g : Signals, g.txReady = false → g.txFail = false → g.sinkAnswer = .sinkStall)

/-- R162: a failure ends the frame with TransportError and keeps the count of bytes sent. -/
def Obligations.FailEndsTheFrame : Prop :=
  ∀ (s : State), s.enc.ebusy = true →
    exec .sinkFail s = .next { s with
      enc := { s.enc with ebusy := false, eres := .transportError }
      out := { ev := none, reqTaken := none, sinkTook := none } } ∧
    encode .sinkFail = [0x07] ∧ (∀ g : Signals, g.txFail = true → g.sinkAnswer = .sinkFail)

/-- R163: with nothing on offer the sink's answers change nothing. -/
def Obligations.AnswersWhileIdleChangeNothing : Prop :=
  ∀ (s : State) (i : Instr), s.enc.ebusy = false → (i = .sinkAccept ∨ i = .sinkStall ∨ i = .sinkFail) →
    exec i s = .next { s with out := { ev := none, reqTaken := none, sinkTook := none } }

/-- R164: the idle outputs, which read neither eapi, en nor Txp; ENC_STATUS shows eres and ENC_COUNT shows ek. -/
def Obligations.IdleOutputs : Prop :=
  ∀ (s : State) (idx : Half), s.enc.ebusy = false →
    (s.outputPorts idx).txValid = false ∧ (s.outputPorts idx).txData = 0x00 ∧ s.encTxData = 0x00 ∧
    (s.outputPorts idx).txReqReady = true ∧ (s.outputPorts idx).encCount = s.enc.ek ∧
    (s.outputPorts idx).encStatus.extractLsb' 1 2 = s.enc.eres.code ∧
    (∀ (api n : Byte) (m : Memory),
      ({ s with enc := { s.enc with eapi := api, en := n, txp := m } } : State).outputPorts idx = s.outputPorts idx)

/-- R159: the offer changes only in a SINK.ACCEPT, SINK.FAIL or RESET step. -/
def Obligations.OfferChangesOnlyByAnswerOrReset : Prop :=
  ∀ (s t : State) (i : Instr) (idx : Half), s.enc.ebusy = true → exec i s = .next t → i ≠ .sinkAccept → i ≠ .sinkFail → i ≠ .reset →
    (∀ v, s.enc.wire[s.enc.ek.toNat]? = some v →
      (s.outputPorts idx).txValid = true ∧ (s.outputPorts idx).txData = v ∧ s.encTxData = v) ∧
    t.enc = s.enc ∧ (t.outputPorts idx).txValid = true ∧ (t.outputPorts idx).txData = (s.outputPorts idx).txData

/-- R239: no operation other than SINK.FAIL or RESET ends a frame before its last byte is taken. -/
def Obligations.FrameEndsEarlyOnlyByFailOrReset : Prop :=
  ∀ (s t : State) (i : Instr), s.enc.ebusy = true → exec i s = .next t → t.enc.ebusy = false →
    i = .sinkFail ∨ i = .reset ∨ (i = .sinkAccept ∧ s.enc.ek.toNat + 1 = s.enc.wire.length)

/-- R64, R160, R84: from a taken request the sink takes W[0], W[1], … in order; len(W) ACCEPT steps send all of W and end the
frame with Ok, and before that the encoder stays busy. -/
def Obligations.AcceptsSendTheWireInOrder : Prop :=
  ∀ (s : State) (k : Nat), s.Safe → s.enc.ebusy = true → s.enc.ek = 0 → k ≤ s.enc.wire.length →
    ∃ t, acceptStream k s = some (s.enc.wire.take k, t) ∧ t.enc.ek.toNat = k ∧ t.dec = s.dec ∧
      (k < s.enc.wire.length → t.enc.ebusy = true ∧ t.enc.eres = .none) ∧
      (k = s.enc.wire.length → t.enc.ebusy = false ∧ t.enc.eres = .ok)

/-- R155: the length of the wire sequence, and its bounds. -/
def Obligations.WireLength : Prop :=
  ∀ (api : Byte) (p : List Byte), p.length ≤ 241 →
    (encodeWire api p).length = p.length + 18 + ((frameTail api p).filter isReserved).length ∧
    (frameTail api p).length = p.length + 17 ∧ (encodeWire api p).length ≤ 502

/-- R155, R151: 7E stands in the wire sequence at index 0 only; every 7D is followed by one of 5E, 5D, 31, 33. -/
def Obligations.WireHasOneStartByte : Prop :=
  ∀ (api : Byte) (p : List Byte) (k : Nat),
    ((encodeWire api p)[k]? = some startByte ↔ k = 0) ∧
    ((encodeWire api p)[k]? = some escMarker → (encodeWire api p)[k + 1]? = some 0x5E ∨ (encodeWire api p)[k + 1]? = some 0x5D ∨
      (encodeWire api p)[k + 1]? = some 0x31 ∨ (encodeWire api p)[k + 1]? = some 0x33)

/-- R166: the encoder that stores no wire sequence offers the same bytes: after k accepts it offers W[k], and after len(W) it has
gone past the checksum at index n + 17. -/
def Obligations.RunningSumEncoderRefinesWire : Prop :=
  ∀ (api : Byte) (p : List Byte), p.length ≤ 241 →
    (∀ k : Nat, k < (encodeWire api p).length →
      some ((RunningSum.start api p).acceptTimes k).offered = (encodeWire api p)[k]?) ∧
    ((RunningSum.start api p).acceptTimes (encodeWire api p).length).i = p.length + 18

-- ==== Both units ====

/-- R216, R61: a decoder operation neither reads nor writes the encoder, an encoder operation neither reads nor writes the
decoder; only RESET writes both. -/
def Obligations.UnitsAreIndependent : Prop :=
  ∀ (s t : State) (i : Instr), exec i s = .next t →
    (i ≠ .reset → t.dec = s.dec ∨ t.enc = s.enc) ∧
    (i.isDecoderOp = true → t.enc = s.enc ∧ ∀ e : Encoder, exec i { s with enc := e } = .next { t with enc := e }) ∧
    (i.isEncoderOp = true → t.dec = s.dec ∧ ∀ d : Decoder, exec i { s with dec := d } = .next { t with dec := d })

/-- R61: steps of different agents commute. The one-step outputs, held in State.out by the model's choice, are left out: they are
those of the last step (log 4). -/
def Obligations.StepsOfDifferentAgentsCommute : Prop :=
  ∀ (s : State) (i j : Instr) (a b : State), i.isDecoderOp = true → j.isEncoderOp = true →
    exec i s = .next a → exec j s = .next b →
      ∃ u v, exec j a = .next u ∧ exec i b = .next v ∧ u.dec = v.dec ∧ u.enc = v.enc ∧ u.cfg = v.cfg ∧ u.input = v.input ∧
        u.resetDone = v.resetDone

/-- R80, R205, R156: a cycle is the steps of its decoder and its encoder operation, in the one order and in the other, with both
units' outputs: the event of the decoder's step, the taken byte and req_taken of the encoder's, and req_taken 0 for a request
that waits while busy. rst cancels both. The choice of the encoder's operation by ebusy, the waiting request's output and the
refusal of two decoder operations are the model's (log 8). -/
def Obligations.CycleIsBothOperationsInEitherOrder : Prop :=
  ∀ (s : State) (g : Signals),
    (g.rst = true → cycle g s = exec .reset s) ∧
    (g.rst = false → (g.decClear && g.rxValid) = true → cycle g s = .refused .twoDecoderOperations) ∧
    (∀ u, g.rst = false → (g.decClear && g.rxValid) = false → cycle g s = .next u →
      (∃ a b, exec g.decoderOp s = .next a ∧ exec (g.encoderOp s.enc.ebusy) a = .next b ∧
        u = { b with out := {
          ev := a.out.ev
          reqTaken := if s.enc.ebusy = true ∧ g.txReqValid = true then some false else b.out.reqTaken
          sinkTook := b.out.sinkTook } }) ∧
      (∃ a b, exec (g.encoderOp s.enc.ebusy) s = .next a ∧ exec g.decoderOp a = .next b ∧
        u = { b with out := {
          ev := b.out.ev
          reqTaken := if s.enc.ebusy = true ∧ g.txReqValid = true then some false else a.out.reqTaken
          sinkTook := a.out.sinkTook } }))

/-- R37, R102: which operations write which flag; a feed leaves esc set exactly when it is a 7D at pos > 0. -/
def Obligations.WhoWritesTheFlags : Prop :=
  ∀ (s t : State) (i : Instr), exec i s = .next t →
    ((t.enc.ebusy ≠ s.enc.ebusy ∨ t.enc.eres ≠ s.enc.eres) → i.isEncoderOp = true ∧ i ≠ .sinkStall ∨ i = .reset) ∧
    ((t.dec.status ≠ s.dec.status ∨ t.dec.err ≠ s.dec.err ∨ t.dec.esc ≠ s.dec.esc) → i.isDecoderOp = true ∨ i = .reset) ∧
    (s.enc.eres ≠ .none → t.enc.eres = .none → i = .reset ∨ ∃ api n p, i = .encRequest api n p) ∧
    (∀ raw, i = .decFeed raw → (t.dec.esc = true ↔ (raw = escMarker ∧ s.dec.status = .inProgress ∧ 0 < s.dec.pos.toNat)))

/-- R36 with the codes of R29 (status), R30 (err), R33 (eres) and the phase of R22 by status and pos, with its codes: each field of
DEC_STATUS and ENC_STATUS at its place with its value; the other views show their registers; DEC_MSG is 00 at and above MSG_CAP. -/
def Obligations.StatusViewLayout : Prop :=
  ∀ (s : State),
    s.decStatus.extractLsb' 0 2 = (match s.dec.status with
      | .inProgress => 0b00
      | .complete => 0b01
      | .failed => 0b10) ∧
    s.decStatus.extractLsb' 2 2 = (match s.dec.err with
      | .noError => 0b00
      | .checksumFailure => 0b01
      | .frameTooLarge => 0b10
      | .unexpectedStart => 0b11) ∧
    s.decStatus.getLsbD 4 = s.dec.esc ∧
    (s.dec.status = .complete → s.dec.phase = .complete ∧ s.decStatus.extractLsb' 5 3 = 0b100) ∧
    (s.dec.status = .failed → s.dec.phase = .failed ∧ s.decStatus.extractLsb' 5 3 = 0b101) ∧
    (s.dec.status = .inProgress →
      (s.dec.pos = 0 → s.dec.phase = .waitingStart ∧ s.decStatus.extractLsb' 5 3 = 0b000) ∧
      ((s.dec.pos = 1 ∨ s.dec.pos = 2) → s.dec.phase = .readingLength ∧ s.decStatus.extractLsb' 5 3 = 0b001) ∧
      (s.dec.pos = 3 → s.dec.phase = .readingType ∧ s.decStatus.extractLsb' 5 3 = 0b010) ∧
      (4 ≤ s.dec.pos.toNat → s.dec.phase = .readingPayload ∧ s.decStatus.extractLsb' 5 3 = 0b011)) ∧
    s.decPos = s.dec.pos ∧ s.decLen = s.dec.dlen ∧ s.decApi = s.dec.api ∧ s.decCk = s.dec.ck ∧ s.decMsgLen = s.dec.mfill ∧
    (∀ i : Half, s.cfg.msgCap ≤ i.toNat → s.decMsg i = 0x00) ∧
    (∀ i : Half, i.toNat < s.cfg.msgCap → s.decMsg i = s.dec.msg.read i.toNat) ∧
    s.encStatus.getLsbD 0 = s.enc.ebusy ∧
    s.encStatus.extractLsb' 1 2 = (match s.enc.eres with
      | .none => 0b00
      | .ok => 0b01
      | .transportError => 0b10
      | .lengthError => 0b11) ∧
    s.encStatus.extractLsb' 3 5 = 0 ∧ s.encCount = s.enc.ek

-- ==== Invariants ====

/-- R231: the state after RESET is sound, for every allowed configuration, and State.reset is one (its
parameters are the model's choice, log 1). -/
def Obligations.ResetIsSafe : Prop :=
  (∀ c : Config, c.wf = true → (State.resetFor c).Safe) ∧ State.reset.Safe

/-- R23, R27, R28, R30, R32, R33, R51, R60: every step of the machine keeps the invariants of `State.Safe`, and no step changes a
parameter (R6). The invariant of mfill is R28's for a frame in progress or Complete. For a Failed frame the clause is the model's
reading, not R28's words: mfill keeps the count of the partial message (log 12, DEDUCED, unsafe). -/
def Obligations.StepKeepsSafe : Prop :=
  ∀ s t : State, s.Safe → step s = .next t → t.Safe ∧ t.cfg = s.cfg

/-- R60, R112, R155: from a sound state no step faults: nothing is written outside an array and a busy encoder always has a byte
on offer. -/
def Obligations.SafeStateNeverFaults : Prop :=
  ∀ (s : State) (f : Fault), s.Safe → step s ≠ .fault f

/-- R26: ck is the running sum of the frame bytes from the apiId on; every step keeps it so. -/
def Obligations.StepKeepsTheRunningSum : Prop :=
  ∀ s t : State, s.Safe → s.dec.SumOfStored s.cfg → step s = .next t → t.dec.SumOfStored t.cfg

-- ==== Frames ====

/-- R117: a well-formed frame, carried by any wire bytes that spell it, gives NeedMore for every byte but the last, and for the
last FrameReady with its message or ChecksumFailure; the length high byte has no effect. -/
def Obligations.WellFormedFrameIsDecoded : Prop :=
  ∀ (c : Config) (d0 : Decoder) (h l a ckByte : Byte) (data wire : List Byte),
    c.wf = true → c.startGuard = .raw → d0.Safe c → (d0.status ≠ .inProgress ∨ d0.pos = 0) →
    1 ≤ l.toNat → data.length = l.toNat - 1 → l.toNat + 3 ≤ c.maxFrameSize →
    Carried (h :: l :: a :: (data ++ [ckByte])) wire →
      ∃ d last, d0.feedAll c (startByte :: wire) = (d, List.replicate wire.length .needMore ++ [last]) ∧
        (sum8 (a :: (data ++ [ckByte])) = 0xFF →
          d.status = .complete ∧ d.api = a ∧
          last = .frameReady a (if a = 0x90 then (startByte :: h :: l :: a :: data).drop c.receivedDataIdx else [])) ∧
        (sum8 (a :: (data ++ [ckByte])) ≠ 0xFF → d.status = .failed ∧ last = .error .checksumFailure)

/-- R165: what the encoder sends, the decoder takes: the same apiId, the frame data in Buf, and for 0x90 the message from
RECEIVED_DATA_IDX on. With n + 17 > M it gives FrameTooLarge with the (last) wire byte of F[M + 1] and ignores the rest of W.
R113, over any whole frame of declared low length l >= 1: it fails with FrameTooLarge exactly when l + 3 > M, and then with the
byte at index M + 1; a frame of declared length 0 ends there too (R118). -/
def Obligations.EncodedFrameIsDecoded : Prop :=
  ∀ (c : Config) (d0 : Decoder), c.wf = true → c.startGuard = .raw → d0.Safe c → (d0.status ≠ .inProgress ∨ d0.pos = 0) →
    (∀ (api : Byte) (p : List Byte), p.length ≤ 241 →
      (p.length + 17 ≤ c.maxFrameSize →
        ∃ d, d0.feedAll c (encodeWire api p) =
            (d, List.replicate ((encodeWire api p).length - 1) .needMore ++
              [.frameReady api (if api = 0x90 then ((logicalFrame api p).take (p.length + 17)).drop c.receivedDataIdx else [])]) ∧
          d.status = .complete ∧ d.api = api ∧
          (d.buf.firstBytes (p.length + 17)).drop 3 = frameData api p ∧
          (p.length + 17 < c.maxFrameSize → d.buf.read (p.length + 17) = checksum (frameData api p))) ∧
      (c.maxFrameSize < p.length + 17 →
        ∃ before after : List Byte,
          encodeWire api p = before ++ after ∧
          before = startByte :: (((logicalFrame api p).take (c.maxFrameSize + 2)).drop 1).flatMap escByte ∧
          (d0.feedAll c (encodeWire api p)).2 =
            List.replicate (before.length - 1) .needMore ++ .error .frameTooLarge :: List.replicate after.length .needMore ∧
          (d0.feedAll c before).1.status = .failed ∧ (d0.feedAll c before).1.err = .frameTooLarge)) ∧
    (∀ (h l a ckByte : Byte) (data wire : List Byte), 1 ≤ l.toNat → data.length = l.toNat - 1 →
      Carried (h :: l :: a :: (data ++ [ckByte])) wire →
        (.error .frameTooLarge ∈ (d0.feedAll c (startByte :: wire)).2 ↔ c.maxFrameSize < l.toNat + 3)) ∧
    (∀ (h l : Byte) (more wire : List Byte), (l = 0 ∨ c.maxFrameSize < l.toNat + 3) →
      (h :: l :: more).length = c.maxFrameSize + 1 → Carried (h :: l :: more) wire →
        ∃ d, d0.feedAll c (startByte :: wire) = (d, List.replicate wire.length .needMore ++ [.error .frameTooLarge]) ∧
          d.status = .failed ∧ d.err = .frameTooLarge)

/-- R118: a frame of declared length 0 never gives FrameReady or ChecksumFailure: whatever bytes follow, the first event that is
not NeedMore is FrameTooLarge or UnexpectedStart. -/
def Obligations.LengthZeroNeverFinalises : Prop :=
  ∀ (c : Config) (d : Decoder) (bs : List Byte) (e : Event),
    c.wf = true → d.status = .inProgress → 4 ≤ d.pos.toNat → d.pos.toNat ≤ c.maxFrameSize + 1 → d.dlen = 0 →
      (d.feedAll c bs).2.find? (fun x => x != .needMore) = some e →
        e = .error .frameTooLarge ∨ e = .error .unexpectedStart

/-- R121, R236: the data of FrameReady is in the status view, and stays there through any operations that are neither the
decoder's nor RESET. -/
def Obligations.FrameReadyDataIsReadable : Prop :=
  ∀ (s t : State) (raw a : Byte) (m : List Byte), s.Safe → exec (.decFeed raw) s = .next t →
    t.out.ev = some (.frameReady a m) →
      t.decApi = a ∧ t.decMsgLen.toNat = m.length ∧
      (∀ i : Half, i.toNat < m.length → some (t.decMsg i) = m[i.toNat]?) ∧
      (∀ (js : List Instr) (u : State), (∀ j ∈ js, j.isDecoderOp = false ∧ j ≠ .reset) → runOps js t = .next u →
        u.decApi = t.decApi ∧ u.decMsgLen = t.decMsgLen ∧ ∀ i : Half, u.decMsg i = t.decMsg i)

/-- R240: under RAW and DISCARD the frame an aborting 7E began is skipped: after the abort every byte other than a raw 7E is
ignored. -/
def Obligations.BytesAfterAnAbortAreSkipped : Prop :=
  ∀ (c : Config) (d : Decoder) (bs : List Byte), c.startGuard = .raw → c.abortPolicy = .discard → d.status = .inProgress →
    0 < d.pos.toNat → (∀ b ∈ bs, b ≠ startByte) → bs ≠ [] →
      d.feedAll c (startByte :: bs) = (Decoder.zero, .error .unexpectedStart :: List.replicate bs.length .needMore)

/-- R84: DRAIN from a sound busy state is len(W) - ek ACCEPT steps, and they end the frame with Ok. -/
def Obligations.DrainEndsTheFrame : Prop :=
  ∀ s : State, s.Safe → s.enc.ebusy = true →
    (ScriptLine.drain.expand s).length = s.enc.wire.length - s.enc.ek.toNat ∧
    ∃ t, runOps (ScriptLine.drain.expand s) s = .next t ∧ t.enc.ebusy = false ∧ t.enc.eres = .ok ∧ t.dec = s.dec

/-- R85, R87: the event ports in every step. A row that feeds shows dec_ev_valid 1 and the code of its event, with the error's
code beside an Error and 00 beside any other event; any other step shows dec_ev_valid 0 and both codes 00. Under DISCARD the
code of an Error is the err field of DEC_STATUS after the step. That a pair WIRE.ESCPAIR is one step with one event, and that a
dispatch-case row the state does not select is a feed, are the model's choice (logs 11 and 9). -/
def Obligations.EventPortsShowTheStep : Prop :=
  ∀ (s t : State) (i : Instr) (idx : Half), exec i s = .next t →
    (i.takesByte = true → (t.outputPorts idx).decEvValid = true ∧
      ((t.out = eventOnly .needMore ∧
          (t.outputPorts idx).decEv = 0b00 ∧ (t.outputPorts idx).decEvErr = 0b00) ∨
        (∃ a m, t.out = eventOnly (.frameReady a m) ∧
          (t.outputPorts idx).decEv = 0b01 ∧ (t.outputPorts idx).decEvErr = 0b00) ∨
        (t.out = eventOnly (.error .checksumFailure) ∧
          (t.outputPorts idx).decEv = 0b10 ∧ (t.outputPorts idx).decEvErr = 0b01) ∨
        (t.out = eventOnly (.error .frameTooLarge) ∧
          (t.outputPorts idx).decEv = 0b10 ∧ (t.outputPorts idx).decEvErr = 0b10) ∨
        (t.out = eventOnly (.error .unexpectedStart) ∧
          (t.outputPorts idx).decEv = 0b10 ∧ (t.outputPorts idx).decEvErr = 0b11))) ∧
    (i.takesByte = true → s.cfg.abortPolicy = .discard → (t.outputPorts idx).decEv = 0b10 →
      t.dec.status = .failed ∧ (t.outputPorts idx).decEvErr = (t.outputPorts idx).decStatus.extractLsb' 2 2) ∧
    (i.takesByte = false →
      (t.outputPorts idx).decEvValid = false ∧ (t.outputPorts idx).decEv = 0b00 ∧ (t.outputPorts idx).decEvErr = 0b00)
end

