-- ==== Sys2Proof/Laws/Memory.lean ====
section
/-! SUPPORT. The laws of the byte arrays: read after write, the canonical form kept, capacities kept. -/

namespace Sys2Proof.Machine

@[simp] theorem Memory.read_nil (i : Nat) : Memory.read [] i = 0x00 := rfl

@[simp] theorem Memory.wf_nil : Memory.wf [] = true := rfl

@[simp] theorem Memory.within_nil (cap : Nat) : Memory.within [] cap = true := rfl

theorem Memory.wfFrom_mono {lo hi : Nat} {m : Memory} (h : m.wfFrom hi = true) (hl : lo ≤ hi) : m.wfFrom lo = true := by
  cases m with
  | nil => rfl
  | cons c m =>
    obtain ⟨j, w⟩ := c
    simp only [Memory.wfFrom, Bool.and_eq_true, decide_eq_true_eq] at h ⊢
    exact ⟨⟨by omega, h.1.2⟩, h.2⟩

theorem Memory.wf_of_wfFrom {lo : Nat} {m : Memory} (h : m.wfFrom lo = true) : m.wf = true :=
  Memory.wfFrom_mono h (Nat.zero_le _)

theorem Memory.read_below {lo i : Nat} {m : Memory} (h : m.wfFrom lo = true) (hi : i < lo) : m.read i = 0x00 := by
  induction m generalizing lo with
  | nil => rfl
  | cons c m ih =>
    obtain ⟨j, w⟩ := c
    simp only [Memory.wfFrom, Bool.and_eq_true, decide_eq_true_eq] at h
    have hij : i ≠ j := by omega
    simp only [Memory.read, hij, if_false]
    exact ih h.2 (by omega)

/-- Read after write, at any two indices. -/
theorem Memory.read_write {lo : Nat} {m : Memory} (h : m.wfFrom lo = true) (i : Nat) (v : Byte) (k : Nat) :
    (m.write i v).read k = if k = i then v else m.read k := by
  induction m generalizing lo with
  | nil =>
    unfold Memory.write
    split
    · rename_i hv
      by_cases hk : k = i <;> simp [hk, hv]
    · by_cases hk : k = i <;> simp [Memory.read, hk]
  | cons c m ih =>
    obtain ⟨j, w⟩ := c
    simp only [Memory.wfFrom, Bool.and_eq_true, decide_eq_true_eq] at h
    unfold Memory.write
    split
    · split
      · rename_i hij hv
        by_cases hk : k = i
        · subst hk
          have hkj : k ≠ j := by omega
          simp [Memory.read, hkj, hv, Memory.read_below h.2 (show k < j + 1 by omega)]
        · simp [hk]
      · by_cases hk : k = i <;> simp [Memory.read, hk]
    · split
      · rename_i hij
        subst hij
        split
        · rename_i hv
          by_cases hk : k = i
          · subst hk
            simp [hv, Memory.read_below h.2 (show k < k + 1 by omega)]
          · simp [Memory.read, hk]
        · by_cases hk : k = i <;> simp [Memory.read, hk]
      · rename_i hij
        by_cases hkj : k = j
        · subst hkj
          have : k ≠ i := fun e => hij e.symm
          simp [Memory.read, this]
        · simp [Memory.read, hkj, ih h.2]

theorem Memory.read_write_wf {m : Memory} (h : m.wf = true) (i : Nat) (v : Byte) (k : Nat) :
    (m.write i v).read k = if k = i then v else m.read k := Memory.read_write h i v k

theorem Memory.wfFrom_write {lo : Nat} {m : Memory} (h : m.wfFrom lo = true) {i : Nat} (hi : lo ≤ i) (v : Byte) :
    (m.write i v).wfFrom lo = true := by
  induction m generalizing lo with
  | nil =>
    unfold Memory.write
    split
    · rfl
    · rename_i hv
      simp only [Memory.wfFrom, Bool.and_eq_true, decide_eq_true_eq]
      exact ⟨⟨hi, by simpa using hv⟩, trivial⟩
  | cons c m ih =>
    obtain ⟨j, w⟩ := c
    have h0 := h
    simp only [Memory.wfFrom, Bool.and_eq_true, decide_eq_true_eq] at h
    unfold Memory.write
    split
    · split
      · exact h0
      · rename_i hij hv
        simp only [Memory.wfFrom, Bool.and_eq_true, decide_eq_true_eq]
        exact ⟨⟨hi, by simpa using hv⟩, ⟨by omega, h.1.2⟩, h.2⟩
    · split
      · rename_i hij
        subst hij
        split
        · exact Memory.wfFrom_mono h.2 (by omega)
        · rename_i hv
          simp only [Memory.wfFrom, Bool.and_eq_true, decide_eq_true_eq]
          exact ⟨⟨hi, by simpa using hv⟩, h.2⟩
      · simp only [Memory.wfFrom, Bool.and_eq_true, decide_eq_true_eq]
        exact ⟨h.1, ih h.2 (by omega)⟩

/-- A write keeps the canonical form. -/
theorem Memory.wf_write {m : Memory} (h : m.wf = true) (i : Nat) (v : Byte) : (m.write i v).wf = true :=
  Memory.wfFrom_write h (Nat.zero_le i) v

/-- A write below the capacity lists nothing at or above it. -/
theorem Memory.within_write {cap : Nat} {m : Memory} (h : m.within cap = true) {i : Nat} (hi : i < cap) (v : Byte) :
    (m.write i v).within cap = true := by
  induction m with
  | nil =>
    unfold Memory.write
    split <;> simp [Memory.within, hi]
  | cons c m ih =>
    obtain ⟨j, w⟩ := c
    simp only [Memory.within, List.all_cons, Bool.and_eq_true, decide_eq_true_eq] at h
    have hm : Memory.within m cap = true := h.2
    unfold Memory.write
    split
    · split <;> simp [Memory.within, h.1, hi] <;> simpa [Memory.within] using hm
    · split
      · split
        · exact hm
        · simp [Memory.within, hi]; simpa [Memory.within] using hm
      · simp only [Memory.within, List.all_cons, Bool.and_eq_true, decide_eq_true_eq]
        exact ⟨h.1, ih hm⟩

theorem Memory.within_mono {a b : Nat} {m : Memory} (h : m.within a = true) (hab : a ≤ b) : m.within b = true := by
  simp only [Memory.within, List.all_eq_true, decide_eq_true_eq] at h ⊢
  exact fun c hc => Nat.lt_of_lt_of_le (h c hc) hab

/-- Nothing is held at or above a capacity the array keeps. -/
theorem Memory.read_of_within {cap i : Nat} {m : Memory} (h : m.within cap = true) (hi : cap ≤ i) : m.read i = 0x00 := by
  induction m with
  | nil => rfl
  | cons c m ih =>
    obtain ⟨j, w⟩ := c
    simp only [Memory.within, List.all_cons, Bool.and_eq_true, decide_eq_true_eq] at h
    have hij : i ≠ j := by omega
    simp only [Memory.read, hij, if_false]
    exact ih h.2

theorem Memory.wf_writeAll {m : Memory} (h : m.wf = true) (i : Nat) (p : List Byte) : (m.writeAll i p).wf = true := by
  induction p generalizing m i with
  | nil => exact h
  | cons v p ih => exact ih (Memory.wf_write h i v) (i + 1)

theorem Memory.within_writeAll {cap : Nat} {m : Memory} (h : m.within cap = true) (i : Nat) (p : List Byte)
    (hp : i + p.length ≤ cap) : (m.writeAll i p).within cap = true := by
  induction p generalizing m i with
  | nil => exact h
  | cons v p ih =>
    simp only [List.length_cons] at hp
    exact ih (Memory.within_write h (by omega) v) (i + 1) (by omega)

/-- Read after the loop of R157: the written bytes inside, the old ones outside. -/
theorem Memory.read_writeAll {m : Memory} (h : m.wf = true) (i : Nat) (p : List Byte) (k : Nat) :
    (m.writeAll i p).read k = if i ≤ k ∧ k < i + p.length then p.getD (k - i) 0x00 else m.read k := by
  induction p generalizing m i with
  | nil =>
    have : ¬ (i ≤ k ∧ k < i + ([] : List Byte).length) := by simp only [List.length_nil]; omega
    rw [if_neg this]; rfl
  | cons v p ih =>
    rw [Memory.writeAll, ih (Memory.wf_write h i v), Memory.read_write_wf h]
    simp only [List.length_cons]
    by_cases hk : k = i
    · subst hk
      have h1 : ¬ (k + 1 ≤ k ∧ k < k + 1 + p.length) := by omega
      have h2 : k ≤ k ∧ k < k + (p.length + 1) := by omega
      rw [if_neg h1, if_pos h2]; simp
    · by_cases h1 : i + 1 ≤ k ∧ k < i + 1 + p.length
      · have h2 : i ≤ k ∧ k < i + (p.length + 1) := by omega
        rw [if_pos h1, if_pos h2]
        obtain ⟨n, rfl⟩ : ∃ n, k = i + 1 + n := ⟨k - (i + 1), by omega⟩
        rw [show i + 1 + n - (i + 1) = n by omega, show i + 1 + n - i = n + 1 by omega]; simp
      · have h2 : ¬ (i ≤ k ∧ k < i + (p.length + 1)) := by omega
        rw [if_neg h1, if_neg h2, if_neg hk]

@[simp] theorem Memory.length_firstBytes (m : Memory) (n : Nat) : (m.firstBytes n).length = n := by
  simp [Memory.firstBytes]

@[simp] theorem Memory.firstBytes_zero (m : Memory) : m.firstBytes 0 = [] := rfl

theorem Memory.firstBytes_succ (m : Memory) (n : Nat) : m.firstBytes (n + 1) = m.firstBytes n ++ [m.read n] := by
  simp [Memory.firstBytes, List.range_succ]

theorem Memory.getElem?_firstBytes (m : Memory) {n i : Nat} (h : i < n) : (m.firstBytes n)[i]? = some (m.read i) := by
  simp [Memory.firstBytes, h]

/-- A write at `n` or above leaves the first `n` bytes alone. -/
theorem Memory.firstBytes_write {m : Memory} (h : m.wf = true) {n i : Nat} (hi : n ≤ i) (v : Byte) :
    (m.write i v).firstBytes n = m.firstBytes n := by
  apply List.map_congr_left
  intro k hk
  have : k ≠ i := by have := List.mem_range.mp hk; omega
  rw [Memory.read_write_wf h, if_neg this]

/-- The first `n + 1` bytes after a write at `n`. -/
theorem Memory.firstBytes_write_succ {m : Memory} (h : m.wf = true) (n : Nat) (v : Byte) :
    (m.write n v).firstBytes (n + 1) = m.firstBytes n ++ [v] := by
  rw [Memory.firstBytes_succ, Memory.firstBytes_write h (Nat.le_refl n), Memory.read_write_wf h, if_pos rfl]

/-- The first bytes after the loop of R157 are the payload. -/
theorem Memory.firstBytes_writeAll {m : Memory} (h : m.wf = true) (p : List Byte) :
    (m.writeAll 0 p).firstBytes p.length = p := by
  apply List.ext_getElem?
  intro k
  by_cases hk : k < p.length
  · rw [Memory.getElem?_firstBytes _ hk, Memory.read_writeAll h, if_pos (by omega)]
    simp [hk]
  · rw [List.getElem?_eq_none (by simp; omega), List.getElem?_eq_none (by omega)]

end Sys2Proof.Machine
end

