-- ==== Sys2Proof/Laws/State.lean ====
section
/-! SUPPORT. One lemma per field per update of the records, so that no proof unfolds an update. -/

namespace Sys2Proof.Machine

@[simp] theorem State.quiet_cfg (s : State) : s.quiet.cfg = s.cfg := rfl
@[simp] theorem State.quiet_resetDone (s : State) : s.quiet.resetDone = s.resetDone := rfl
@[simp] theorem State.quiet_dec (s : State) : s.quiet.dec = s.dec := rfl
@[simp] theorem State.quiet_enc (s : State) : s.quiet.enc = s.enc := rfl
@[simp] theorem State.quiet_input (s : State) : s.quiet.input = s.input := rfl
@[simp] theorem State.quiet_out (s : State) : s.quiet.out = StepOutputs.quiet := rfl
@[simp] theorem State.decoded_cfg (s : State) (r : Decoder × Event) : (s.decoded r).cfg = s.cfg := rfl
@[simp] theorem State.decoded_resetDone (s : State) (r : Decoder × Event) : (s.decoded r).resetDone = s.resetDone := rfl
@[simp] theorem State.decoded_dec (s : State) (r : Decoder × Event) : (s.decoded r).dec = r.1 := rfl
@[simp] theorem State.decoded_enc (s : State) (r : Decoder × Event) : (s.decoded r).enc = s.enc := rfl
@[simp] theorem State.decoded_input (s : State) (r : Decoder × Event) : (s.decoded r).input = s.input := rfl
@[simp] theorem State.decoded_ev (s : State) (r : Decoder × Event) : (s.decoded r).out.ev = some r.2 := rfl
@[simp] theorem State.decoded_reqTaken (s : State) (r : Decoder × Event) : (s.decoded r).out.reqTaken = none := rfl
@[simp] theorem State.decoded_sinkTook (s : State) (r : Decoder × Event) : (s.decoded r).out.sinkTook = none := rfl
@[simp] theorem State.requested_cfg (s : State) (e : Encoder) (taken : Bool) : (s.requested e taken).cfg = s.cfg := rfl
@[simp] theorem State.requested_resetDone (s : State) (e : Encoder) (taken : Bool) : (s.requested e taken).resetDone = s.resetDone := rfl
@[simp] theorem State.requested_dec (s : State) (e : Encoder) (taken : Bool) : (s.requested e taken).dec = s.dec := rfl
@[simp] theorem State.requested_enc (s : State) (e : Encoder) (taken : Bool) : (s.requested e taken).enc = e := rfl
@[simp] theorem State.requested_input (s : State) (e : Encoder) (taken : Bool) : (s.requested e taken).input = s.input := rfl
@[simp] theorem State.requested_reqTaken (s : State) (e : Encoder) (taken : Bool) : (s.requested e taken).out.reqTaken = some taken := rfl
@[simp] theorem State.requested_ev (s : State) (e : Encoder) (taken : Bool) : (s.requested e taken).out.ev = none := rfl
@[simp] theorem State.requested_sinkTook (s : State) (e : Encoder) (taken : Bool) : (s.requested e taken).out.sinkTook = none := rfl
@[simp] theorem State.answered_cfg (s : State) (e : Encoder) (took : Option Byte) : (s.answered e took).cfg = s.cfg := rfl
@[simp] theorem State.answered_resetDone (s : State) (e : Encoder) (took : Option Byte) : (s.answered e took).resetDone = s.resetDone := rfl
@[simp] theorem State.answered_dec (s : State) (e : Encoder) (took : Option Byte) : (s.answered e took).dec = s.dec := rfl
@[simp] theorem State.answered_enc (s : State) (e : Encoder) (took : Option Byte) : (s.answered e took).enc = e := rfl
@[simp] theorem State.answered_input (s : State) (e : Encoder) (took : Option Byte) : (s.answered e took).input = s.input := rfl
@[simp] theorem State.answered_sinkTook (s : State) (e : Encoder) (took : Option Byte) : (s.answered e took).out.sinkTook = took := rfl
@[simp] theorem State.answered_ev (s : State) (e : Encoder) (took : Option Byte) : (s.answered e took).out.ev = none := rfl
@[simp] theorem State.answered_reqTaken (s : State) (e : Encoder) (took : Option Byte) : (s.answered e took).out.reqTaken = none := rfl

@[simp] theorem Decoder.fail_pos (d : Decoder) (k : ErrorKind) : (d.fail k).pos = d.pos := rfl
@[simp] theorem Decoder.fail_dlen (d : Decoder) (k : ErrorKind) : (d.fail k).dlen = d.dlen := rfl
@[simp] theorem Decoder.fail_api (d : Decoder) (k : ErrorKind) : (d.fail k).api = d.api := rfl
@[simp] theorem Decoder.fail_ck (d : Decoder) (k : ErrorKind) : (d.fail k).ck = d.ck := rfl
@[simp] theorem Decoder.fail_esc (d : Decoder) (k : ErrorKind) : (d.fail k).esc = d.esc := rfl
@[simp] theorem Decoder.fail_mfill (d : Decoder) (k : ErrorKind) : (d.fail k).mfill = d.mfill := rfl
@[simp] theorem Decoder.fail_status (d : Decoder) (k : ErrorKind) : (d.fail k).status = .failed := rfl
@[simp] theorem Decoder.fail_err (d : Decoder) (k : ErrorKind) : (d.fail k).err = k := rfl
@[simp] theorem Decoder.fail_buf (d : Decoder) (k : ErrorKind) : (d.fail k).buf = d.buf := rfl
@[simp] theorem Decoder.fail_msg (d : Decoder) (k : ErrorKind) : (d.fail k).msg = d.msg := rfl
@[simp] theorem Decoder.addToSum_pos (d : Decoder) (b : Byte) : (d.addToSum b).pos = d.pos := rfl
@[simp] theorem Decoder.addToSum_dlen (d : Decoder) (b : Byte) : (d.addToSum b).dlen = d.dlen := rfl
@[simp] theorem Decoder.addToSum_api (d : Decoder) (b : Byte) : (d.addToSum b).api = d.api := rfl
@[simp] theorem Decoder.addToSum_ck (d : Decoder) (b : Byte) : (d.addToSum b).ck = d.ck + zext16 b := rfl
@[simp] theorem Decoder.addToSum_esc (d : Decoder) (b : Byte) : (d.addToSum b).esc = d.esc := rfl
@[simp] theorem Decoder.addToSum_mfill (d : Decoder) (b : Byte) : (d.addToSum b).mfill = d.mfill := rfl
@[simp] theorem Decoder.addToSum_status (d : Decoder) (b : Byte) : (d.addToSum b).status = d.status := rfl
@[simp] theorem Decoder.addToSum_err (d : Decoder) (b : Byte) : (d.addToSum b).err = d.err := rfl
@[simp] theorem Decoder.addToSum_buf (d : Decoder) (b : Byte) : (d.addToSum b).buf = d.buf := rfl
@[simp] theorem Decoder.addToSum_msg (d : Decoder) (b : Byte) : (d.addToSum b).msg = d.msg := rfl
@[simp] theorem Decoder.pushMsg_pos (d : Decoder) (b : Byte) : (d.pushMsg b).pos = d.pos := rfl
@[simp] theorem Decoder.pushMsg_dlen (d : Decoder) (b : Byte) : (d.pushMsg b).dlen = d.dlen := rfl
@[simp] theorem Decoder.pushMsg_api (d : Decoder) (b : Byte) : (d.pushMsg b).api = d.api := rfl
@[simp] theorem Decoder.pushMsg_ck (d : Decoder) (b : Byte) : (d.pushMsg b).ck = d.ck := rfl
@[simp] theorem Decoder.pushMsg_esc (d : Decoder) (b : Byte) : (d.pushMsg b).esc = d.esc := rfl
@[simp] theorem Decoder.pushMsg_mfill (d : Decoder) (b : Byte) : (d.pushMsg b).mfill = d.mfill + 1 := rfl
@[simp] theorem Decoder.pushMsg_status (d : Decoder) (b : Byte) : (d.pushMsg b).status = d.status := rfl
@[simp] theorem Decoder.pushMsg_err (d : Decoder) (b : Byte) : (d.pushMsg b).err = d.err := rfl
@[simp] theorem Decoder.pushMsg_buf (d : Decoder) (b : Byte) : (d.pushMsg b).buf = d.buf := rfl
@[simp] theorem Decoder.pushMsg_msg (d : Decoder) (b : Byte) : (d.pushMsg b).msg = d.msg.write d.mfill.toNat b := rfl
@[simp] theorem Decoder.storeAdvance_dlen (c : Config) (d : Decoder) (b : Byte) : (d.storeAdvance c b).dlen = d.dlen := rfl
@[simp] theorem Decoder.storeAdvance_api (c : Config) (d : Decoder) (b : Byte) : (d.storeAdvance c b).api = d.api := rfl
@[simp] theorem Decoder.storeAdvance_ck (c : Config) (d : Decoder) (b : Byte) : (d.storeAdvance c b).ck = d.ck := rfl
@[simp] theorem Decoder.storeAdvance_esc (c : Config) (d : Decoder) (b : Byte) : (d.storeAdvance c b).esc = d.esc := rfl
@[simp] theorem Decoder.storeAdvance_mfill (c : Config) (d : Decoder) (b : Byte) : (d.storeAdvance c b).mfill = d.mfill := rfl
@[simp] theorem Decoder.storeAdvance_status (c : Config) (d : Decoder) (b : Byte) : (d.storeAdvance c b).status = d.status := rfl
@[simp] theorem Decoder.storeAdvance_err (c : Config) (d : Decoder) (b : Byte) : (d.storeAdvance c b).err = d.err := rfl
@[simp] theorem Decoder.storeAdvance_msg (c : Config) (d : Decoder) (b : Byte) : (d.storeAdvance c b).msg = d.msg := rfl
@[simp] theorem Decoder.storeAdvance_pos (c : Config) (d : Decoder) (b : Byte) : (d.storeAdvance c b).pos = d.pos + 1 := rfl
@[simp] theorem Decoder.storeAdvance_buf (c : Config) (d : Decoder) (b : Byte) : (d.storeAdvance c b).buf = d.bufStored c b := rfl

theorem Decoder.bufStored_in {c : Config} {d : Decoder} {b : Byte} (h : d.pos.toNat < c.maxFrameSize) :
    d.bufStored c b = d.buf.write d.pos.toNat b := if_pos h

theorem Decoder.bufStored_out {c : Config} {d : Decoder} {b : Byte} (h : c.maxFrameSize ≤ d.pos.toNat) :
    d.bufStored c b = d.buf := if_neg (Nat.not_lt.mpr h)

@[simp] theorem Decoder.zero_pos : Decoder.zero.pos = 0 := rfl
@[simp] theorem Decoder.zero_dlen : Decoder.zero.dlen = 0x00 := rfl
@[simp] theorem Decoder.zero_api : Decoder.zero.api = 0x00 := rfl
@[simp] theorem Decoder.zero_ck : Decoder.zero.ck = 0x0000 := rfl
@[simp] theorem Decoder.zero_esc : Decoder.zero.esc = false := rfl
@[simp] theorem Decoder.zero_mfill : Decoder.zero.mfill = 0 := rfl
@[simp] theorem Decoder.zero_status : Decoder.zero.status = .inProgress := rfl
@[simp] theorem Decoder.zero_err : Decoder.zero.err = .noError := rfl
@[simp] theorem Decoder.zero_buf : Decoder.zero.buf = [] := rfl
@[simp] theorem Decoder.zero_msg : Decoder.zero.msg = [] := rfl
@[simp] theorem Encoder.zero_ebusy : Encoder.zero.ebusy = false := rfl
@[simp] theorem Encoder.zero_ek : Encoder.zero.ek = 0 := rfl
@[simp] theorem Encoder.zero_eapi : Encoder.zero.eapi = 0x00 := rfl
@[simp] theorem Encoder.zero_en : Encoder.zero.en = 0 := rfl
@[simp] theorem Encoder.zero_eres : Encoder.zero.eres = .none := rfl
@[simp] theorem Encoder.zero_txp : Encoder.zero.txp = [] := rfl
@[simp] theorem Encoder.latch_ebusy (e : Encoder) (api n : Byte) (p : List Byte) : (e.latch api n p).ebusy = true := rfl
@[simp] theorem Encoder.latch_ek (e : Encoder) (api n : Byte) (p : List Byte) : (e.latch api n p).ek = 0 := rfl
@[simp] theorem Encoder.latch_eapi (e : Encoder) (api n : Byte) (p : List Byte) : (e.latch api n p).eapi = api := rfl
@[simp] theorem Encoder.latch_en (e : Encoder) (api n : Byte) (p : List Byte) : (e.latch api n p).en = n := rfl
@[simp] theorem Encoder.latch_eres (e : Encoder) (api n : Byte) (p : List Byte) : (e.latch api n p).eres = .none := rfl
@[simp] theorem Encoder.latch_txp (e : Encoder) (api n : Byte) (p : List Byte) : (e.latch api n p).txp = e.txp.writeAll 0 (p.take n.toNat) := rfl
@[simp] theorem Encoder.advance_ek (e : Encoder) : e.advance.ek = e.ek + 1 := by unfold Encoder.advance; split <;> rfl
@[simp] theorem Encoder.advance_eapi (e : Encoder) : e.advance.eapi = e.eapi := by unfold Encoder.advance; split <;> rfl
@[simp] theorem Encoder.advance_en (e : Encoder) : e.advance.en = e.en := by unfold Encoder.advance; split <;> rfl
@[simp] theorem Encoder.advance_txp (e : Encoder) : e.advance.txp = e.txp := by unfold Encoder.advance; split <;> rfl

@[simp] theorem State.withFetchWord_input (s : State) (nbits w : Nat) : (s.withFetchWord nbits w).input = inputForWord nbits w := rfl
@[simp] theorem State.withFetchWord_cfg (s : State) (nbits w : Nat) : (s.withFetchWord nbits w).cfg = s.cfg := rfl
@[simp] theorem State.withFetchWord_resetDone (s : State) (nbits w : Nat) : (s.withFetchWord nbits w).resetDone = s.resetDone := rfl
@[simp] theorem State.withFetchWord_dec (s : State) (nbits w : Nat) : (s.withFetchWord nbits w).dec = s.dec := rfl
@[simp] theorem State.withFetchWord_enc (s : State) (nbits w : Nat) : (s.withFetchWord nbits w).enc = s.enc := rfl
@[simp] theorem State.withFetchWord_out (s : State) (nbits w : Nat) : (s.withFetchWord nbits w).out = s.out := rfl

end Sys2Proof.Machine
end

