-- ==== Sys2Proof/Laws/Decoder.lean ====
section
/-! SUPPORT. What DEC.FEED can do, said once: the three ways out of S1 to S3, and the ways of S5 (R100). -/

namespace Sys2Proof.Machine

theorem Decoder.lazyReset_inProgress {d : Decoder} (h : d.status = .inProgress) : d.lazyReset = d := by
  simp [Decoder.lazyReset, h]

theorem Decoder.lazyReset_terminal {d : Decoder} (h : d.status ≠ .inProgress) : d.lazyReset = Decoder.zero := by
  simp [Decoder.lazyReset, h]

/-- After S1 the decoder is in progress. -/
@[simp] theorem Decoder.lazyReset_status (d : Decoder) : d.lazyReset.status = .inProgress := by
  unfold Decoder.lazyReset; split
  · assumption
  · rfl

@[simp] theorem Decoder.lazyReset_lazyReset (d : Decoder) : d.lazyReset.lazyReset = d.lazyReset :=
  Decoder.lazyReset_inProgress d.lazyReset_status

@[simp] theorem Decoder.opened_pos (d : Decoder) : d.opened.pos = d.lazyReset.pos := rfl
@[simp] theorem Decoder.opened_dlen (d : Decoder) : d.opened.dlen = d.lazyReset.dlen := rfl
@[simp] theorem Decoder.opened_api (d : Decoder) : d.opened.api = d.lazyReset.api := rfl
@[simp] theorem Decoder.opened_ck (d : Decoder) : d.opened.ck = d.lazyReset.ck := rfl
@[simp] theorem Decoder.opened_esc (d : Decoder) : d.opened.esc = false := rfl
@[simp] theorem Decoder.opened_mfill (d : Decoder) : d.opened.mfill = d.lazyReset.mfill := rfl
@[simp] theorem Decoder.opened_status (d : Decoder) : d.opened.status = .inProgress := d.lazyReset_status
@[simp] theorem Decoder.opened_err (d : Decoder) : d.opened.err = d.lazyReset.err := rfl
@[simp] theorem Decoder.opened_buf (d : Decoder) : d.opened.buf = d.lazyReset.buf := rfl
@[simp] theorem Decoder.opened_msg (d : Decoder) : d.opened.msg = d.lazyReset.msg := rfl

/-- The escape code is its own inverse (R103). -/
theorem xor_escMask_twice (b : Byte) : (b ^^^ escMask) ^^^ escMask = b := by
  rw [BitVec.xor_assoc]; simp

@[simp] theorem Decoder.logicalByte_logicalByte (d : Decoder) (b : Byte) : d.logicalByte (d.logicalByte b) = b := by
  unfold Decoder.logicalByte
  split
  · exact xor_escMask_twice b
  · rfl

/-- The carrier of `b` gives `b` (R103). -/
theorem Decoder.logicalByte_carrier (d : Decoder) (b : Byte) : d.lazyReset.logicalByte (d.carrier b) = b :=
  Decoder.logicalByte_logicalByte _ b

/-- S1: a feed is a feed of the decoder after its lazy reset (R101). -/
theorem Decoder.feed_lazyReset (c : Config) (d : Decoder) (raw : Byte) : d.lazyReset.feed c raw = d.feed c raw := by
  simp [Decoder.feed]

/-- S2a (R102). -/
theorem Decoder.feed_marker {c : Config} {d : Decoder} {raw : Byte} (hp : 0 < d.lazyReset.pos.toNat) (hr : raw = escMarker) :
    d.feed c raw = ({ d.lazyReset with esc := true }, .needMore) := by
  simp only [Decoder.feed]; rw [if_pos ⟨hp, hr⟩]

/-- S3 (R104, R105). -/
theorem Decoder.feed_abort {c : Config} {d : Decoder} {raw : Byte} (hp : 0 < d.lazyReset.pos.toNat) (hr : raw ≠ escMarker)
    (hg : guardByte c raw (d.lazyReset.logicalByte raw) = startByte) : d.feed c raw = d.opened.abortFrame c := by
  simp only [Decoder.feed]; rw [if_neg (fun h => hr h.2), if_pos ⟨hp, hg⟩]; rfl

/-- S4 to S6. -/
theorem Decoder.feed_take {c : Config} {d : Decoder} {raw : Byte}
    (h : d.lazyReset.pos.toNat = 0 ∨ (raw ≠ escMarker ∧ guardByte c raw (d.lazyReset.logicalByte raw) ≠ startByte)) :
    d.feed c raw = d.opened.takeLogical c (d.lazyReset.logicalByte raw) := by
  have h1 : ¬ (0 < d.lazyReset.pos.toNat ∧ raw = escMarker) := by
    rintro ⟨hp, hr⟩; rcases h with h | h
    · omega
    · exact h.1 hr
  have h2 : ¬ (0 < d.lazyReset.pos.toNat ∧ guardByte c raw (d.lazyReset.logicalByte raw) = startByte) := by
    rintro ⟨hp, hg⟩; rcases h with h | h
    · omega
    · exact h.2 hg
  simp only [Decoder.feed]; rw [if_neg h1, if_neg h2]; rfl

/-- The three ways out of S1 to S3. -/
theorem Decoder.feed_cases (c : Config) (d : Decoder) (raw : Byte) :
    (0 < d.lazyReset.pos.toNat ∧ raw = escMarker ∧ d.feed c raw = ({ d.lazyReset with esc := true }, .needMore)) ∨
    (0 < d.lazyReset.pos.toNat ∧ raw ≠ escMarker ∧ guardByte c raw (d.lazyReset.logicalByte raw) = startByte ∧
      d.feed c raw = d.opened.abortFrame c) ∨
    ((d.lazyReset.pos.toNat = 0 ∨ (raw ≠ escMarker ∧ guardByte c raw (d.lazyReset.logicalByte raw) ≠ startByte)) ∧
      d.feed c raw = d.opened.takeLogical c (d.lazyReset.logicalByte raw)) := by
  by_cases hp : d.lazyReset.pos.toNat = 0
  · exact .inr (.inr ⟨.inl hp, Decoder.feed_take (.inl hp)⟩)
  · have hp' : 0 < d.lazyReset.pos.toNat := Nat.pos_of_ne_zero hp
    by_cases hr : raw = escMarker
    · exact .inl ⟨hp', hr, Decoder.feed_marker hp' hr⟩
    · by_cases hg : guardByte c raw (d.lazyReset.logicalByte raw) = startByte
      · exact .inr (.inl ⟨hp', hr, hg, Decoder.feed_abort hp' hr hg⟩)
      · exact .inr (.inr ⟨.inr ⟨hr, hg⟩, Decoder.feed_take (.inr ⟨hr, hg⟩)⟩)

/-- S5 at pos 0 (R107). -/
theorem Decoder.takeLogical_zero {c : Config} {d : Decoder} {b : Byte} (h : d.pos.toNat = 0) :
    d.takeLogical c b = (if b = startByte then d.storeAdvance c b else d, .needMore) := by
  simp only [Decoder.takeLogical, h, if_true]

/-- S5 at pos 1 (R108). -/
theorem Decoder.takeLogical_one {c : Config} {d : Decoder} {b : Byte} (h : d.pos.toNat = 1) :
    d.takeLogical c b = (d.storeAdvance c b, .needMore) := by
  simp [Decoder.takeLogical, h]

/-- S5 at pos 2 (R109). -/
theorem Decoder.takeLogical_two {c : Config} {d : Decoder} {b : Byte} (h : d.pos.toNat = 2) :
    d.takeLogical c b = ({ d with dlen := b }.storeAdvance c b, .needMore) := by
  simp [Decoder.takeLogical, h]

/-- S4 and S5 at pos 3 (R106, R110). -/
theorem Decoder.takeLogical_three {c : Config} {d : Decoder} {b : Byte} (h : d.pos.toNat = 3) :
    d.takeLogical c b = ({ d.addToSum b with api := b }.storeAdvance c b, .needMore) := by
  simp [Decoder.takeLogical, h]

/-- S4 and S5 at pos 4 and above (R106, R111). -/
theorem Decoder.takeLogical_data {c : Config} {d : Decoder} {b : Byte} (h : 4 ≤ d.pos.toNat) :
    d.takeLogical c b = (d.addToSum b).takeData c b := by
  unfold Decoder.takeLogical
  rw [if_neg (by omega), if_neg (by omega), if_neg (by omega), if_neg (by omega)]

/-- S5a (R113). -/
theorem Decoder.takeData_tooLarge {c : Config} {d : Decoder} {b : Byte} (h : c.maxFrameSize < d.pos.toNat) :
    d.takeData c b = (d.fail .frameTooLarge, .error .frameTooLarge) := by
  simp [Decoder.takeData, h]

/-- S5b then S6: a message byte is never the checksum (R111, R112). -/
theorem Decoder.takeData_message {c : Config} {d : Decoder} {b : Byte} (h : d.pos.toNat ≤ c.maxFrameSize)
    (hm : d.inMessage c = true) : d.takeData c b = ((d.pushMsg b).storeAdvance c b, .needMore) := by
  have hlt : d.pos.toNat < d.dlen.toNat + 3 := by
    simp only [Decoder.inMessage, Bool.and_eq_true, decide_eq_true_eq] at hm; exact hm.2
  have hne : ¬ (d.pushMsg b).pos.toNat = (d.pushMsg b).dlen.toNat + 3 := by simp; omega
  unfold Decoder.takeData Decoder.takeMessage
  rw [if_neg (by omega), if_pos hm]
  simp only [Decoder.finalise]
  rw [if_neg hne]

/-- S5c then S6 (R114, R115). -/
theorem Decoder.takeData_final {c : Config} {d : Decoder} {b : Byte} (h : d.pos.toNat ≤ c.maxFrameSize)
    (hp : d.pos.toNat = d.dlen.toNat + 3) :
    d.takeData c b =
      if d.sumValid then
        ({ d with status := .complete, err := .noError }.storeAdvance c b, .frameReady d.api d.message)
      else ((d.fail .checksumFailure).storeAdvance c b, .error .checksumFailure) := by
  have hm : ¬ d.inMessage c = true := by
    simp only [Decoder.inMessage, Bool.and_eq_true, decide_eq_true_eq]; omega
  unfold Decoder.takeData Decoder.takeMessage
  rw [if_neg (by omega), if_neg hm]
  simp only [Decoder.finalise]
  rw [if_pos hp]
  split <;> rfl

/-- S6 alone: a data byte that is neither message nor checksum (R111, R115). -/
theorem Decoder.takeData_plain {c : Config} {d : Decoder} {b : Byte} (h : d.pos.toNat ≤ c.maxFrameSize)
    (hm : d.inMessage c = false) (hp : d.pos.toNat ≠ d.dlen.toNat + 3) :
    d.takeData c b = (d.storeAdvance c b, .needMore) := by
  unfold Decoder.takeData Decoder.takeMessage
  rw [if_neg (by omega), if_neg (by simp [hm])]
  simp only [Decoder.finalise]
  rw [if_neg hp]

/-- A step that feeds: a fault, or the decoded state. -/
theorem State.feed_next {raw : Byte} {s t : State} (h : s.feed raw = .next t) :
    s.dec.overrunsMsg s.cfg raw = false ∧ t = s.decoded (s.dec.feed s.cfg raw) := by
  unfold State.feed at h
  split at h
  · cases h
  · rename_i ho
    injection h with h
    exact ⟨by simpa using ho, h.symm⟩

theorem State.feed_of_no_overrun {raw : Byte} {s : State} (h : s.dec.overrunsMsg s.cfg raw = false) :
    s.feed raw = .next (s.decoded (s.dec.feed s.cfg raw)) := by
  simp [State.feed, h]

/-- Where the array has the index `mfill`, a feed never faults (R112). -/
theorem Decoder.overrunsMsg_of_room {c : Config} {d : Decoder} {raw : Byte} (h : d.lazyReset.mfill.toNat < c.msgCap) :
    d.overrunsMsg c raw = false := by
  have : ¬ c.msgCap ≤ d.lazyReset.mfill.toNat := by omega
  simp [Decoder.overrunsMsg, this]

end Sys2Proof.Machine
end

