-- ==== Sys2Proof/Laws/DecCases.lean ====
section
/-! SUPPORT. The dispatch cases of DEC.FEED: a feed is the effect of the case its byte selects, and every dec-case row is a feed. -/

namespace Sys2Proof.Machine

theorem exec_decFeed (b : Byte) (s : State) : exec (.decFeed b) s = s.feed b := rfl

/-- The effect of a case on the decoder, and its event (the table's `effect` column) -/
def DecCase.result (k : DecCase) (c : Config) (d : Decoder) (x : Byte) : Decoder × Event :=
  match k with
  | .syncHit => (d.opened.storeAdvance c startByte, .needMore)
  | .syncMiss => (d.opened, .needMore)
  | .esc => ({ d.lazyReset with esc := true }, .needMore)
  | .abort => d.opened.abortFrame c
  | .lenhi => (d.opened.storeAdvance c x, .needMore)
  | .lenlo => ({ d.opened with dlen := x }.storeAdvance c x, .needMore)
  | .api => ({ d.opened with api := x, ck := d.opened.ck + zext16 x }.storeAdvance c x, .needMore)
  | .toolarge => ((d.opened.addToSum x).fail .frameTooLarge, .error .frameTooLarge)
  | .data => ((d.opened.addToSum x).storeAdvance c x, .needMore)
  | .msg => (((d.opened.addToSum x).pushMsg x).storeAdvance c x, .needMore)
  | .finalOk => ({ d.opened.addToSum x with status := .complete, err := .noError }.storeAdvance c x, .frameReady d.opened.api d.opened.message)
  | .finalBad => (((d.opened.addToSum x).fail .checksumFailure).storeAdvance c x, .error .checksumFailure)

/-- DEC.FEED is the effect of the one case its byte selects. -/
theorem Decoder.feed_eq_result (c d raw) : Decoder.feed c d raw = DecCase.result (decCase c d raw) c d (caseByte (decCase c d raw) d raw) := by
  rcases Decoder.feed_cases c d raw with ⟨hp, hr, h⟩ | ⟨hp, hr, hg, h⟩ | ⟨h0, h⟩
  · have : decCase c d raw = .esc := by
      simp only [decCase]; rw [if_neg (by omega), if_pos hr]
    rw [this, h]; rfl
  · have : decCase c d raw = .abort := by
      simp only [decCase]; rw [if_neg (by omega), if_neg hr, if_pos hg]
    rw [this, h]; rfl
  · rw [h]
    by_cases hp : d.lazyReset.pos.toNat = 0
    · rw [Decoder.takeLogical_zero (by simpa using hp)]
      simp only [decCase]; rw [if_pos hp]
      split
      · rename_i hb; rw [hb]; rfl
      · rfl
    · have hr := (h0.resolve_left hp)
      simp only [decCase]; rw [if_neg hp, if_neg hr.1, if_neg hr.2]
      by_cases h1 : d.lazyReset.pos.toNat = 1
      · rw [if_pos h1, Decoder.takeLogical_one (by simpa using h1)]; rfl
      rw [if_neg h1]
      by_cases h2 : d.lazyReset.pos.toNat = 2
      · rw [if_pos h2, Decoder.takeLogical_two (by simpa using h2)]; rfl
      rw [if_neg h2]
      by_cases h3 : d.lazyReset.pos.toNat = 3
      · rw [if_pos h3, Decoder.takeLogical_three (by simpa using h3)]; rfl
      rw [if_neg h3, Decoder.takeLogical_data (by simp; omega)]
      by_cases hM : c.maxFrameSize < d.lazyReset.pos.toNat
      · rw [if_pos hM, Decoder.takeData_tooLarge (d := d.opened.addToSum _) (by simpa using hM)]; rfl
      rw [if_neg hM]
      by_cases hf : d.lazyReset.pos.toNat = d.lazyReset.dlen.toNat + 3
      · rw [if_pos hf, Decoder.takeData_final (d := d.opened.addToSum _) (by simpa using hM) (by simpa using hf)]
        by_cases hs : low8 (d.lazyReset.ck + zext16 (d.lazyReset.logicalByte raw)) = 0xFF
        · rw [if_pos hs, if_pos (by simpa [Decoder.sumValid] using hs)]; rfl
        · rw [if_neg hs, if_neg (by simpa [Decoder.sumValid] using hs)]; rfl
      rw [if_neg hf]
      by_cases hm : d.lazyReset.inMessage c = true
      · rw [if_pos hm, Decoder.takeData_message (d := d.opened.addToSum _) (by simpa using hM) hm]; rfl
      · rw [if_neg hm, Decoder.takeData_plain (d := d.opened.addToSum _) (by simpa using hM) (Bool.eq_false_iff.mpr hm) (by simpa using hf)]; rfl

/-- Only a message byte can fall outside `Msg`. -/
theorem decCase_of_overruns {c : Config} {d : Decoder} {raw : Byte} (h : d.overrunsMsg c raw = true) : decCase c d raw = .msg := by
  simp only [Decoder.overrunsMsg, Bool.and_eq_true, Bool.not_eq_true', beq_eq_false_iff_ne, decide_eq_true_eq] at h
  obtain ⟨⟨⟨⟨⟨hr, hg⟩, h4⟩, hM⟩, hm⟩, -⟩ := h
  have hl : d.lazyReset.pos.toNat < d.lazyReset.dlen.toNat + 3 := by
    simp only [Decoder.inMessage, Bool.and_eq_true, decide_eq_true_eq] at hm; exact hm.2
  simp only [decCase]
  rw [if_neg (by omega), if_neg hr, if_neg hg, if_neg (by omega), if_neg (by omega), if_neg (by omega), if_neg (by omega), if_neg (by omega), if_pos hm]

theorem Decoder.overrunsMsg_of_case {c : Config} {d : Decoder} {raw : Byte} (h : decCase c d raw ≠ .msg) : d.overrunsMsg c raw = false := by
  cases ho : d.overrunsMsg c raw
  · rfl
  · exact absurd (decCase_of_overruns ho) h

theorem State.asCase_eq_feed {k x} {s : State} (hne : k ≠ .msg) : s.asCase k x (DecCase.result k s.cfg s.dec x) = s.feed (caseRaw k s.cfg s.dec x) := by
  unfold State.asCase
  simp only
  split
  · rename_i h
    rw [State.feed_of_no_overrun (Decoder.overrunsMsg_of_case (by rw [h]; exact hne)), Decoder.feed_eq_result, h]
    cases k <;> simp_all [caseByte, caseRaw, Decoder.logicalByte_carrier, DecCase.result]
  · rfl

/-- A dec-case row is a feed of the raw byte that carries its byte. -/
theorem exec_case (s : State) (k : DecCase) (x : Byte) : exec (k.instr x) s = s.feed (caseRaw k s.cfg s.dec x) := by
  by_cases hk : k = .msg
  · subst hk
    show (if s.dec.overrunsMsg s.cfg (caseRaw .msg s.cfg s.dec x) then _ else s.asCase .msg x (DecCase.result .msg s.cfg s.dec x)) = _
    unfold State.asCase State.feed
    split
    · rfl
    · simp only
      split
      · rename_i h
        rw [Decoder.feed_eq_result, h]
        simp [caseByte, caseRaw, Decoder.logicalByte_carrier]
      · rfl
  · cases k
    case syncHit => exact State.asCase_eq_feed (k := .syncHit) (x := startByte) hk
    case esc => exact State.asCase_eq_feed (k := .esc) (x := escMarker) hk
    case abort => exact State.asCase_eq_feed (k := .abort) (x := startByte) hk
    case msg => exact absurd rfl hk
    all_goals exact State.asCase_eq_feed hk

/-- The row's byte, carried, is the raw byte. -/
theorem caseRaw_caseByte (c : Config) (d : Decoder) (raw : Byte) :
    caseRaw (decCase c d raw) c d (caseByte (decCase c d raw) d raw) = raw := by
  have hx : ∀ b : Byte, d.lazyReset.logicalByte raw = b → d.carrier b = raw := by
    rintro b rfl; simp [Decoder.carrier]
  simp only [decCase]
  split
  · split
    · rename_i h; exact hx _ h
    · rfl
  split
  · rename_i h; exact h.symm
  split
  · rename_i h
    simp only [caseRaw]
    simp only [guardByte] at h
    split <;> rename_i hg <;> rw [hg] at h
    · exact h.symm
    · exact hx _ h
  all_goals (repeat' split) <;> exact hx _ rfl

theorem State.feed_of_case {s : State} {raw : Byte} {r} (ho : decCase s.cfg s.dec raw ≠ .msg) (h : s.dec.feed s.cfg raw = r) : s.feed raw = .next (s.decoded r) := by
  rw [State.feed_of_no_overrun (Decoder.overrunsMsg_of_case ho), h]

theorem pos_of_syncMiss {c : Config} {d : Decoder} {raw : Byte} (h : decCase c d raw = .syncMiss) : d.lazyReset.pos.toNat = 0 := by
  by_contra hc
  simp only [decCase] at h; rw [if_neg hc] at h
  repeat' split at h
  all_goals cases h

theorem raw_of_esc {c : Config} {d : Decoder} {raw : Byte} (h : decCase c d raw = .esc) : raw = escMarker := by
  by_contra hc
  simp only [decCase] at h; rw [if_neg hc] at h
  repeat' split at h
  all_goals cases h

/-- The state after a feed, by case. -/
theorem exec_decFeed_next {s t : State} {raw} (h : exec (.decFeed raw) s = .next t) : 
   t = s.decoded (DecCase.result (decCase s.cfg s.dec raw) s.cfg s.dec (caseByte (decCase s.cfg s.dec raw) s.dec raw)) := by
  rw [(State.feed_next h).2, Decoder.feed_eq_result]

theorem Decoder.overrunsMsg_marker (s : State) : s.dec.overrunsMsg s.cfg escMarker = false := by simp [Decoder.overrunsMsg]

theorem Decoder.feed_marker_needMore (c : Config) (d : Decoder) : (d.feed c escMarker).2 = .needMore := by
  rcases Decoder.feed_cases c d escMarker with ⟨_, _, h⟩ | ⟨_, h, _⟩ | ⟨h, h2⟩
  · rw [h]
  · exact absurd rfl h
  · rcases h with h | ⟨h, _⟩
    · rw [h2, Decoder.takeLogical_zero (by simpa using h)]
    · exact absurd rfl h

/-- What the selected case says of the decoder's position, sum and message region. -/
def DecCase.Facts (k : DecCase) (c : Config) (e : Decoder) (b : Byte) : Prop :=
  match k with
  | .syncHit => e.pos.toNat = 0
  | .syncMiss => e.pos.toNat = 0
  | .esc => 0 < e.pos.toNat
  | .abort => 0 < e.pos.toNat
  | .lenhi => e.pos.toNat = 1
  | .lenlo => e.pos.toNat = 2
  | .api => e.pos.toNat = 3
  | .toolarge => 4 ≤ e.pos.toNat ∧ c.maxFrameSize < e.pos.toNat
  | .data => 4 ≤ e.pos.toNat ∧ e.pos.toNat ≤ c.maxFrameSize ∧ e.pos.toNat ≠ e.dlen.toNat + 3 ∧ e.inMessage c = false
  | .msg => 4 ≤ e.pos.toNat ∧ e.pos.toNat ≤ c.maxFrameSize ∧ e.pos.toNat ≠ e.dlen.toNat + 3 ∧ e.inMessage c = true
  | .finalOk => 4 ≤ e.pos.toNat ∧ e.pos.toNat ≤ c.maxFrameSize ∧ e.pos.toNat = e.dlen.toNat + 3 ∧ low8 (e.ck + zext16 b) = 0xFF
  | .finalBad => 4 ≤ e.pos.toNat ∧ e.pos.toNat ≤ c.maxFrameSize ∧ e.pos.toNat = e.dlen.toNat + 3 ∧ low8 (e.ck + zext16 b) ≠ 0xFF

/-- The selected case holds its facts. -/
theorem decCase_facts (c : Config) (d : Decoder) (raw : Byte) :
    DecCase.Facts (decCase c d raw) c d.lazyReset (d.lazyReset.logicalByte raw) := by
  simp only [decCase]
  split
  · rename_i hh; split <;> exact hh
  split
  · show 0 < _; omega
  split
  · show 0 < _; omega
  split; · exact ‹_›
  split; · exact ‹_›
  split; · exact ‹_›
  split
  · exact ⟨by omega, by omega⟩
  split
  · split
    · exact ⟨by omega, by omega, ‹_›, ‹_›⟩
    · exact ⟨by omega, by omega, ‹_›, ‹_›⟩
  split
  · exact ⟨by omega, by omega, ‹_›, ‹_›⟩
  · exact ⟨by omega, by omega, ‹_›, Bool.eq_false_iff.mpr ‹_›⟩

theorem caseByte_eq_logicalByte {k : DecCase} (h : k ≠ .syncHit ∧ k ≠ .syncMiss ∧ k ≠ .esc ∧ k ≠ .abort) (d : Decoder) (raw) : caseByte k d raw = d.lazyReset.logicalByte raw := by
  cases k <;> simp_all [caseByte]

/-- The constraint of R6, as numbers. -/
theorem Config.bounds {c : Config} (h : c.wf = true) : 4 ≤ c.receivedDataIdx ∧ c.receivedDataIdx ≤ c.maxFrameSize ∧ c.maxFrameSize ≤ 65533 := by
  simpa [Config.wf, and_assoc] using h

theorem Decoder.seeded_eq (c : Config) (h : 0 < c.maxFrameSize) : Decoder.seeded c = { Decoder.zero with pos := 1, buf := [(0, startByte)] } := by
  unfold Decoder.seeded Decoder.storeAdvance
  rw [Decoder.bufStored_in (by simpa using h)]; rfl

theorem Decoder.opened_eq {d : Decoder} (hl : d.lazyReset = d) : d.opened = { d with esc := false } := by rw [Decoder.opened, hl]

/-- What delivering a byte says. -/
theorem Decoder.Delivers.facts {c : Config} {d : Decoder} {raw b : Byte} (h : d.Delivers c raw b) :
    d.lazyReset = d ∧ d.logicalByte raw = b ∧ d.carrier b = raw ∧ guardByte c raw b ≠ startByte ∧ raw ≠ escMarker ∧ 0 < d.pos.toNat := by
  obtain ⟨hs, hp, hr, hg, hb⟩ := h
  have hl := Decoder.lazyReset_inProgress hs
  have hlb : d.logicalByte raw = b := by rw [hb]; rfl
  refine ⟨hl, hlb, ?_, hg, hr, hp⟩
  · rw [Decoder.carrier, hl, ← hlb]; simp

/-- The case of a delivered byte. -/
theorem Decoder.Delivers.decCase_eq {c : Config} {d : Decoder} {raw b : Byte} (h : d.Delivers c raw b) :
    decCase c d raw =
      if d.pos.toNat = 1 then .lenhi
      else if d.pos.toNat = 2 then .lenlo
      else if d.pos.toNat = 3 then .api
      else if c.maxFrameSize < d.pos.toNat then .toolarge
      else if d.pos.toNat = d.dlen.toNat + 3 then (if low8 (d.ck + zext16 b) = 0xFF then .finalOk else .finalBad)
      else if d.inMessage c then .msg else .data := by
  obtain ⟨hl, hlb, -, hg, hr, hp⟩ := Decoder.Delivers.facts h
  simp only [decCase]
  rw [hl, hlb, if_neg (by omega), if_neg hr, if_neg hg]

/-- A delivered byte, by feed or by row, has the effect of its case. -/
theorem Decoder.Delivers.exec_eq {s : State} {raw b : Byte} (hd : s.dec.Delivers s.cfg raw b) {k : DecCase} (hk : decCase s.cfg s.dec raw = k)
    (hmsg : k = .msg → s.dec.mfill.toNat < s.cfg.msgCap) (hc : caseRaw k s.cfg s.dec b = s.dec.carrier b) (hcb : caseByte k s.dec raw = s.dec.lazyReset.logicalByte raw) :
    ∀ i, (i = .decFeed raw ∨ i = k.instr b) → exec i s = .next (s.decoded (DecCase.result k s.cfg s.dec b)) := by
  obtain ⟨hl, hlb, hca, hg, hr, hp⟩ := Decoder.Delivers.facts hd
  have hf : s.feed raw = .next (s.decoded (DecCase.result k s.cfg s.dec b)) := by
    have : s.dec.overrunsMsg s.cfg raw = false := by
      by_cases h : k = .msg
      · exact Decoder.overrunsMsg_of_room (by rw [hl]; exact hmsg h)
      · exact Decoder.overrunsMsg_of_case (by rw [hk]; exact h)
    rw [State.feed_of_no_overrun this, Decoder.feed_eq_result, hk, hcb, hl, hlb]
  rintro i (rfl | rfl)
  · exact hf
  · rw [exec_case, hc, hca]; exact hf

theorem Decoder.Delivers.feed_eq {c : Config} {d : Decoder} {raw b : Byte} (h : d.Delivers c raw b) :
    d.feed c raw = ({ d with esc := false } : Decoder).takeLogical c b := by
  obtain ⟨hl, hlb, -, hg, hr, hp⟩ := Decoder.Delivers.facts h
  rw [Decoder.feed_take (.inr ⟨hr, by rw [hl, hlb]; exact hg⟩), hl, hlb, Decoder.opened_eq hl]

end Sys2Proof.Machine
end

