-- ==== Sys2Proof/Laws/Decode.lean ====
section
/-! SUPPORT. Facts about the record decoder and the script decoder (R81, R82). -/

namespace Sys2Proof

/-- A reserved op byte is the encoding of its row. -/
theorem reservedRow_encode (op : Byte) (h : 8 ≤ op.toNat) : encode (reservedRow op) = [op] := by
  revert h; revert op; decide

theorem reservedRow_isOperation (op : Byte) : (reservedRow op).isOperation = false := by
  unfold reservedRow; split <;> [rfl; split <;> [rfl; split <;> [rfl; split <;> rfl]]]

theorem reservedRow_wf (op : Byte) : (reservedRow op).wf = true := by
  unfold reservedRow; split <;> [rfl; split <;> [rfl; split <;> [rfl; split <;> rfl]]]

theorem reservedRow_format (op : Byte) : (reservedRow op).format = .record := by
  unfold reservedRow; split <;> [rfl; split <;> [rfl; split <;> [rfl; split <;> rfl]]]

/-- An op byte 08 or above decodes to its RESERVED row. -/
theorem decodeRecord_reserved (op : Byte) (h : 8 ≤ op.toNat) (bs : List Byte) : decodeRecord (op :: bs) = .ok (reservedRow op) bs := by
  have : ∀ k : Byte, k.toNat < 8 → op ≠ k := by
    intro k hk e; subst e; omega
  simp only [decodeRecord]
  rw [if_neg (this _ (by decide)), if_neg (this _ (by decide)), if_neg (this _ (by decide)), if_neg (this _ (by decide)), if_neg (this _ (by decide)), if_neg (this _ (by decide)), if_neg (this _ (by decide)), if_neg (this _ (by decide))]

/-- A record decodes to its operation. -/
theorem decodeRecord_encode (i : Instr) (rest : List Byte) (hwf : i.wf = true) (ho : i.isOperation = true) :
    decodeRecord (encode i ++ rest) = .ok i rest := by
  cases i <;> first | rfl | exact absurd ho Bool.false_ne_true | skip
  case encRequest api n p =>
    have hl : p.length = n.toNat := by simpa [Instr.wf] using hwf
    have h1 : n.toNat ≤ (p ++ rest).length := by simp; omega
    have h2 : (p ++ rest).take n.toNat = p := by rw [← hl]; simp
    have h3 : (p ++ rest).drop n.toNat = rest := by rw [← hl]; simp
    simp only [encode, decodeRecord, decodeRequest, List.cons_append]
    simp only [h2, h3, if_pos h1]; rfl

theorem encode_ne_nil (i : Instr) : encode i ≠ [] := by cases i <;> simp [encode]

/-- Good records in front of a script leave the decoding of the rest, put behind them. -/
theorem decodeRecords_append (ops : List Instr) (hops : ∀ i ∈ ops, i.wf = true ∧ i.isOperation = true) (tail : List Byte) (fuel : Nat)
    (hf : (encodeScript ops ++ tail).length ≤ fuel) :
    ∃ f', tail.length ≤ f' ∧ decodeRecords fuel (encodeScript ops ++ tail) = ops.foldr Script.cons (decodeRecords f' tail) := by
  induction ops generalizing fuel with
  | nil => exact ⟨fuel, by simpa [encodeScript] using hf, rfl⟩
  | cons i ops ih =>
    have h1 := hops i (by simp)
    have hd := decodeRecord_encode i (encodeScript ops ++ tail) h1.1 h1.2
    have hne := encode_ne_nil i
    have e : encodeScript (i :: ops) ++ tail = encode i ++ (encodeScript ops ++ tail) := by simp [encodeScript]
    rw [e] at hf ⊢
    obtain ⟨b, bs, hb⟩ := List.exists_cons_of_ne_nil hne
    rw [hb] at hf hd ⊢
    cases fuel with
    | zero => simp at hf
    | succ fuel =>
      obtain ⟨f', hf', hr⟩ := ih (fun j hj => hops j (by simp [hj])) fuel (by simp at hf ⊢; omega)
      refine ⟨f', hf', ?_⟩
      simp only [List.cons_append] at hd ⊢
      simp only [decodeRecords, hd, h1.2, if_true, hr, List.foldr_cons]

theorem Script.foldr_cons_ok (ops ops' : List Instr) : ops.foldr Script.cons (.ok ops') = .ok (ops ++ ops') := by
  induction ops with
  | nil => rfl
  | cons i ops ih => simp [ih, Script.cons]

theorem Script.foldr_cons_invalid (ops : List Instr) (w) : ops.foldr Script.cons (.invalid w) = .invalid w := by
  induction ops with
  | nil => rfl
  | cons i ops ih => simp [ih, Script.cons]

end Sys2Proof
end

