-- ==== Sys2Proof/Laws/Exec.lean ====
section
/-! SUPPORT. What exec can do, said once: frames of the two units, and their independence (R61, R216). -/

namespace Sys2Proof.Machine

theorem State.feed_frame {raw} {s t : State} (h : s.feed raw = .next t) : t.enc = s.enc ∧ t.cfg = s.cfg ∧ t.input = s.input ∧ t.resetDone = s.resetDone := by
  rw [(State.feed_next h).2]; exact ⟨rfl, rfl, rfl, rfl⟩

/-- Every byte-taking instruction is one feed, or two. -/
theorem exec_takesByte {i : Instr} (h : i.takesByte = true) (s : State) :
    (∃ raw, exec i s = s.feed raw) ∨ (∃ x, i = .wireEscpair x ∧ exec i s = (match s.feed escMarker with | .next t => t.feed x | .fault r => .fault r | .refused r => .refused r)) := by
  cases i <;> try (first | exact absurd h Bool.false_ne_true | exact absurd h.symm Bool.false_ne_true)
  case decFeed => exact .inl ⟨_, rfl⟩
  case wireSof => exact .inl ⟨_, rfl⟩
  case wireEsc => exact .inl ⟨escMarker, rfl⟩
  case wireXon => exact .inl ⟨_, rfl⟩
  case wireXoff => exact .inl ⟨_, rfl⟩
  case wireData => exact .inl ⟨_, rfl⟩
  case wireEscpair x => exact .inr ⟨x, rfl, rfl⟩
  case decSyncHit => exact .inl ⟨_, exec_case s .syncHit 0⟩
  case decSyncMiss x => exact .inl ⟨_, exec_case s .syncMiss x⟩
  case decEsc => exact .inl ⟨_, exec_case s .esc 0⟩
  case decAbort => exact .inl ⟨_, exec_case s .abort 0⟩
  case decLenhi x => exact .inl ⟨_, exec_case s .lenhi x⟩
  case decLenlo x => exact .inl ⟨_, exec_case s .lenlo x⟩
  case decApi x => exact .inl ⟨_, exec_case s .api x⟩
  case decToolarge x => exact .inl ⟨_, exec_case s .toolarge x⟩
  case decData x => exact .inl ⟨_, exec_case s .data x⟩
  case decMsg x => exact .inl ⟨_, exec_case s .msg x⟩
  case decFinalOk x => exact .inl ⟨_, exec_case s .finalOk x⟩
  case decFinalBad x => exact .inl ⟨_, exec_case s .finalBad x⟩

theorem exec_takesByte_next {i : Instr} (h : i.takesByte = true) {s t : State} (hx : exec i s = .next t) :
    (∃ raw, s.feed raw = .next t) ∨ (∃ x u, i = .wireEscpair x ∧ s.feed escMarker = .next u ∧ u.feed x = .next t) := by
  rcases exec_takesByte h s with ⟨raw, e⟩ | ⟨x, hi, e⟩
  · exact .inl ⟨raw, e ▸ hx⟩
  · rw [e] at hx
    split at hx
    · exact .inr ⟨x, _, hi, ‹_›, hx⟩
    · cases hx
    · cases hx

theorem exec_takesByte_frame {i : Instr} (h : i.takesByte = true) {s t : State} (hx : exec i s = .next t) :
    t.enc = s.enc ∧ t.cfg = s.cfg ∧ t.input = s.input ∧ t.resetDone = s.resetDone := by
  rcases exec_takesByte_next h hx with ⟨raw, e⟩ | ⟨x, u, -, e1, e2⟩
  · exact State.feed_frame e
  · have a := State.feed_frame e1; have b := State.feed_frame e2
    rw [← a.1, ← a.2.1, ← a.2.2.1, ← a.2.2.2]; exact b

/-- An instruction that is neither the decoder's nor RESET leaves the decoder. -/
theorem exec_keeps_dec {i : Instr} (h : i.isDecoderOp = false) (hr : i ≠ .reset) {s t : State} (hx : exec i s = .next t) : t.dec = s.dec := by
  cases i <;> try (first | exact absurd h Bool.false_ne_true | exact absurd h.symm Bool.false_ne_true) 
  all_goals try (cases hx; done)
  case nop => cases hx; rfl
  case reset => exact absurd rfl hr
  case encRequest api n p =>
    replace hx : execEncRequest api n p s = .next t := hx
    unfold execEncRequest at hx
    split at hx <;> [skip; split at hx] <;> cases hx <;> rfl
  case sinkAccept =>
    replace hx : execSinkAccept s = .next t := hx
    unfold execSinkAccept at hx
    split at hx <;> [split at hx; skip] <;> cases hx <;> rfl
  case sinkStall => cases hx; rfl
  case sinkFail =>
    replace hx : execSinkFail s = .next t := hx
    unfold execSinkFail at hx
    split at hx <;> cases hx <;> rfl

/-- Only RESET writes outside the two units, and only resetDone. -/
theorem exec_keeps_rest {i : Instr} (hr : i ≠ .reset) {s t : State} (hx : exec i s = .next t) : t.cfg = s.cfg ∧ t.input = s.input ∧ t.resetDone = s.resetDone := by
  by_cases ht : i.takesByte = true
  · exact (exec_takesByte_frame ht hx).2
  cases i <;> try exact absurd rfl ht
  all_goals try (cases hx; done)
  case nop => cases hx; exact ⟨rfl, rfl, rfl⟩
  case reset => exact absurd rfl hr
  case decClear => cases hx; exact ⟨rfl, rfl, rfl⟩
  case encRequest api n p =>
    replace hx : execEncRequest api n p s = .next t := hx
    unfold execEncRequest at hx
    split at hx <;> [skip; split at hx] <;> cases hx <;> exact ⟨rfl, rfl, rfl⟩
  case sinkAccept =>
    replace hx : execSinkAccept s = .next t := hx
    unfold execSinkAccept at hx
    split at hx <;> [split at hx; skip] <;> cases hx <;> exact ⟨rfl, rfl, rfl⟩
  case sinkStall => cases hx; exact ⟨rfl, rfl, rfl⟩
  case sinkFail =>
    replace hx : execSinkFail s = .next t := hx
    unfold execSinkFail at hx
    split at hx <;> cases hx <;> exact ⟨rfl, rfl, rfl⟩

theorem exec_keeps_cfg {i : Instr} {s t : State} (hx : exec i s = .next t) : t.cfg = s.cfg := by
  by_cases hr : i = .reset
  · subst hr; cases hx; rfl
  · exact (exec_keeps_rest hr hx).1

/-- An instruction that is neither the encoder's nor RESET leaves the encoder. -/
theorem exec_keeps_enc {i : Instr} (h : i.isEncoderOp = false) (hr : i ≠ .reset) {s t : State} (hx : exec i s = .next t) : t.enc = s.enc := by
  by_cases ht : i.takesByte = true
  · exact (exec_takesByte_frame ht hx).1
  cases i <;> try (first | exact absurd h Bool.false_ne_true | exact absurd h.symm Bool.false_ne_true) 
  all_goals try exact absurd rfl ht
  all_goals try (cases hx; done)
  case nop => cases hx; rfl
  case reset => exact absurd rfl hr
  case decClear => cases hx; rfl

/-- An encoder operation does not read the decoder. -/
theorem exec_with_dec {i : Instr} (h : i.isEncoderOp = true) {s t : State} (hx : exec i s = .next t) (d : Decoder) :
    exec i { s with dec := d } = .next { t with dec := d } := by
  cases i <;> try (first | exact absurd h Bool.false_ne_true | exact absurd h.symm Bool.false_ne_true) 
  case encRequest api n p =>
    replace hx : execEncRequest api n p s = .next t := hx
    show execEncRequest api n p _ = _
    unfold execEncRequest at hx ⊢
    split at hx
    · cases hx; rw [if_pos ‹_›]; rfl
    · rw [if_neg ‹_›]
      split at hx
      · cases hx; rw [if_pos ‹_›]; rfl
      · cases hx; rw [if_neg ‹_›]; rfl
  case sinkAccept =>
    replace hx : execSinkAccept s = .next t := hx
    show execSinkAccept _ = _
    unfold execSinkAccept at hx ⊢
    split at hx
    · rw [if_pos ‹_›]
      split at hx
      · cases hx
        rename_i v hv
        simp only [hv]; rfl
      · cases hx
    · cases hx; rw [if_neg ‹_›]; rfl
  case sinkStall => cases hx; rfl
  case sinkFail =>
    replace hx : execSinkFail s = .next t := hx
    show execSinkFail _ = _
    unfold execSinkFail at hx ⊢
    split at hx
    · cases hx; rw [if_pos ‹_›]; rfl
    · cases hx; rw [if_neg ‹_›]; rfl

theorem State.feed_with_enc {raw} {s t : State} (h : s.feed raw = .next t) (e : Encoder) : State.feed raw { s with enc := e } = .next { t with enc := e } := by
  obtain ⟨ho, rfl⟩ := State.feed_next h
  rw [State.feed_of_no_overrun (s := { s with enc := e }) ho]; rfl

/-- A decoder operation does not read the encoder. -/
theorem exec_with_enc {i : Instr} (h : i.isDecoderOp = true) {s t : State} (hx : exec i s = .next t) (e : Encoder) :
    exec i { s with enc := e } = .next { t with enc := e } := by
  by_cases ht : i.takesByte = true
  · cases i <;> try (first | exact absurd ht Bool.false_ne_true | exact absurd ht.symm Bool.false_ne_true) 
    case decFeed => exact State.feed_with_enc hx e
    case wireSof => exact State.feed_with_enc hx e
    case wireEsc => exact State.feed_with_enc (raw := escMarker) hx e
    case wireXon => exact State.feed_with_enc hx e
    case wireXoff => exact State.feed_with_enc hx e
    case wireData => exact State.feed_with_enc hx e
    case wireEscpair x =>
      rcases exec_takesByte_next ht hx with ⟨raw, e1⟩ | ⟨y, u, hy, e1, e2⟩
      · replace hx : (match s.feed escMarker with | .next t => t.feed x | .fault r => .fault r | .refused r => .refused r) = .next t := hx
        show (match State.feed escMarker _ with | .next t => t.feed x | .fault r => .fault r | .refused r => .refused r) = _
        split at hx
        · rw [State.feed_with_enc ‹_› e]; exact State.feed_with_enc hx e
        · cases hx
        · cases hx
      · cases hy
        show (match State.feed escMarker _ with | .next t => t.feed x | .fault r => .fault r | .refused r => .refused r) = _
        rw [State.feed_with_enc e1 e]; exact State.feed_with_enc e2 e
    case decSyncHit => have q := exec_case s .syncHit 0; rw [show exec (DecCase.syncHit.instr 0) s = _ from hx] at q; exact (exec_case _ .syncHit 0).trans (State.feed_with_enc q.symm e)
    case decSyncMiss x => have q := exec_case s .syncMiss x; rw [show exec (DecCase.syncMiss.instr x) s = _ from hx] at q; exact (exec_case _ .syncMiss x).trans (State.feed_with_enc q.symm e)
    case decEsc => have q := exec_case s .esc 0; rw [show exec (DecCase.esc.instr 0) s = _ from hx] at q; exact (exec_case _ .esc 0).trans (State.feed_with_enc q.symm e)
    case decAbort => have q := exec_case s .abort 0; rw [show exec (DecCase.abort.instr 0) s = _ from hx] at q; exact (exec_case _ .abort 0).trans (State.feed_with_enc q.symm e)
    case decLenhi x => have q := exec_case s .lenhi x; rw [show exec (DecCase.lenhi.instr x) s = _ from hx] at q; exact (exec_case _ .lenhi x).trans (State.feed_with_enc q.symm e)
    case decLenlo x => have q := exec_case s .lenlo x; rw [show exec (DecCase.lenlo.instr x) s = _ from hx] at q; exact (exec_case _ .lenlo x).trans (State.feed_with_enc q.symm e)
    case decApi x => have q := exec_case s .api x; rw [show exec (DecCase.api.instr x) s = _ from hx] at q; exact (exec_case _ .api x).trans (State.feed_with_enc q.symm e)
    case decToolarge x => have q := exec_case s .toolarge x; rw [show exec (DecCase.toolarge.instr x) s = _ from hx] at q; exact (exec_case _ .toolarge x).trans (State.feed_with_enc q.symm e)
    case decData x => have q := exec_case s .data x; rw [show exec (DecCase.data.instr x) s = _ from hx] at q; exact (exec_case _ .data x).trans (State.feed_with_enc q.symm e)
    case decMsg x => have q := exec_case s .msg x; rw [show exec (DecCase.msg.instr x) s = _ from hx] at q; exact (exec_case _ .msg x).trans (State.feed_with_enc q.symm e)
    case decFinalOk x => have q := exec_case s .finalOk x; rw [show exec (DecCase.finalOk.instr x) s = _ from hx] at q; exact (exec_case _ .finalOk x).trans (State.feed_with_enc q.symm e)
    case decFinalBad x => have q := exec_case s .finalBad x; rw [show exec (DecCase.finalBad.instr x) s = _ from hx] at q; exact (exec_case _ .finalBad x).trans (State.feed_with_enc q.symm e)
  · have : i = .decClear := by simpa [Instr.isDecoderOp, ht] using h
    subst this
    cases hx; rfl

theorem Instr.isEncoderOp_of_decoder {i : Instr} (h : i.isDecoderOp = true) : i.isEncoderOp = false := by
  cases i <;> first | rfl | exact absurd h Bool.false_ne_true

theorem Instr.isDecoderOp_of_encoder {i : Instr} (h : i.isEncoderOp = true) : i.isDecoderOp = false := by
  cases i <;> first | rfl | exact absurd h Bool.false_ne_true

theorem Instr.ne_reset_of_decoder {i : Instr} (h : i.isDecoderOp = true) : i ≠ .reset := by rintro rfl; cases h

theorem Instr.ne_reset_of_encoder {i : Instr} (h : i.isEncoderOp = true) : i ≠ .reset := by rintro rfl; cases h

theorem exec_encoder_out {i : Instr} (h : i.isEncoderOp = true) (s : State) (o : StepOutputs) : exec i { s with out := o } = exec i s := by
  cases i <;> rfl

theorem exec_decoder_out {i : Instr} (h : i.isDecoderOp = true) (s : State) (o : StepOutputs) : exec i { s with out := o } = exec i s := by
  cases i <;> rfl

theorem exec_sinkAccept {s : State} (hb : s.enc.ebusy = true) {v} (hv : s.enc.offered = some v) : exec .sinkAccept s = .next (s.answered s.enc.advance (some v)) := by
  show execSinkAccept s = _
  simp only [execSinkAccept, hb, hv, if_true]

end Sys2Proof.Machine
end

