-- ==== Sys2Proof/Laws/Encoder.lean ====
section
/-! SUPPORT. Lengths of the wire sequence, its bytes, and the advance of R160. -/

namespace Sys2Proof.Machine

theorem length_escByte (v : Byte) : (escByte v).length = 1 + (if isReserved v then 1 else 0) := by
  unfold escByte; split <;> simp_all

theorem length_flatMap_escByte (l : List Byte) : (l.flatMap escByte).length = l.length + (l.filter isReserved).length := by
  induction l with
  | nil => rfl
  | cons v l ih =>
    simp only [List.flatMap_cons, List.length_append, ih, length_escByte, List.length_cons, List.filter_cons]
    split <;> simp <;> omega

theorem length_txHeader : txHeader.length = 13 := rfl

theorem length_frameData (api : Byte) (p : List Byte) : (frameData api p).length = p.length + 14 := by
  simp [frameData, length_txHeader]; omega

theorem length_frameTail (api : Byte) (p : List Byte) : (frameTail api p).length = p.length + 17 := by
  simp [frameTail, length_frameData]

theorem logicalFrame_eq (api : Byte) (p : List Byte) : logicalFrame api p = ([startByte, 0x00, lenLo p.length] ++ frameData api p) ++ [checksum (frameData api p)] := by
  simp [logicalFrame, frameTail]

theorem length_logicalFrame (api : Byte) (p : List Byte) : (logicalFrame api p).length = p.length + 18 := by simp [logicalFrame, length_frameTail]

theorem length_encodeWire_pos (api : Byte) (p : List Byte) : 0 < (encodeWire api p).length := by simp [encodeWire]

theorem Encoder.length_payload (e : Encoder) : e.payload.length = e.en.toNat := by simp [Encoder.payload]

theorem Encoder.wire_congr {e f : Encoder} (h1 : e.eapi = f.eapi) (h2 : e.en = f.en) (h3 : e.txp = f.txp) : e.wire = f.wire := by
  simp [Encoder.wire, Encoder.payload, h1, h2, h3]

theorem Encoder.advance_wire (e : Encoder) : e.advance.wire = e.wire := Encoder.wire_congr (by simp) (by simp) (by simp)

theorem Encoder.advance_before_last {e : Encoder} (h : e.ek.toNat + 1 ≠ e.wire.length) : e.advance.ebusy = e.ebusy ∧ e.advance.eres = e.eres := by
  unfold Encoder.advance; rw [if_neg h]; exact ⟨rfl, rfl⟩

theorem Encoder.advance_at_last {e : Encoder} (h : e.ek.toNat + 1 = e.wire.length) : e.advance.ebusy = false ∧ e.advance.eres = .ok := by
  unfold Encoder.advance; rw [if_pos h]; exact ⟨rfl, rfl⟩

theorem ne_startByte_of_mem_escByte (v : Byte) : ∀ x ∈ escByte v, x ≠ startByte := by
  intro x hx
  have a : ∀ v : Byte, isReserved v = true → v ^^^ escMask ≠ startByte := by decide
  unfold escByte at hx
  split at hx
  · simp at hx
    rcases hx with rfl | rfl
    · decide
    · exact a v ‹_›
  · simp at hx
    subst hx
    rintro rfl
    rename_i h; exact h rfl

theorem sum8_append (a b : List Byte) : sum8 (a ++ b) = sum8 a + sum8 b := by
  induction a with
  | nil => simp [sum8]
  | cons x a ih => simp only [List.cons_append, sum8, ih]; rw [BitVec.add_assoc]

/-- R154: with its checksum, the data sums to FF. -/
theorem sum8_with_checksum (data : List Byte) : sum8 (data ++ [checksum data]) = 0xFF := by
  rw [sum8_append]
  simp only [sum8, checksum]
  generalize sum8 data = x
  revert x; decide

end Sys2Proof.Machine
end

