-- ==== Sys2Proof/Laws/Safe.lean ====
section
/-! SUPPORT. The invariants hold at reset and a feed keeps those of the decoder. -/

namespace Sys2Proof.Machine

theorem toNat_add_one (x : Half) (h : x.toNat < 65535) : (x + 1).toNat = x.toNat + 1 := by
  rw [BitVec.toNat_add]; simp; omega

theorem eq_zero_of_toNat {x : Half} (h : x.toNat = 0) : x = 0 := BitVec.eq_of_toNat_eq h

theorem Decoder.zero_safe {c : Config} (_ : c.wf = true) : Decoder.zero.Safe c := by
  constructor <;> simp [Decoder.expectedFill]

theorem Encoder.zero_safe : Encoder.zero.Safe := by
  constructor <;> simp [txpCap]

theorem Decoder.lazyReset_safe {c : Config} {d : Decoder} (hc : c.wf = true) (h : d.Safe c) : d.lazyReset.Safe c := by
  unfold Decoder.lazyReset; split
  · exact h
  · exact Decoder.zero_safe hc

theorem Decoder.Safe.err_eq {c} {d : Decoder} (h : d.Safe c) (hs : d.status = .inProgress) : d.err = .noError := by
  by_contra hc
  have := h.errKind.2 hc; rw [hs] at this; cases this

theorem Decoder.bufStored_within {c : Config} {d : Decoder} (hi : Memory.within d.buf (min d.pos.toNat c.maxFrameSize) = true) (hp : d.pos.toNat < 65535) (b : Byte) :
    Memory.within (d.bufStored c b) (min (d.pos + 1).toNat c.maxFrameSize) = true := by
  rw [toNat_add_one _ hp]
  unfold Decoder.bufStored
  split
  · exact Memory.within_write (Memory.within_mono hi (by omega)) (by omega) b
  · exact Memory.within_mono hi (by omega)

theorem Decoder.bufStored_wf {c : Config} {d : Decoder} (hi : Memory.wf d.buf = true) (b : Byte) : Memory.wf (d.bufStored c b) = true := by
  unfold Decoder.bufStored
  split
  · exact Memory.wf_write hi _ _
  · exact hi

theorem Decoder.seeded_safe {c : Config} (hc : c.wf = true) : (Decoder.seeded c).Safe c := by
  have hM := Config.bounds hc
  rw [Decoder.seeded_eq c (by omega)]
  constructor <;> simp [Decoder.expectedFill]
  · decide
  · simp [Memory.within]; omega

/-- `Decoder.expectedFill` by its three arguments. -/
def fillCount (c : Config) (api : Byte) (pos : Half) (dlen : Byte) : Nat :=
  if api = rxApiId ∧ 4 ≤ pos.toNat then min pos.toNat (dlen.toNat + 3) - c.receivedDataIdx else 0

/-- A feed keeps the invariants of the decoder. -/
theorem Decoder.feed_safe {c : Config} {d : Decoder} (raw : Byte) (hc : c.wf = true) (hd : d.Safe c) : (d.feed c raw).1.Safe c := by
  have hM := Config.bounds hc
  rw [Decoder.feed_eq_result]
  have he := Decoder.lazyReset_safe hc hd
  have hst := Decoder.lazyReset_status d
  have hf := decCase_facts c d raw
  have hb := caseByte_eq_logicalByte (k := decCase c d raw) (d := d) (raw := raw)
  unfold DecCase.result
  generalize hb' : caseByte (decCase c d raw) d raw = b at *
  generalize decCase c d raw = k at *
  have hop : d.opened = { d.lazyReset with esc := false } := rfl
  generalize d.lazyReset = e at *
  rw [hop]
  have hen := Decoder.Safe.err_eq he hst
  have hfill : e.mfill.toNat = fillCount c e.api e.pos e.dlen := he.fill
  obtain ⟨f1, f2, f3, f4, f5, f6, f7, f8, f9, f10, f11, f12, f13⟩ := he
  cases k <;> simp only [DecCase.Facts] at hf <;> simp only
  case syncHit =>
    have hz := f5 hst (eq_zero_of_toNat hf)
    subst hz
    exact Decoder.seeded_safe hc
  case syncMiss =>
    have hz := f5 hst (eq_zero_of_toNat hf)
    subst hz
    exact Decoder.zero_safe hc
  case esc =>
    refine ⟨f1, f2, fun _ => ⟨hf, hst⟩, f4, ?_, f6, f7, f8, f9, f10, f11, f12, f13⟩
    intro _ h; replace h : e.pos = 0 := h; rw [h] at hf; simp at hf
  case abort =>
    unfold Decoder.abortFrame
    split
    · refine ⟨f1, by simp, by simp, f4, by simp, by simp, by simp, by simp, by simp, f10, f11, f12, f13⟩
    · exact Decoder.seeded_safe hc
  case lenhi =>
    have hp : (e.pos + 1).toNat = e.pos.toNat + 1 := toNat_add_one _ (by omega)
    refine ⟨?_, f2, by simp, ?_, ?_, ?_, by simp [hst], ?_, ?_, Decoder.bufStored_wf f10 b, f11, Decoder.bufStored_within f12 (by show e.pos.toNat < _; omega) b, f13⟩
    · simp only [Decoder.storeAdvance_pos]; omega
    · show e.mfill.toNat = fillCount c e.api (e.pos + 1) e.dlen
      rw [hfill]; unfold fillCount; rw [if_neg (by omega), if_neg (by omega)]
    · intro _ h; replace h : e.pos + 1 = 0 := h; rw [h] at hp; simp at hp
    · simp only [Decoder.storeAdvance_pos]; omega
    · simp [hen]
    · simp [hen]
  case lenlo =>
    have hp : (e.pos + 1).toNat = e.pos.toNat + 1 := toNat_add_one _ (by omega)
    refine ⟨?_, f2, by simp, ?_, ?_, ?_, by simp [hst], ?_, ?_, Decoder.bufStored_wf f10 b, f11, Decoder.bufStored_within f12 (by show e.pos.toNat < _; omega) b, f13⟩
    · simp only [Decoder.storeAdvance_pos]; omega
    · show e.mfill.toNat = fillCount c e.api (e.pos + 1) b
      rw [hfill]; unfold fillCount; rw [if_neg (by omega), if_neg (by omega)]
    · intro _ h; replace h : e.pos + 1 = 0 := h; rw [h] at hp; simp at hp
    · simp only [Decoder.storeAdvance_pos]; omega
    · simp [hen]
    · simp [hen]
  case api =>
    have hp : (e.pos + 1).toNat = e.pos.toNat + 1 := toNat_add_one _ (by omega)
    refine ⟨?_, f2, by simp, ?_, ?_, ?_, by simp [hst], ?_, ?_, Decoder.bufStored_wf f10 b, f11, Decoder.bufStored_within f12 (by show e.pos.toNat < _; omega) b, f13⟩
    · simp only [Decoder.storeAdvance_pos]; omega
    · show e.mfill.toNat = fillCount c b (e.pos + 1) e.dlen
      rw [hfill]; unfold fillCount; rw [hp, if_neg (by omega)]; split <;> omega
    · intro _ h; replace h : e.pos + 1 = 0 := h; rw [h] at hp; simp at hp
    · simp only [Decoder.storeAdvance_pos, Decoder.storeAdvance_dlen]
      intro _ _ h
      have : e.dlen.toNat ≠ 0 := fun h' => h (BitVec.eq_of_toNat_eq h')
      omega
    · simp [hen]
    · simp [hen]
  case toolarge =>
    refine ⟨f1, by simp, by simp, f4, by simp, by simp, by simp, by simp, ?_, f10, f11, f12, f13⟩
    intro _; show e.pos.toNat = _; omega
  case data =>
    obtain ⟨g1, g2, g3, g4⟩ := hf
    have hp : (e.pos + 1).toNat = e.pos.toNat + 1 := toNat_add_one _ (by omega)
    refine ⟨?_, f2, by simp, ?_, ?_, ?_, by simp [hst], ?_, ?_, Decoder.bufStored_wf f10 b, f11, Decoder.bufStored_within f12 (by show e.pos.toNat < _; omega) b, f13⟩
    · simp only [Decoder.storeAdvance_pos, Decoder.addToSum_pos]; omega
    · show e.mfill.toNat = fillCount c e.api (e.pos + 1) e.dlen
      rw [hfill]; unfold fillCount; rw [hp]
      by_cases ha : e.api = rxApiId
      · rw [if_pos ⟨ha, by omega⟩, if_pos ⟨ha, by omega⟩]
        have : ¬ (c.receivedDataIdx ≤ e.pos.toNat ∧ e.pos.toNat < e.dlen.toNat + 3) := by
          rintro ⟨a, b⟩; simp [Decoder.inMessage, ha, a, b] at g4
        omega
      · rw [if_neg (fun h => ha h.1), if_neg (fun h => ha h.1)]
    · intro _ h; replace h : e.pos + 1 = 0 := h; rw [h] at hp; simp at hp
    · simp only [Decoder.storeAdvance_pos, Decoder.storeAdvance_dlen, Decoder.addToSum_pos, Decoder.addToSum_dlen]
      intro _ _ h
      have := f6 hst g1 h
      omega
    · simp [hen]
    · simp [hen]
  case msg =>
    obtain ⟨g1, g2, g3, g4⟩ := hf
    have hp : (e.pos + 1).toNat = e.pos.toNat + 1 := toNat_add_one _ (by omega)
    simp only [Decoder.inMessage, Bool.and_eq_true, decide_eq_true_eq, beq_iff_eq] at g4
    have hfm : e.mfill.toNat = e.pos.toNat - c.receivedDataIdx := by
      rw [hfill]; unfold fillCount; rw [if_pos ⟨g4.1.1, g1⟩]; omega
    have hm1 : (e.mfill + 1).toNat = e.mfill.toNat + 1 := toNat_add_one _ (by omega)
    refine ⟨?_, f2, by simp, ?_, ?_, ?_, by simp [hst], ?_, ?_, Decoder.bufStored_wf f10 b, ?_, Decoder.bufStored_within f12 (by show e.pos.toNat < _; omega) b, ?_⟩
    · simp only [Decoder.storeAdvance_pos, Decoder.addToSum_pos, Decoder.pushMsg_pos]; omega
    · show (e.mfill + 1).toNat = fillCount c e.api (e.pos + 1) e.dlen
      unfold fillCount; rw [hp, hm1, hfm, if_pos ⟨g4.1.1, by omega⟩]; omega
    · intro _ h; replace h : e.pos + 1 = 0 := h; rw [h] at hp; simp at hp
    · simp only [Decoder.storeAdvance_pos, Decoder.storeAdvance_dlen, Decoder.addToSum_pos, Decoder.addToSum_dlen, Decoder.pushMsg_pos, Decoder.pushMsg_dlen]
      intro _ _ h
      have := f6 hst g1 h
      omega
    · simp [hen]
    · simp [hen]
    · exact Memory.wf_write f11 _ _
    · show Memory.within (e.msg.write e.mfill.toNat b) (e.mfill + 1).toNat = true
      rw [hm1]
      exact Memory.within_write (Memory.within_mono f13 (by omega)) (by omega) b
  case finalOk =>
    obtain ⟨g1, g2, g3, g4⟩ := hf
    have hp : (e.pos + 1).toNat = e.pos.toNat + 1 := toNat_add_one _ (by omega)
    refine ⟨?_, by simp, by simp, ?_, by simp, by simp, ?_, by simp, by simp, Decoder.bufStored_wf f10 b, f11, Decoder.bufStored_within f12 (by show e.pos.toNat < _; omega) b, f13⟩
    · simp only [Decoder.storeAdvance_pos, Decoder.addToSum_pos]; omega
    · show e.mfill.toNat = fillCount c e.api (e.pos + 1) e.dlen
      rw [hfill]; unfold fillCount; rw [hp]
      by_cases ha : e.api = rxApiId
      · rw [if_pos ⟨ha, by omega⟩, if_pos ⟨ha, by omega⟩]; omega
      · rw [if_neg (fun h => ha h.1), if_neg (fun h => ha h.1)]
    · intro _
      refine ⟨by show (e.pos + 1).toNat = e.dlen.toNat + 4; omega, ?_⟩
      rw [hb (by decide)]; exact g4
  case finalBad =>
    obtain ⟨g1, g2, g3, g4⟩ := hf
    have hp : (e.pos + 1).toNat = e.pos.toNat + 1 := toNat_add_one _ (by omega)
    refine ⟨?_, by simp, by simp, ?_, by simp, by simp, by simp, ?_, by simp, Decoder.bufStored_wf f10 b, f11, Decoder.bufStored_within f12 (by show e.pos.toNat < _; omega) b, f13⟩
    · simp only [Decoder.storeAdvance_pos, Decoder.addToSum_pos, Decoder.fail_pos]; omega
    · show e.mfill.toNat = fillCount c e.api (e.pos + 1) e.dlen
      rw [hfill]; unfold fillCount; rw [hp]
      by_cases ha : e.api = rxApiId
      · rw [if_pos ⟨ha, by omega⟩, if_pos ⟨ha, by omega⟩]; omega
      · rw [if_neg (fun h => ha h.1), if_neg (fun h => ha h.1)]
    · intro _
      refine ⟨by show (e.pos + 1).toNat = e.dlen.toNat + 4; omega, ?_⟩
      rw [hb (by decide)]; exact g4

/-- R112: mfill never passes MSG_CAP. -/
theorem Decoder.Safe.mfill_le {c : Config} {d : Decoder} (hc : c.wf = true) (h : d.Safe c) : d.mfill.toNat ≤ c.msgCap := by
  have hM := Config.bounds hc
  have h1 : d.mfill.toNat = fillCount c d.api d.pos d.dlen := h.fill
  have := h.posBound
  unfold fillCount at h1; unfold Config.msgCap
  split at h1 <;> omega

/-- The sum of R26 over the bytes of a frame. -/
def storedSum (l : List Byte) : Half := (l.drop 3).foldl (fun a b => a + zext16 b) 0

theorem storedSum_short {l : List Byte} (h : l.length ≤ 3) : storedSum l = 0 := by
  unfold storedSum; rw [List.drop_eq_nil_of_le h]; rfl

theorem storedSum_snoc {l : List Byte} (b : Byte) (h : 3 ≤ l.length) : storedSum (l ++ [b]) = storedSum l + zext16 b := by
  unfold storedSum; rw [List.drop_append_of_le_length h, List.foldl_append]; rfl

theorem Decoder.bufStored_firstBytes {c : Config} {d : Decoder} {b : Byte} (hw : d.buf.wf = true) (h : (d.pos + 1).toNat ≤ c.maxFrameSize) (hp : d.pos.toNat < 65535) :
    (d.bufStored c b).firstBytes (d.pos + 1).toNat = d.buf.firstBytes d.pos.toNat ++ [b] := by
  rw [toNat_add_one _ hp] at h ⊢
  rw [Decoder.bufStored_in (by omega), Memory.firstBytes_write_succ hw]

end Sys2Proof.Machine
end

