-- ==== Sys2Proof/Laws/Frames.lean ====
section
/-! SUPPORT. Feeding the bytes of a frame: the escape code, the decoder inside a frame, and the running-sum encoder. -/

namespace Sys2Proof.Machine

theorem low8_add (x y : Half) : low8 (x + y) = low8 x + low8 y := by
  unfold low8; exact BitVec.setWidth_add _ _ (by decide)

theorem low8_zext16 (b : Byte) : low8 (zext16 b) = b := by
  unfold low8 zext16; simp

theorem low8_foldl (l : List Byte) (x : Half) : low8 (l.foldl (fun a b => a + zext16 b) x) = low8 x + sum8 l := by
  induction l generalizing x with
  | nil => simp [sum8]
  | cons b l ih => simp only [List.foldl_cons, ih, low8_add, low8_zext16, sum8]; rw [BitVec.add_assoc]

theorem low8_storedSum (l : List Byte) : low8 (storedSum l) = sum8 (l.drop 3) := by
  unfold storedSum; rw [low8_foldl]; simp [low8]

/-- One way of carrying a logical byte (R117). -/
abbrev CarriesByte (v : Byte) (ws : List Byte) : Prop := ws = escByte v ∨ (ws = [v] ∧ v ≠ startByte ∧ v ≠ escMarker)

theorem Decoder.feedAll_append (c : Config) (d : Decoder) (a b : List Byte) :
    d.feedAll c (a ++ b) = (((d.feedAll c a).1.feedAll c b).1, (d.feedAll c a).2 ++ ((d.feedAll c a).1.feedAll c b).2) := by
  induction a generalizing d with
  | nil => simp [Decoder.feedAll]
  | cons x a ih => simp only [List.cons_append, Decoder.feedAll, ih, List.cons_append]

/-- The bytes that carry a logical byte take it once; all but the last give NeedMore. -/
theorem CarriesByte.feedAll_eq {c : Config} {d : Decoder} {v : Byte} {ws : List Byte} (hg : c.startGuard = .raw) (hs : d.status = .inProgress) (hp : 0 < d.pos.toNat)
    (he : d.esc = false) (h : CarriesByte v ws) :
    d.feedAll c ws = ((d.takeLogical c v).1, List.replicate (ws.length - 1) .needMore ++ [(d.takeLogical c v).2]) := by
  have hde : ({ d with esc := false } : Decoder) = d := by rw [← he]
  have single : ∀ v : Byte, v ≠ startByte → v ≠ escMarker → d.feedAll c [v] = ((d.takeLogical c v).1, [(d.takeLogical c v).2]) := by
    intro v h1 h2
    have hd : d.Delivers c v v := ⟨hs, hp, h2, by simpa [guardByte, hg] using h1, by simp [he]⟩
    simp only [Decoder.feedAll, Decoder.Delivers.feed_eq hd, hde]
  rcases h with rfl | ⟨rfl, h1, h2⟩
  · cases hv : isReserved v
    · have : escByte v = [v] := by simp [escByte, hv]
      have hne : v ≠ startByte ∧ v ≠ escMarker := by
        constructor <;> rintro rfl <;> revert hv <;> decide
      rw [this, single v hne.1 hne.2]; rfl
    · have : escByte v = [escMarker, v ^^^ escMask] := by simp [escByte, hv]
      have hx : v ^^^ 0x20 ≠ escMarker ∧ v ^^^ 0x20 ≠ startByte := by revert hv; clear * -; revert v; decide
      rw [this]
      simp only [Decoder.feedAll]
      rw [Decoder.feed_marker (by rw [Decoder.lazyReset_inProgress hs]; exact hp) rfl, Decoder.lazyReset_inProgress hs]
      have hd : ({ d with esc := true } : Decoder).Delivers c (v ^^^ escMask) v := by
        refine ⟨hs, hp, hx.1, ?_, ?_⟩
        · simp only [guardByte, hg]; exact hx.2
        · exact (xor_escMask_twice v).symm
      simp only [Decoder.Delivers.feed_eq hd]
      simp only [hde]; rfl
  · rw [single v h1 h2]; rfl

theorem CarriesByte.length_pos {v ws} (h : CarriesByte v ws) : 0 < ws.length := by
  rcases h with rfl | ⟨rfl, _⟩
  · unfold escByte; split <;> simp
  · simp

/-- An invariant over the logical bytes is kept by any wire bytes that carry them. -/
theorem Carried.feedAll_keeps {c : Config} (hg : c.startGuard = .raw) (P : Nat → Decoder → Prop) (vs : List Byte)
    (hP : ∀ k d, P k d → d.status = .inProgress ∧ d.esc = false ∧ 0 < d.pos.toNat)
    (hstep : ∀ k d (hk : k < vs.length), P k d → (d.takeLogical c vs[k]).2 = .needMore ∧ P (k + 1) (d.takeLogical c vs[k]).1) :
    ∀ (us : List Byte) (k : Nat) (ws : List Byte) (d : Decoder), us = vs.drop k → k ≤ vs.length → Carried us ws → P k d →
      ∃ d', d.feedAll c ws = (d', List.replicate ws.length .needMore) ∧ P vs.length d' := by
  intro us
  induction us with
  | nil =>
    intro k ws d hu hk hc hPd
    cases hc
    have : k = vs.length := by
      have := congrArg List.length hu; simp at this; omega
    subst this
    exact ⟨d, rfl, hPd⟩
  | cons v us ih =>
    intro k ws d hu hk hc hPd
    cases hc with
    | cons _ w _ bs hch hrest =>
      have hlt : k < vs.length := by
        have := congrArg List.length hu; simp at this; omega
      have hv : v = vs[k] ∧ us = vs.drop (k + 1) := by
        rw [List.drop_eq_getElem_cons hlt] at hu; exact List.cons.inj hu
      obtain ⟨hs, he, hp⟩ := hP k d hPd
      obtain ⟨h1, h2⟩ := hstep k d hlt hPd
      rw [← hv.1] at h1 h2
      obtain ⟨d', e1, e2⟩ := ih (k + 1) bs _ hv.2 hlt hrest h2
      refine ⟨d', ?_, e2⟩
      rw [Decoder.feedAll_append, CarriesByte.feedAll_eq hg hs hp he hch, h1]
      simp only [e1]
      have := CarriesByte.length_pos hch
      congr 1
      rw [List.length_append, show w.length = (w.length - 1) + 1 by omega]
      rw [← List.replicate_append_replicate, List.replicate_add]; simp

theorem Carried.split_last {vs : List Byte} {v : Byte} {ws : List Byte} (h : Carried (vs ++ [v]) ws) :
    ∃ a b, ws = a ++ b ∧ Carried vs a ∧ CarriesByte v b := by
  induction vs generalizing ws with
  | nil =>
    cases h with
    | cons _ w _ bs hc hr => cases hr; exact ⟨[], w, by simp, .nil, hc⟩
  | cons u vs ih =>
    cases h with
    | cons _ w _ bs hc hr =>
      obtain ⟨a, b, rfl, h1, h2⟩ := ih hr
      exact ⟨w ++ a, b, by simp, .cons u w vs a hc h1, h2⟩

theorem Carried.of_escByte (vs : List Byte) : Carried vs (vs.flatMap escByte) := by
  induction vs with
  | nil => exact .nil
  | cons v vs ih => exact .cons v _ vs _ (.inl rfl) ih

/-- The decoder after its start byte and `k` more logical bytes of the frame `F`. -/
structure InFrame (c : Config) (F : List Byte) (k : Nat) (d : Decoder) : Prop where
  st : d.status = .inProgress
  er : d.err = .noError
  es : d.esc = false
  ps : d.pos.toNat = 1 + k
  dl : 2 ≤ k → F[2]? = some d.dlen
  ap : 3 ≤ k → F[3]? = some d.api
  ck : d.ck = storedSum (F.take (1 + k))
  bw : d.buf.wf = true
  mw : d.msg.wf = true
  bb : d.buf.firstBytes (1 + k) = F.take (1 + k)
  mb : d.msg.firstBytes d.mfill.toNat = if 3 ≤ k ∧ d.api = 0x90 then (F.take (1 + k)).drop c.receivedDataIdx else []

theorem InFrame.start {c : Config} (hc : c.wf = true) (F : List Byte) : InFrame c (startByte :: F) 0 (Decoder.seeded c) := by
  have hM := Config.bounds hc
  rw [Decoder.seeded_eq c (by omega)]
  constructor <;> simp [storedSum, Memory.firstBytes, Memory.read]
  decide

theorem take_succ_of_getElem {F : List Byte} {n : Nat} {b : Byte} (h : F[n]? = some b) : F.take (n + 1) = F.take n ++ [b] := by
  rw [List.take_add_one, h]; rfl

/-- A logical byte before the checksum. -/
theorem InFrame.takes {c : Config} (hc : c.wf = true) {F : List Byte} {k : Nat} {d : Decoder} {b : Byte} (h : InFrame c F k d) (hb : F[1 + k]? = some b)
    (hM : 1 + k < c.maxFrameSize) (hl : 3 ≤ k → k + 1 < d.dlen.toNat + 3) :
    (d.takeLogical c b).2 = .needMore ∧ InFrame c F (k + 1) (d.takeLogical c b).1 := by
  have hcM := Config.bounds hc
  have hp1 : (d.pos + 1).toNat = d.pos.toNat + 1 := toNat_add_one _ (by have := h.ps; omega)
  have htk : F.take (1 + (k + 1)) = F.take (1 + k) ++ [b] := take_succ_of_getElem hb
  have hlen : (F.take (1 + k)).length = 1 + k := by
    have := congrArg List.length h.bb; simp at this ⊢; omega
  have hbuf : (d.bufStored c b).firstBytes (1 + (k + 1)) = F.take (1 + (k + 1)) := by
    have := Decoder.bufStored_firstBytes (c := c) (b := b) h.bw (by rw [hp1, h.ps]; omega) (by have := h.ps; omega)
    rw [hp1, h.ps, h.bb] at this
    rw [htk, ← this]; rfl
  have hbw : (d.bufStored c b).wf = true := Decoder.bufStored_wf h.bw b
  have hpos : (d.pos + 1).toNat = 1 + (k + 1) := by rw [hp1, h.ps]; omega
  have hck : 2 ≤ k → d.ck + zext16 b = storedSum (F.take (1 + (k + 1))) := by
    intro hk; rw [htk, storedSum_snoc _ (by omega), h.ck]
  by_cases k0 : k = 0
  · subst k0
    rw [Decoder.takeLogical_one (by rw [h.ps])]
    refine ⟨rfl, h.st, h.er, h.es, hpos, by omega, by omega, ?_, hbw, h.mw, hbuf, ?_⟩
    · show d.ck = _; rw [h.ck, storedSum_short (by omega), storedSum_short (by simp)]
    · rw [if_neg (by omega)]; have := h.mb; rw [if_neg (by omega)] at this; exact this
  by_cases k1 : k = 1
  · subst k1
    rw [Decoder.takeLogical_two (by rw [h.ps])]
    refine ⟨rfl, h.st, h.er, h.es, hpos, fun _ => hb, by omega, ?_, hbw, h.mw, hbuf, ?_⟩
    · show d.ck = _; rw [h.ck, storedSum_short (by omega), storedSum_short (by simp)]
    · rw [if_neg (by omega)]; have := h.mb; rw [if_neg (by omega)] at this; exact this
  by_cases k2 : k = 2
  · subst k2
    rw [Decoder.takeLogical_three (by rw [h.ps])]
    refine ⟨rfl, h.st, h.er, h.es, hpos, fun _ => h.dl (by omega), fun _ => hb, hck (by omega), hbw, h.mw, hbuf, ?_⟩
    have := h.mb; rw [if_neg (by omega)] at this
    have hd : (F.take (1 + (2 + 1))).drop c.receivedDataIdx = [] := List.drop_eq_nil_of_le (by simp; omega)
    rw [hd]; simp only [ite_self]; exact this
  have hk3 : 3 ≤ k := by omega
  have hl' := hl hk3
  rw [Decoder.takeLogical_data (by rw [h.ps]; omega)]
  have hpM : ((d.addToSum b).pos).toNat ≤ c.maxFrameSize := by show d.pos.toNat ≤ _; rw [h.ps]; omega
  cases hm : (d.addToSum b).inMessage c
  · rw [Decoder.takeData_plain hpM hm (by show d.pos.toNat ≠ d.dlen.toNat + 3; rw [h.ps]; omega)]
    refine ⟨rfl, h.st, h.er, h.es, hpos, fun _ => h.dl (by omega), fun _ => h.ap hk3, hck (by omega), hbw, h.mw, hbuf, ?_⟩
    have := h.mb
    show d.msg.firstBytes d.mfill.toNat = if 3 ≤ k + 1 ∧ d.api = 0x90 then _ else _
    rw [this]
    by_cases ha : d.api = 0x90
    · rw [if_pos ⟨hk3, ha⟩, if_pos ⟨by omega, ha⟩]
      have hR : ¬ c.receivedDataIdx ≤ 1 + k := by
        intro hR
        have : (d.addToSum b).inMessage c = true := by
          simp only [Decoder.inMessage, Bool.and_eq_true, decide_eq_true_eq, beq_iff_eq]
          exact ⟨⟨ha, by show _ ≤ d.pos.toNat; rw [h.ps]; exact hR⟩, by show d.pos.toNat < d.dlen.toNat + 3; rw [h.ps]; omega⟩
        rw [hm] at this; cases this
      rw [List.drop_eq_nil_of_le (by simp; omega), List.drop_eq_nil_of_le (by simp; omega)]
    · rw [if_neg (fun q => ha q.2), if_neg (fun q => ha q.2)]
  · rw [Decoder.takeData_message hpM hm]
    simp only [Decoder.inMessage, Bool.and_eq_true, decide_eq_true_eq, beq_iff_eq] at hm
    obtain ⟨⟨ha, hR⟩, -⟩ := hm
    replace ha : d.api = 0x90 := ha
    replace hR : c.receivedDataIdx ≤ d.pos.toNat := hR
    rw [h.ps] at hR
    have hmb := h.mb
    rw [if_pos ⟨hk3, ha⟩] at hmb
    have hml : d.mfill.toNat = 1 + k - c.receivedDataIdx := by
      have := congrArg List.length hmb; rw [List.length_drop, hlen, Memory.length_firstBytes] at this; exact this
    have hm1 : (d.mfill + 1).toNat = d.mfill.toNat + 1 := toNat_add_one _ (by omega)
    refine ⟨rfl, h.st, h.er, h.es, hpos, fun _ => h.dl (by omega), fun _ => h.ap hk3, hck (by omega), hbw, Memory.wf_write h.mw _ _, hbuf, ?_⟩
    show (d.msg.write d.mfill.toNat b).firstBytes (d.mfill + 1).toNat = if 3 ≤ k + 1 ∧ d.api = 0x90 then _ else _
    rw [hm1, Memory.firstBytes_write_succ h.mw, hmb, if_pos ⟨by omega, ha⟩, htk, List.drop_append_of_le_length (by omega)]

/-- The checksum byte. -/
theorem InFrame.takes_checksum {c : Config} {F : List Byte} {k : Nat} {d : Decoder} {b : Byte} (h : InFrame c F k d) (hk : 3 ≤ k)
    (hM : 1 + k ≤ c.maxFrameSize) (hl : k + 1 = d.dlen.toNat + 3) :
    (sum8 ((F.take (1 + k)).drop 3 ++ [b]) = 0xFF →
      d.takeLogical c b = ({ d.addToSum b with status := .complete, err := .noError }.storeAdvance c b, .frameReady d.api (d.msg.firstBytes d.mfill.toNat))) ∧
    (sum8 ((F.take (1 + k)).drop 3 ++ [b]) ≠ 0xFF →
      (d.takeLogical c b).1.status = .failed ∧ (d.takeLogical c b).2 = .error .checksumFailure) := by
  have hlow : low8 (d.addToSum b).ck = sum8 ((F.take (1 + k)).drop 3 ++ [b]) := by
    show low8 (d.ck + zext16 b) = _
    rw [h.ck, low8_add, low8_zext16, low8_storedSum, sum8_append]; simp [sum8]
  rw [Decoder.takeLogical_data (by rw [h.ps]; omega)]
  rw [Decoder.takeData_final (by show d.pos.toNat ≤ _; rw [h.ps]; omega) (by show d.pos.toNat = d.dlen.toNat + 3; rw [h.ps]; omega)]
  constructor
  · intro hv
    rw [if_pos (by simp only [Decoder.sumValid, hlow, hv]; rfl)]; rfl
  · intro hv
    rw [if_neg (by simp only [Decoder.sumValid, hlow]; simpa using hv)]; exact ⟨rfl, rfl⟩

/-- The decoder after its start byte and `k` more logical bytes of a frame, whether or not they were all stored. `vs` is the
frame after its start byte. -/
structure OpenFrame (vs : List Byte) (k : Nat) (d : Decoder) : Prop where
  st : d.status = .inProgress
  es : d.esc = false
  ps : d.pos.toNat = 1 + k
  dl : 2 ≤ k → vs[1]? = some d.dlen

theorem OpenFrame.start {c : Config} (hc : c.wf = true) (vs : List Byte) : OpenFrame vs 0 (Decoder.seeded c) := by
  have hM := Config.bounds hc
  rw [Decoder.seeded_eq c (by omega)]
  exact ⟨rfl, rfl, rfl, by omega⟩

/-- A byte at an index up to M that is not the checksum's keeps the frame open. -/
theorem OpenFrame.takes {c : Config} (hc : c.wf = true) {vs : List Byte} {k : Nat} {d : Decoder} {b : Byte} (h : OpenFrame vs k d) (hb : vs[k]? = some b)
    (hM : 1 + k ≤ c.maxFrameSize) (hl : 3 ≤ k → 1 + k ≠ d.dlen.toNat + 3) :
    (d.takeLogical c b).2 = .needMore ∧ OpenFrame vs (k + 1) (d.takeLogical c b).1 := by
  have hcM := Config.bounds hc
  have hpos : (d.pos + 1).toNat = 1 + (k + 1) := by rw [toNat_add_one _ (by have := h.ps; omega), h.ps]; omega
  by_cases k0 : k = 0
  · subst k0
    rw [Decoder.takeLogical_one (by rw [h.ps])]
    exact ⟨rfl, h.st, h.es, hpos, by omega⟩
  by_cases k1 : k = 1
  · subst k1
    rw [Decoder.takeLogical_two (by rw [h.ps])]
    exact ⟨rfl, h.st, h.es, hpos, fun _ => hb⟩
  by_cases k2 : k = 2
  · subst k2
    rw [Decoder.takeLogical_three (by rw [h.ps])]
    exact ⟨rfl, h.st, h.es, hpos, fun _ => h.dl (by omega)⟩
  have hne : (d.addToSum b).pos.toNat ≠ (d.addToSum b).dlen.toNat + 3 := by
    show d.pos.toNat ≠ d.dlen.toNat + 3; rw [h.ps]; exact hl (by omega)
  have hle : (d.addToSum b).pos.toNat ≤ c.maxFrameSize := by show d.pos.toNat ≤ _; rw [h.ps]; exact hM
  rw [Decoder.takeLogical_data (by rw [h.ps]; omega)]
  cases hm : (d.addToSum b).inMessage c
  · rw [Decoder.takeData_plain hle hm hne]
    exact ⟨rfl, h.st, h.es, hpos, fun _ => h.dl (by omega)⟩
  · rw [Decoder.takeData_message hle hm]
    exact ⟨rfl, h.st, h.es, hpos, fun _ => h.dl (by omega)⟩

/-- The byte at index M + 1 (R113). -/
theorem OpenFrame.takes_beyond {c : Config} (hc : c.wf = true) {vs : List Byte} {d : Decoder} {b : Byte} (h : OpenFrame vs c.maxFrameSize d) :
    d.takeLogical c b = ((d.addToSum b).fail .frameTooLarge, .error .frameTooLarge) := by
  have hcM := Config.bounds hc
  rw [Decoder.takeLogical_data (by rw [h.ps]; omega), Decoder.takeData_tooLarge (by show _ < d.pos.toNat; rw [h.ps]; omega)]

/-- A start byte that meets the zero decoder. -/
theorem Decoder.feed_start {c : Config} {d : Decoder} (hz : d.lazyReset = Decoder.zero) : d.feed c startByte = (Decoder.seeded c, .needMore) := by
  have hlb : d.lazyReset.logicalByte startByte = startByte := by rw [hz]; rfl
  rw [Decoder.feed_take (.inl (by simp [hz])), hlb, Decoder.takeLogical_zero (by simp [hz]), if_pos rfl, Decoder.opened, hz]; rfl

theorem Decoder.feed_skip {c : Config} {d : Decoder} {b : Byte} (hz : d.lazyReset = Decoder.zero) (hb : b ≠ startByte) : d.feed c b = (Decoder.zero, .needMore) := by
  have hlb : d.lazyReset.logicalByte b = b := by rw [hz]; rfl
  rw [Decoder.feed_take (.inl (by simp [hz])), hlb, Decoder.takeLogical_zero (by simp [hz]), if_neg hb, Decoder.opened, hz]; rfl

/-- Bytes without a start byte that meet the zero decoder are ignored, one and all. -/
theorem Decoder.feedAll_skip {c : Config} {d : Decoder} (bs : List Byte) (hz : d.lazyReset = Decoder.zero) (hb : ∀ b ∈ bs, b ≠ startByte) :
    (d.feedAll c bs).2 = List.replicate bs.length .needMore := by
  induction bs generalizing d with
  | nil => rfl
  | cons b bs ih =>
    simp only [Decoder.feedAll, Decoder.feed_skip hz (hb b (by simp)), List.length_cons, List.replicate_succ]
    rw [ih rfl (fun x hx => hb x (by simp [hx]))]

end Sys2Proof.Machine
end

