-- ==== Sys2Proof/Laws/PerInstr.lean ====
section
/-! SUPPORT. Statements made for every instruction, one lemma per constructor. -/

namespace Sys2Proof.Laws.EncodedLength

open Sys2Proof

/-- How many bytes each row has: the stated length of the record (R81), the wire byte or pair (R72, R73), the one byte of a
dispatch case. -/
def expected : Instr → Nat
  | .nop => 1
  | .reset => 1
  | .decClear => 1
  | .decFeed _ => 2
  | .encRequest _ n _ => n.toNat + 3
  | .sinkAccept => 1
  | .sinkStall => 1
  | .sinkFail => 1
  | .reserved08 _ => 1
  | .reserved10 _ => 1
  | .reserved20 _ => 1
  | .reserved40 _ => 1
  | .reserved80 _ => 1
  | .wireSof => 1
  | .wireEsc => 1
  | .wireXon => 1
  | .wireXoff => 1
  | .wireData _ => 1
  | .wireEscpair _ => 2
  | .decSyncHit => 1
  | .decSyncMiss _ => 1
  | .decEsc => 1
  | .decAbort => 1
  | .decLenhi _ => 1
  | .decLenlo _ => 1
  | .decApi _ => 1
  | .decToolarge _ => 1
  | .decData _ => 1
  | .decMsg _ => 1
  | .decFinalOk _ => 1
  | .decFinalBad _ => 1

/-- A well-formed instruction encodes to as many bytes as its row has. -/
def Statement (i : Instr) : Prop := i.wf = true → (encode i).length = expected i

theorem nop : Statement (.nop) := fun _ => rfl
theorem reset : Statement (.reset) := fun _ => rfl
theorem decClear : Statement (.decClear) := fun _ => rfl
theorem decFeed (b : Byte) : Statement (.decFeed b) := fun _ => rfl
theorem encRequest (api : Byte) (n : Byte) (p : List Byte) : Statement (.encRequest api n p) := by
  intro h
  have : p.length = n.toNat := by simpa [Instr.wf] using h
  simp [encode, expected, this]
theorem sinkAccept : Statement (.sinkAccept) := fun _ => rfl
theorem sinkStall : Statement (.sinkStall) := fun _ => rfl
theorem sinkFail : Statement (.sinkFail) := fun _ => rfl
theorem reserved08 (v : BitVec 3) : Statement (.reserved08 v) := fun _ => rfl
theorem reserved10 (v : BitVec 4) : Statement (.reserved10 v) := fun _ => rfl
theorem reserved20 (v : BitVec 5) : Statement (.reserved20 v) := fun _ => rfl
theorem reserved40 (v : BitVec 6) : Statement (.reserved40 v) := fun _ => rfl
theorem reserved80 (v : BitVec 7) : Statement (.reserved80 v) := fun _ => rfl
theorem wireSof : Statement (.wireSof) := fun _ => rfl
theorem wireEsc : Statement (.wireEsc) := fun _ => rfl
theorem wireXon : Statement (.wireXon) := fun _ => rfl
theorem wireXoff : Statement (.wireXoff) := fun _ => rfl
theorem wireData (d : Byte) : Statement (.wireData d) := fun _ => rfl
theorem wireEscpair (x : Byte) : Statement (.wireEscpair x) := fun _ => rfl
theorem decSyncHit : Statement (.decSyncHit) := fun _ => rfl
theorem decSyncMiss (raw : Byte) : Statement (.decSyncMiss raw) := fun _ => rfl
theorem decEsc : Statement (.decEsc) := fun _ => rfl
theorem decAbort : Statement (.decAbort) := fun _ => rfl
theorem decLenhi (b : Byte) : Statement (.decLenhi b) := fun _ => rfl
theorem decLenlo (b : Byte) : Statement (.decLenlo b) := fun _ => rfl
theorem decApi (b : Byte) : Statement (.decApi b) := fun _ => rfl
theorem decToolarge (b : Byte) : Statement (.decToolarge b) := fun _ => rfl
theorem decData (b : Byte) : Statement (.decData b) := fun _ => rfl
theorem decMsg (b : Byte) : Statement (.decMsg b) := fun _ => rfl
theorem decFinalOk (b : Byte) : Statement (.decFinalOk b) := fun _ => rfl
theorem decFinalBad (b : Byte) : Statement (.decFinalBad b) := fun _ => rfl

end Sys2Proof.Laws.EncodedLength
end

