-- ==== Sys2Proof/Laws/RunningSum.lean ====
section
/-! SUPPORT. The running-sum encoder of R166: what it still owes, and one accept. -/

namespace Sys2Proof.Machine

/-- The bytes the running-sum encoder still owes. -/
def RunningSum.owed (r : RunningSum) : List Byte :=
  (if r.i = 0 then [startByte] else if r.half then [r.logical ^^^ escMask] else escByte r.logical) ++
    ((logicalFrame r.api r.p).drop (r.i + 1)).flatMap escByte

/-- Its invariant. -/
structure RunningSum.Sound (r : RunningSum) : Prop where
  bi : r.i < r.p.length + 18
  lg : (logicalFrame r.api r.p)[r.i]? = some r.logical
  hf : r.half = true → 1 ≤ r.i ∧ isReserved r.logical = true
  sm : r.s = sum8 ((frameData r.api r.p).take (r.i - 3))

theorem RunningSum.logical_eq {r : RunningSum} (hb : r.i < r.p.length + 18) (hs : r.s = sum8 ((frameData r.api r.p).take (r.i - 3))) :
    (logicalFrame r.api r.p)[r.i]? = some r.logical := by
  have hl : ([startByte, 0x00, lenLo r.p.length] ++ frameData r.api r.p).length = r.p.length + 17 := by simp [length_frameData]
  rw [logicalFrame_eq]
  unfold RunningSum.logical
  split
  · rename_i hi
    rw [List.getElem?_append_right (by omega), hl, hi, Nat.sub_self]
    rw [hs, List.take_of_length_le (by rw [length_frameData]; omega)]; rfl
  · rename_i hi
    have : r.i < ([startByte, 0x00, lenLo r.p.length] ++ frameData r.api r.p).length := by omega
    rw [List.getElem?_append_left this, List.getElem?_eq_getElem this, List.getD_eq_getElem?_getD, List.getElem?_eq_getElem this]; rfl

/-- It offers the first of them. -/
theorem RunningSum.Sound.offered_eq {r : RunningSum} (h : RunningSum.Sound r) : (RunningSum.owed r)[0]? = some r.offered := by
  unfold RunningSum.owed RunningSum.offered
  split
  · rfl
  · cases hh : r.half
    · cases hr : isReserved r.logical <;> simp [escByte, hr]
    · rw [(h.hf hh).2]; simp

/-- An accept takes that one off. -/
theorem RunningSum.Sound.accept_eq {r : RunningSum} (h : RunningSum.Sound r) : 
    (RunningSum.owed r).drop 1 = (if r.accept.i = r.p.length + 18 then [] else RunningSum.owed r.accept) ∧ (r.accept.i < r.p.length + 18 → RunningSum.Sound r.accept) ∧ r.accept.i ≤ r.p.length + 18 ∧ r.accept.p = r.p ∧ r.accept.api = r.api := by
  by_cases hc : 1 ≤ r.i ∧ isReserved r.logical = true ∧ r.half = false
  · have e : r.accept = { r with half := true } := by unfold RunningSum.accept; rw [if_pos hc]
    rw [e]
    have hb := h.bi
    refine ⟨?_, fun _ => ⟨h.bi, h.lg, fun _ => ⟨hc.1, hc.2.1⟩, h.sm⟩, by show r.i ≤ _; omega, rfl, rfl⟩
    rw [if_neg (by show r.i ≠ _; omega)]
    have h1 : RunningSum.owed r = [escMarker, r.logical ^^^ escMask] ++ ((logicalFrame r.api r.p).drop (r.i + 1)).flatMap escByte := by
      unfold RunningSum.owed; rw [if_neg (by omega), hc.2.2]; simp [escByte, hc.2.1]
    have h2 : RunningSum.owed { r with half := true } = [r.logical ^^^ escMask] ++ ((logicalFrame r.api r.p).drop (r.i + 1)).flatMap escByte := by
      unfold RunningSum.owed; rw [if_neg (by show r.i ≠ 0; omega)]; rfl
    rw [h1, h2]; rfl
  · have e : r.accept = { r with half := false, s := if 3 ≤ r.i ∧ r.i ≤ r.p.length + 16 then r.s + r.logical else r.s, i := r.i + 1 } := by
      unfold RunningSum.accept; rw [if_neg hc]
    have hb := h.bi
    have hlg := h.lg
    have hsum : (if 3 ≤ r.i ∧ r.i ≤ r.p.length + 16 then r.s + r.logical else r.s) = sum8 ((frameData r.api r.p).take (r.i + 1 - 3)) := by
      split
      · rename_i hi
        have h3 : r.i + 1 - 3 = (r.i - 3) + 1 := by omega
        have hg : (frameData r.api r.p)[r.i - 3]? = some r.logical := by
          rw [← hlg, logicalFrame_eq, List.getElem?_append_left (by simp [length_frameData]; omega), List.getElem?_append_right (by simp; omega)]; rfl
        rw [h3, take_succ_of_getElem hg, sum8_append, h.sm]; simp [sum8]
      · rename_i hi
        rw [h.sm]
        by_cases h3 : r.i < 3
        · rw [show r.i - 3 = 0 by omega, show r.i + 1 - 3 = 0 by omega]
        · rw [List.take_of_length_le (by rw [length_frameData]; omega), List.take_of_length_le (by rw [length_frameData]; omega)]
    have hei : r.accept.i = r.i + 1 := by rw [e]
    have hep : r.accept.p = r.p := by rw [e]
    have hea : r.accept.api = r.api := by rw [e]
    have heh : r.accept.half = false := by rw [e]
    have hes : r.accept.s = sum8 ((frameData r.api r.p).take (r.i + 1 - 3)) := by rw [e]; exact hsum
    have hRS : r.accept.i < r.p.length + 18 → RunningSum.Sound r.accept := by
      intro hlt
      exact ⟨by rw [hep]; exact hlt, RunningSum.logical_eq (by rw [hep]; exact hlt) (by rw [hep, hea, hei]; exact hes), (fun q => by rw [heh] at q; cases q), by rw [hep, hea, hei]; exact hes⟩
    refine ⟨?_, hRS, by omega, hep, hea⟩
    have hhead : ∃ x, (if r.i = 0 then [startByte] else if r.half then [r.logical ^^^ escMask] else escByte r.logical) = [x] := by
      by_cases h0 : r.i = 0
      · exact ⟨_, by rw [if_pos h0]⟩
      · rw [if_neg h0]
        cases hh : r.half
        · have : isReserved r.logical = false := by
            cases hr : isReserved r.logical
            · rfl
            · exact absurd ⟨by omega, hr, hh⟩ hc
          exact ⟨r.logical, by simp [escByte, this]⟩
        · exact ⟨r.logical ^^^ escMask, by simp⟩
    obtain ⟨x, hx⟩ := hhead
    have hll := length_logicalFrame r.api r.p
    unfold RunningSum.owed
    rw [hx]
    simp only [List.cons_append, List.nil_append, List.drop_succ_cons, List.drop_zero]
    split
    · rename_i hl
      rw [List.drop_eq_nil_of_le (by omega)]; rfl
    · have hlt : r.i + 1 < (logicalFrame r.api r.p).length := by omega
      rw [hei, hep, hea, if_neg (by omega), heh]
      have := (hRS (by omega)).lg
      rw [hei, hep, hea, List.getElem?_eq_getElem hlt] at this
      injection this with this
      rw [List.drop_eq_getElem_cons hlt, List.flatMap_cons, this]; simp

end Sys2Proof.Machine
end

