-- ==== Sys2Proof/Laws/Step.lean ====
section
/-! SUPPORT. What a cycle and a step can do. -/

namespace Sys2Proof.Machine

theorem Signals.decoderOp_shape (g : Signals) : g.decoderOp = .nop ∨ g.decoderOp.isDecoderOp = true := by
  unfold Signals.decoderOp
  split
  · exact .inr rfl
  · split
    · exact .inr rfl
    · exact .inl rfl

theorem Signals.encoderOp_shape (g : Signals) (b : Bool) : g.encoderOp b = .nop ∨ (g.encoderOp b).isEncoderOp = true := by
  unfold Signals.encoderOp Signals.sinkAnswer Signals.request
  repeat' split
  all_goals first | exact .inr rfl | exact .inl rfl

/-- A cycle is RESET, or the two operations one after the other. -/
theorem cycle_next {g : Signals} {s u : State} (hx : cycle g s = .next u) :
   (g.rst = true ∧ exec .reset s = .next u) ∨ (g.rst = false ∧ ∃ t v, exec g.decoderOp s = .next t ∧ exec (g.encoderOp s.enc.ebusy) t = .next v ∧ u = { v with out := cycleOutputs g s.enc.ebusy t.out v.out }) := by
  unfold cycle at hx
  split at hx
  · exact .inl ⟨‹_›, hx⟩
  · right
    refine ⟨by simpa using ‹¬ g.rst = true›, ?_⟩
    split at hx
    · cases hx
    · split at hx
      · split at hx
        · cases hx; exact ⟨_, _, ‹_›, ‹_›, rfl⟩
        · cases hx
        · cases hx
      · cases hx
      · cases hx

/-- A fetch changes the input and nothing else. -/
theorem fetch_takes (s : State) :
    (∀ i u, fetch s = .instr i u → u = { s with input := u.input }) ∧ (∀ g u, fetch s = .cycle g u → u = { s with input := u.input }) := by
  have key : ∀ put d, (∀ i u, fetched s put d = .instr i u → u = { s with input := u.input }) ∧ (∀ g u, fetched s put d ≠ .cycle g u) := by
    intro put d
    cases d with
    | ok i rest => exact ⟨fun j u h => by cases h; rfl, fun g u h => by cases h⟩
    | invalid why => exact ⟨(fun j u h => by cases h), (fun g u h => by cases h)⟩
  constructor <;> intro i u h <;> unfold fetch at h <;> split at h
  · unfold fetchScript at h
    split at h
    · cases h
    · cases h
    · exact (key _ _).1 i u h
  · unfold fetchWire at h
    split at h
    · cases h
    · exact (key _ _).1 i u h
  · unfold fetchRx at h; split at h <;> cases h; rfl
  · unfold fetchCycle at h; split at h <;> cases h
  · unfold fetchScript at h
    split at h
    · cases h
    · cases h
    · exact absurd h ((key _ _).2 i u)
  · unfold fetchWire at h
    split at h
    · cases h
    · exact absurd h ((key _ _).2 i u)
  · unfold fetchRx at h; split at h <;> cases h
  · unfold fetchCycle at h; split at h <;> cases h; rfl

/-- After RESET, or at it, the operation runs; before it there is the refusal. -/
theorem afterReset_next {s t : State} {b : Bool} {run : Host.Outcome State Fault Refusal} (h : afterReset s b run = .next t) : run = .next t := by
  unfold afterReset at h; split at h
  · exact h
  · cases h

/-- A step is an instruction or a cycle, on the state with what it takes removed from the input. -/
theorem step_next {s t : State} (h : step s = .next t) :
   s.cfg.wf = true ∧ ((∃ i inp, exec i { s with input := inp } = .next t) ∨ (∃ g inp, cycle g { s with input := inp } = .next t)) := by
  unfold step at h
  split at h
  · refine ⟨‹_›, ?_⟩
    cases hf : fetch s with
    | idle => rw [hf] at h; exact .inl ⟨.nop, s.input, afterReset_next h⟩
    | instr i u =>
      rw [hf] at h
      refine .inl ⟨i, u.input, ?_⟩
      rw [← (fetch_takes s).1 i u hf]; exact afterReset_next h
    | cycle g u =>
      rw [hf] at h
      refine .inr ⟨g, u.input, ?_⟩
      rw [← (fetch_takes s).2 g u hf]; exact afterReset_next h
    | refused r => rw [hf] at h; cases h
  · cases h

end Sys2Proof.Machine
end

