-- ==== Sys2Proof/Tests/Slice0.lean ====
section
/-! SUPPORT. The model's own tests. Expected values come from the spec: the record table of R81, the wire classes of R72 and R73,
the examples of R101 to R165 and the vectors of 95_test_vectors.md. Then one witness for the hypotheses of each statement. -/

namespace Sys2Proof.Tests

open Sys2Proof
open Sys2Proof.Machine

-- ==== Helpers ====

/-- The next state of an outcome, if it is one. -/
def nextOf : Host.Outcome State Fault Refusal → Option State
  | .next s => some s
  | .fault _ => none
  | .refused _ => none

/-- The refusal of an outcome, if it is one. -/
def refusalIn : Host.Outcome State Fault Refusal → Option Refusal
  | .next _ => none
  | .fault _ => none
  | .refused r => some r

/-- A block built as TC1 (R7), with a given decoder. -/
def withDec (d : Decoder) : State := { State.reset with dec := d }

/-- A decoder in a frame. -/
def inFrame (pos : Half) (dlen api : Byte) (ck : Half) : Decoder :=
  { Decoder.zero with pos := pos, dlen := dlen, api := api, ck := ck }

/-- The same with a pending escape. -/
def escaped (d : Decoder) : Decoder := { d with esc := true }

/-- The encoder just after `ENC 0x10, "on"` (the example of R157). -/
def encOn : Encoder := Encoder.zero.latch 0x10 2 [0x6F, 0x6E]

/-- A block whose encoder is busy with it. -/
def busyOn : State := { State.reset with enc := encOn }

/-- The same with the first `k` bytes accepted. -/
def busyAt (k : Half) : State := { State.reset with enc := { encOn with ek := k } }

def seedCfg : Config := { Config.tc1 with abortPolicy := .seed }

def seeding (d : Decoder) : State := { withDec d with cfg := seedCfg }

/-- A cycle without a strobe. -/
def noStrobe : Signals :=
  { rst := false, decClear := false, rxValid := false, rxData := 0, decMsgIdx := 0, txReqValid := false, txReqApi := 0, txReqLen := 0,
    txReqPayload := [], txReady := false, txFail := false }

/-- The state, event and outputs a test looks at. -/
def decAfter (i : Instr) (s : State) : Option Decoder := (nextOf (exec i s)).map State.dec
def evAfter (i : Instr) (s : State) : Option (Option Event) := (nextOf (exec i s)).map (fun t => t.out.ev)
def encAfter (i : Instr) (s : State) : Option Encoder := (nextOf (exec i s)).map State.enc

-- ==== WellFormed refuses ill-formed terms ====

/-- R81: n counts the payload bytes. -/
theorem test_wf_request_count_too_small : (Instr.encRequest 0x10 1 [0x6F, 0x6E]).wf = false := by decide
theorem test_wf_request_count_too_large : (Instr.encRequest 0x10 3 [0x6F, 0x6E]).wf = false := by decide
/-- R73: the four reserved bytes are no WIRE.DATA. -/
theorem test_wf_wire_data_reserved : ∀ v ∈ [startByte, escMarker, xonByte, xoffByte], (Instr.wireData v).wf = false := by decide
/-- R107: a start byte is no DEC.SYNC-MISS. -/
theorem test_wf_sync_miss_start : (Instr.decSyncMiss 0x7E).wf = false := by decide

-- ==== Decoding: words written out from the spec ====

/-- R81: op byte 00000000. -/
theorem test_decode_nop : decodeRecord [0b00000000] = .ok .nop [] := by decide
theorem test_decode_reset : decodeRecord [0b00000001] = .ok .reset [] := by decide
theorem test_decode_clear : decodeRecord [0b00000010] = .ok .decClear [] := by decide
theorem test_decode_feed : decodeRecord [0b00000011, 0b01111110] = .ok (.decFeed 0x7E) [] := by decide
theorem test_decode_feed_cut_short : decodeRecord [0b00000011] = .invalid .cutShort := by decide
theorem test_decode_request : decodeRecord [0b00000100, 0x10, 0x02, 0x6F, 0x6E] = .ok (.encRequest 0x10 2 [0x6F, 0x6E]) [] := by decide
theorem test_decode_request_cut_short : decodeRecord [0b00000100, 0x10, 0x02, 0x6F] = .invalid .cutShort := by decide
theorem test_decode_accept : decodeRecord [0b00000101] = .ok .sinkAccept [] := by decide
theorem test_decode_stall : decodeRecord [0b00000110] = .ok .sinkStall [] := by decide
theorem test_decode_fail : decodeRecord [0b00000111] = .ok .sinkFail [] := by decide
/-- The first and the last op byte of each RESERVED row (masks F8, F0, E0, C0, 80). -/
theorem test_decode_reserved08 :
    decodeRecord [0b00001000] = .ok (.reserved08 0) [] ∧ decodeRecord [0b00001111] = .ok (.reserved08 7) [] := by decide
theorem test_decode_reserved10 :
    decodeRecord [0b00010000] = .ok (.reserved10 0) [] ∧ decodeRecord [0b00011111] = .ok (.reserved10 15) [] := by decide
theorem test_decode_reserved20 :
    decodeRecord [0b00100000] = .ok (.reserved20 0) [] ∧ decodeRecord [0b00111111] = .ok (.reserved20 31) [] := by decide
theorem test_decode_reserved40 :
    decodeRecord [0b01000000] = .ok (.reserved40 0) [] ∧ decodeRecord [0b01111111] = .ok (.reserved40 63) [] := by decide
theorem test_decode_reserved80 :
    decodeRecord [0b10000000] = .ok (.reserved80 0) [] ∧ decodeRecord [0b11111111] = .ok (.reserved80 127) [] := by decide
/-- R72, R73: the classes of a raw byte. -/
theorem test_decode_sof : decodeWire [0b01111110] = .ok .wireSof [] := by decide
theorem test_decode_wire_esc : decodeWire [0b01111101] = .ok .wireEsc [] := by decide
theorem test_decode_xon : decodeWire [0b00010001] = .ok .wireXon [] := by decide
theorem test_decode_xoff : decodeWire [0b00010011] = .ok .wireXoff [] := by decide
theorem test_decode_wire_data : decodeWire [0b01000001] = .ok (.wireData 0x41) [] := by decide
theorem test_decode_pair : decodeWire [0b01111101, 0b00110011] = .ok (.wireEscpair 0x33) [] := by decide
/-- The byte patterns of the dispatch cases. -/
theorem test_decode_cases :
    decodeCase .syncHit [0x7E] = .ok .decSyncHit [] ∧ decodeCase .syncMiss [0x41] = .ok (.decSyncMiss 0x41) [] ∧
    decodeCase .esc [0x7D] = .ok .decEsc [] ∧ decodeCase .abort [0x7E] = .ok .decAbort [] ∧
    decodeCase .lenhi [0x00] = .ok (.decLenhi 0x00) [] ∧ decodeCase .lenlo [0x11] = .ok (.decLenlo 0x11) [] ∧
    decodeCase .api [0x90] = .ok (.decApi 0x90) [] ∧ decodeCase .toolarge [0xFF] = .ok (.decToolarge 0xFF) [] ∧
    decodeCase .data [0x7E] = .ok (.decData 0x7E) [] ∧ decodeCase .msg [0x6F] = .ok (.decMsg 0x6F) [] ∧
    decodeCase .finalOk [0xF7] = .ok (.decFinalOk 0xF7) [] ∧ decodeCase .finalBad [0x00] = .ok (.decFinalBad 0x00) [] := by decide
theorem test_decode_case_mismatch : decodeCase .syncHit [0x41] = .invalid .patternMismatch := by decide
/-- Table words: bit 0 is the least significant bit of the first byte; operand bytes are zero. -/
theorem test_table_words :
    decodeTableWord 8 0x03 = some (.decFeed 0x00) ∧ decodeTableWord 8 0x04 = some (.encRequest 0x00 0x00 []) ∧
    decodeTableWord 16 0x4103 = some (.decFeed 0x41) ∧ decodeTableWord 8 0x08 = some (.reserved08 0) ∧
    decodeTableWord 8 0x7E = some .wireSof ∧ decodeTableWord 16 0x7D5E = some (.wireEscpair 0x5E) := by decide +kernel

-- ==== The step runs what withFetchWord places ====

theorem test_step_clear :
    nextOf (step ((withDec (inFrame 9 5 8 0)).withFetchWord 8 0x02)) = some State.reset := by decide
theorem test_step_sof :
    (nextOf (step (State.reset.withFetchWord 8 0x7E))).map (fun t => (t.dec.pos, t.out.ev)) = some (1, some .needMore) := by decide
theorem test_step_reserved : refusalIn (step (State.reset.withFetchWord 8 0x08)) = some .reservedRecord := by decide
/-- R82: a reserved record later in the script refuses its first step. -/
theorem test_step_script_refused_whole :
    refusalIn (step { State.reset with input := .script [0x00, 0x05, 0x08] }) = some .reservedRecord := by decide
/-- R232, R233. -/
theorem test_step_before_reset :
    refusalIn (step { State.reset with resetDone := false, input := .script [0x00] }) = some .beforeReset := by decide
/-- R203, R232: nor has a step without a transaction. -/
theorem test_idle_step_before_reset_is_refused :
    refusalIn (step { State.reset with resetDone := false }) = some .beforeReset := by decide
/-- R80, R86: one cycle carries a feed and an accept; the sink takes 7E. -/
theorem test_step_cycle :
    (nextOf (step { busyOn with input := .cycles [{ noStrobe with rxValid := true, rxData := 0x7E, txReady := true }] })).map
      (fun t => (t.dec.pos, t.enc.ek, t.out.ev, t.out.sinkTook)) = some (1, 1, some .needMore, some 0x7E) := by decide

-- ==== One step of each instruction ====

theorem test_nop : nextOf (exec .nop busyOn) = some busyOn := by decide
/-- R230. -/
theorem test_reset : nextOf (exec .reset { busyOn with dec := escaped (inFrame 9 5 8 3) }) = some State.reset := by decide
/-- The example of R120. -/
theorem test_clear : decAfter .decClear (withDec (escaped (inFrame 9 0 0 0))) = some Decoder.zero := by decide
/-- The example of R101: from Complete, `FEED 41` leaves the zero decoder. -/
theorem test_feed_lazy_reset :
    decAfter (.decFeed 0x41) (withDec { inFrame 8 4 0x90 0x1FF with status := .complete, mfill := 2 }) = some Decoder.zero := by decide
/-- The example of R103: from (InProgress, 5, 1), `FEED 33` takes logical 13 at index 5. -/
theorem test_feed_unescapes :
    (decAfter (.decFeed 0x33) (withDec (escaped (inFrame 5 9 8 0)))).map (fun d => (d.buf.read 5, d.pos, d.esc)) = some (0x13, 6, false) := by decide
/-- The example of R157. -/
theorem test_request :
    (nextOf (exec (.encRequest 0x10 2 [0x6F, 0x6E]) State.reset)).map (fun t => (t.enc.ebusy, t.enc.ek, t.encTxData, t.out.reqTaken)) =
      some (true, 0, 0x7E, some true) := by decide
/-- R155, vector X-1. -/
theorem test_request_wire :
    encOn.wire = [0x7E, 0x00, 0x10, 0x10, 0x00, 0x00, 0x00, 0x00, 0x00, 0x00, 0x00, 0x00, 0x00, 0xFF, 0xFE, 0x00, 0x00, 0x6F, 0x6E, 0x15] := by
  decide
/-- The example of R160: the 20th ACCEPT. -/
theorem test_accept_last :
    (encAfter .sinkAccept (busyAt 19)).map (fun e => (e.ebusy, e.ek, e.eres)) = some (false, 20, .ok) := by decide
theorem test_accept_takes :
    (nextOf (exec .sinkAccept (busyAt 17))).map (fun t => (t.out.sinkTook, t.enc.ek, t.enc.ebusy)) = some (some 0x6F, 18, true) := by decide
/-- The example of R161. -/
theorem test_stall : encAfter .sinkStall (busyAt 3) = some (busyAt 3).enc := by decide
/-- The example of R162. -/
theorem test_fail :
    (encAfter .sinkFail (busyAt 5)).map (fun e => (e.ebusy, e.ek, e.eres)) = some (false, 5, .transportError) := by decide
theorem test_reserved08 : refusalIn (exec (.reserved08 0) State.reset) = some .reservedRecord := by decide
theorem test_reserved10 : refusalIn (exec (.reserved10 0) State.reset) = some .reservedRecord := by decide
theorem test_reserved20 : refusalIn (exec (.reserved20 0) State.reset) = some .reservedRecord := by decide
theorem test_reserved40 : refusalIn (exec (.reserved40 0) State.reset) = some .reservedRecord := by decide
theorem test_reserved80 : refusalIn (exec (.reserved80 0) State.reset) = some .reservedRecord := by decide
/-- The example of R104: from (InProgress, 9, 0) to (Failed, 9, 0). -/
theorem test_wire_sof :
    (decAfter .wireSof (withDec (inFrame 9 20 8 0))).map (fun d => (d.status, d.pos, d.err)) = some (.failed, 9, .unexpectedStart) := by decide
/-- The example of R105, under SEED. -/
theorem test_wire_sof_seed :
    (decAfter .wireSof (seeding (inFrame 9 20 8 0))).map (fun d => (d.status, d.pos, d.buf)) = some (.inProgress, 1, [(0, 0x7E)]) := by decide
/-- The example of R102. -/
theorem test_wire_esc :
    (decAfter .wireEsc (withDec (inFrame 5 9 8 0))).map (fun d => (d.pos, d.esc)) = some (5, true) := by decide
/-- R107: 7D is skipped at pos 0. -/
theorem test_wire_esc_unsynchronised : decAfter .wireEsc State.reset = some Decoder.zero := by decide
/-- R73: XON and XOFF are data to the decoder. -/
theorem test_wire_xon :
    (decAfter .wireXon (withDec (inFrame 5 9 8 0))).map (fun d => (d.buf.read 5, d.ck)) = some (0x11, 0x0011) := by decide
theorem test_wire_xoff :
    (decAfter .wireXoff (withDec (inFrame 5 9 8 0))).map (fun d => (d.buf.read 5, d.ck)) = some (0x13, 0x0013) := by decide
/-- The example of R115: from (InProgress, 4, 0) with dlen = 5, `FEED 41`. -/
theorem test_wire_data :
    (decAfter (.wireData 0x41) (withDec (inFrame 4 5 8 8))).map (fun d => (d.buf.read 4, d.pos, d.ck)) = some (0x41, 5, 0x0049) := by decide
/-- R103: 7D 5E is the data byte 7E; 7D 41 is 61. -/
theorem test_wire_pair :
    (decAfter (.wireEscpair 0x5E) (withDec (inFrame 4 5 8 0))).map (fun d => (d.buf.read 4, d.pos, d.esc)) = some (0x7E, 5, false) := by decide
theorem test_wire_pair_unreserved :
    (decAfter (.wireEscpair 0x41) (withDec (inFrame 4 5 8 0))).map (fun d => (d.buf.read 4, d.pos)) = some (0x61, 5) := by decide
theorem test_sync_hit : (decAfter .decSyncHit State.reset).map (fun d => (d.pos, d.buf)) = some (1, [(0, 0x7E)]) := by decide
theorem test_sync_miss : decAfter (.decSyncMiss 0x5E) State.reset = some Decoder.zero := by decide
theorem test_dec_esc : (decAfter .decEsc (withDec (escaped (inFrame 5 9 8 0)))).map (fun d => (d.pos, d.esc)) = some (5, true) := by decide
theorem test_dec_abort : evAfter .decAbort (withDec (escaped (inFrame 2 9 8 0))) = some (some (.error .unexpectedStart)) := by decide
/-- The example of R108. -/
theorem test_lenhi : (decAfter (.decLenhi 0x01) (withDec (inFrame 1 0 0 0))).map (fun d => (d.pos, d.dlen)) = some (2, 0) := by decide
/-- The example of R109, the byte escaped. -/
theorem test_lenlo : (decAfter (.decLenlo 0x11) (withDec (escaped (inFrame 2 0 0 0)))).map (fun d => (d.dlen, d.pos)) = some (0x11, 3) := by decide
/-- The example of R110. -/
theorem test_api : (decAfter (.decApi 0x90) (withDec (inFrame 3 9 0 0))).map (fun d => (d.api, d.ck, d.pos)) = some (0x90, 0x0090, 4) := by decide
/-- The example of R113, M = 24: the byte at index 25. -/
theorem test_toolarge :
    (decAfter (.decToolarge 0x01) (withDec (inFrame 25 22 1 0))).map (fun d => (d.status, d.err, d.pos, d.buf)) =
      some (.failed, .frameTooLarge, 25, []) := by decide
/-- R60, R115, M = 24: at index 24 the byte is summed and counted, not kept. -/
theorem test_data_at_M :
    (decAfter (.decData 0x02) (withDec (inFrame 24 22 1 0))).map (fun d => (d.pos, d.ck, d.buf)) = some (25, 2, []) := by decide
/-- R112, RDI = 15: the first message byte. -/
theorem test_msg :
    (decAfter (.decMsg 0x6F) (withDec (inFrame 15 15 0x90 0))).map (fun d => (d.mfill, d.msg, d.pos)) = some (1, [(0, 0x6F)], 16) := by decide
/-- The example of R114: `7E 00 01 08 F7` gives FrameReady(08, empty). -/
theorem test_final_ok : evAfter (.decFinalOk 0xF7) (withDec (inFrame 4 1 8 8)) = some (some (.frameReady 8 [])) := by decide
theorem test_final_bad :
    (decAfter (.decFinalBad 0xF6) (withDec (inFrame 4 1 8 8))).map (fun d => (d.status, d.err, d.pos)) = some (.failed, .checksumFailure, 5) := by decide
/-- R83: script text to records. -/
theorem test_assemble :
    assemble ['R', 'E', 'S', 'E', 'T', '\n', 'F', 'E', 'E', 'D', ' ', '0', 'x', '7', 'E'] State.reset = some [0x01, 0x03, 0x7E] := by decide
/-- The list forms of programs P5 and P6 and of E-10 and E-17: `7E × 2, 7D*1 00 .. 02`; a comma with no item after it is refused. -/
theorem test_byte_list_forms :
    (tokens ['7', 'E', ' ', '×', ' ', '2', ',', ' ', '7', 'D', '*', '1', ' ', '0', '0', ' ', '.', '.', ' ', '0', '2']).bind byteList
      = some [0x7E, 0x7E, 0x7D, 0x00, 0x01, 0x02] ∧
    (tokens ['7', 'E', ',']).bind byteList = none := by decide

-- ==== Witnesses: the hypotheses of each statement hold together somewhere ====

/-- The state after RESET is sound. -/
theorem reset_safe : State.reset.Safe :=
  ⟨by decide, by constructor <;> decide, by constructor <;> decide⟩

/-- The block busy with `ENC 0x10, "on"` is sound. -/
theorem busy_safe : busyOn.Safe :=
  ⟨by decide, by constructor <;> decide, by constructor <;> decide⟩

/-- A decoder inside the frame `7E 00 01 08`. -/
def afterApi : Decoder := { inFrame 4 1 8 8 with buf := [(0, 0x7E), (2, 0x01), (3, 0x08)] }

theorem afterApi_safe : (withDec afterApi).Safe :=
  ⟨by decide, by constructor <;> decide, by constructor <;> decide⟩

theorem witness_DecodeOfEncode :
    (Instr.encRequest 0x10 2 [0x6F, 0x6E]).wf = true ∧ Instr.wireEsc.wf = true ∧ (Instr.wireEsc = .wireEsc → ([] : List Byte) = []) := by decide
theorem witness_EncodeOfDecode :
    decode .record [0x03, 0x7E, 0x05] = .ok (.decFeed 0x7E) [0x05] ∧ decode .wire [0x7D] = .ok .wireEsc [] ∧
    decode (.decCase .api) [0x90] = .ok (.decApi 0x90) [] := by decide
theorem witness_ScriptAcceptedIffRecords :
    decodeScript [0x01, 0x03, 0x7E] = .ok [.reset, .decFeed 0x7E] := by decide
/-- Both clauses: op bytes 08 and FF, and a DEC.FEED without its byte. -/
theorem witness_BadScriptIsRefusedWhole :
    (∀ op ∈ ([0x08, 0xFF] : List Byte), 0x08 ≤ op.toNat ∧ ∃ s : State, s.cfg.wf = true ∧
      (∀ i ∈ [Instr.nop, .sinkAccept], i.wf = true ∧ i.isOperation = true) ∧ s.input = .script (encodeScript [.nop, .sinkAccept] ++ [op])) ∧
    (∃ s : State, s.cfg.wf = true ∧ s.input = .script (encodeScript [.nop, .sinkAccept] ++ [0x03]) ∧
      (Instr.decFeed 0x41).wf = true ∧ (Instr.decFeed 0x41).isOperation = true ∧ ([0x03] : List Byte) ++ [0x41] = encode (.decFeed 0x41)) :=
  ⟨fun op h => ⟨by revert op; decide, { State.reset with input := .script (encodeScript [.nop, .sinkAccept] ++ [op]) }, rfl, by decide, rfl⟩,
   { State.reset with input := .script (encodeScript [.nop, .sinkAccept] ++ [0x03]) }, by decide, rfl, by decide⟩

theorem witness_StepRunsDecodedRecord :
    ∃ s : State, s.cfg.wf = true ∧ s.resetDone = true ∧ s.input = .script [0x03, 0x7E, 0x05] ∧
      decodeScript [0x03, 0x7E, 0x05] = .ok [.decFeed 0x7E, .sinkAccept] ∧ decodeRecord [0x03, 0x7E, 0x05] = .ok (.decFeed 0x7E) [0x05] :=
  ⟨{ State.reset with input := .script [0x03, 0x7E, 0x05] }, by decide⟩
/-- The wire, dispatch-case, cycle and empty clauses. -/
theorem witness_StepRunsWireBytesAndCases :
    State.reset.cfg.wf = true ∧ State.reset.resetDone = true ∧
    (∃ s : State, s.cfg.wf = true ∧ s.resetDone = true ∧ s.input = .wire [0x7D, 0x5E, 0x41] ∧ decodeWire [0x7D, 0x5E, 0x41] = .ok (.wireEscpair 0x5E) [0x41]) ∧
    (∃ s : State, s.cfg.wf = true ∧ s.resetDone = true ∧ s.input = .rx [0x7E]) ∧
    (∃ (s : State) (g : Signals), s.cfg.wf = true ∧ s.resetDone = true ∧ s.input = .cycles [g]) ∧ State.reset.input = .script [] :=
  ⟨by decide, rfl, ⟨{ State.reset with input := .wire [0x7D, 0x5E, 0x41] }, by decide⟩, ⟨{ State.reset with input := .rx [0x7E] }, by decide⟩,
   ⟨{ State.reset with input := .cycles [{ noStrobe with rst := true }] }, _, by decide, rfl, rfl⟩, rfl⟩

/-- Each input form before RESET, with bytes and without, and a cycle with rst and one without a strobe. -/
theorem witness_StepRefusesAtTheModelBoundary :
    (∃ s : State, s.cfg.wf = false) ∧
    (∃ s : State, s.cfg.wf = true ∧ s.resetDone = false ∧ s.input = .script [0x00] ∧ decodeScript [0x00] = .ok [.nop] ∧
      decodeRecord [0x00] = .ok .nop [] ∧ Instr.nop ≠ .reset) ∧
    (∃ s : State, s.cfg.wf = true ∧ s.resetDone = false ∧ s.input = .script [0x01] ∧ decodeScript [0x01] = .ok [.reset] ∧
      decodeRecord [0x01] = .ok .reset []) ∧
    (∀ inp ∈ [Input.script [], .wire [], .wire [0x7D, 0x5E], .rx [], .rx [0x7E], .cycles [], .cycles [noStrobe], .cycles [{ noStrobe with rst := true }]],
      ∃ s : State, s.cfg.wf = true ∧ s.resetDone = false ∧ s.input = inp) ∧
    noStrobe.rst = false ∧ ({ noStrobe with rst := true } : Signals).rst = true :=
  ⟨⟨{ State.reset with cfg := { Config.tc1 with receivedDataIdx := 25 } }, by decide⟩,
   ⟨{ State.reset with resetDone := false, input := .script [0x00] }, by decide⟩,
   ⟨{ State.reset with resetDone := false, input := .script [0x01] }, by decide⟩,
   fun inp _ => ⟨{ State.reset with resetDone := false, input := inp }, (by decide : State.reset.cfg.wf = true), rfl, rfl⟩, rfl, rfl⟩

theorem witness_ResetObservables : ∃ t, exec .reset busyOn = .next t := ⟨_, rfl⟩
theorem witness_ResetWritesEveryRegister :
    ∃ g : Signals, g.rst = true :=
  ⟨{ noStrobe with rst := true, rxValid := true }, rfl⟩
theorem witness_ClearZeroesTheDecoder :
    ∃ g : Signals, g.decClear = true :=
  ⟨{ noStrobe with decClear := true }, rfl⟩
theorem witness_ReservedRecordsAreRefused : 0x08 ≤ (0x08 : Byte).toNat ∧ 0x08 ≤ (0xFF : Byte).toNat := by decide
theorem witness_FeedAfterTerminalStatus :
    Config.tc1.wf = true ∧ (withDec { Decoder.zero with status := .failed, err := .frameTooLarge }).dec.status ≠ .inProgress ∧
    (withDec { Decoder.zero with status := .complete }).dec.status ≠ .inProgress ∧ (0x7D : Byte) ≠ startByte := by decide
/-- At the first position past the start byte, and at M + 1. -/
theorem witness_EscapeMarkerArmsEsc :
    (withDec (inFrame 1 0 0 0)).dec.status = .inProgress ∧ 0 < (withDec (inFrame 1 0 0 0)).dec.pos.toNat ∧
    (withDec (escaped (inFrame 25 0 0 0))).dec.status = .inProgress ∧ 0 < (withDec (escaped (inFrame 25 0 0 0))).dec.pos.toNat := by decide
theorem witness_RawStartAbortsUnderDiscard :
    (withDec (inFrame 1 0 0 0)).cfg.startGuard = .raw ∧ (withDec (inFrame 1 0 0 0)).cfg.abortPolicy = .discard ∧
    (withDec (inFrame 1 0 0 0)).dec.status = .inProgress ∧ 0 < (withDec (inFrame 1 0 0 0)).dec.pos.toNat ∧
    0 < (withDec (escaped (inFrame 25 0 0 0))).dec.pos.toNat := by decide
theorem witness_RawStartSeedsUnderSeed :
    seedCfg.wf = true ∧ (seeding (inFrame 1 0 0 0)).cfg.startGuard = .raw ∧ (seeding (inFrame 1 0 0 0)).cfg.abortPolicy = .seed ∧
    (seeding (inFrame 1 0 0 0)).dec.status = .inProgress ∧ 0 < (seeding (inFrame 1 0 0 0)).dec.pos.toNat := by decide
theorem witness_SynchronisationAtPositionZero :
    Config.tc1.wf = true ∧ State.reset.dec.status = .inProgress ∧ State.reset.dec.pos = 0 ∧ State.reset.dec.esc = false ∧
    (0x7D : Byte) ≠ startByte ∧ (0x11 : Byte) ≠ startByte := by decide
/-- Each of the three positions, plain and escaped. -/
theorem witness_HeaderBytes :
    Config.tc1.wf = true ∧ (inFrame 1 0 0 0).Delivers Config.tc1 0x00 0x00 ∧ (inFrame 2 0 0 0).Delivers Config.tc1 0x05 0x05 ∧
    (escaped (inFrame 2 0 0 0)).Delivers Config.tc1 0x5E 0x7E ∧ (inFrame 3 5 0 0).Delivers Config.tc1 0x90 0x90 := by
  unfold Decoder.Delivers; decide
theorem witness_FrameTooLargeAboveM :
    (inFrame 25 22 1 0).Delivers Config.tc1 0x01 0x01 ∧ 4 ≤ (inFrame 25 22 1 0).pos.toNat ∧
    Config.tc1.maxFrameSize < (inFrame 25 22 1 0).pos.toNat := by
  unfold Decoder.Delivers; decide
/-- The first message index, and the last one below M. -/
theorem witness_MessageByteIsCopied :
    (inFrame 15 15 0x90 0).Delivers Config.tc1 0x6F 0x6F ∧ 15 ≤ (inFrame 15 15 0x90 0).pos.toNat ∧
    (inFrame 15 15 0x90 0).pos.toNat < (15 : Byte).toNat + 3 ∧ (inFrame 15 15 0x90 0).mfill.toNat < Config.tc1.msgCap ∧
    ({ inFrame 24 22 0x90 0 with mfill := 9 } : Decoder).Delivers Config.tc1 0x01 0x01 ∧ (24 : Half).toNat ≤ Config.tc1.maxFrameSize ∧
    (24 : Half).toNat < (22 : Byte).toNat + 3 ∧ (9 : Half).toNat < Config.tc1.msgCap := by
  unfold Decoder.Delivers; decide
/-- One state for each of the three ways of not being in the message region, and both ends of the position range. -/
theorem witness_DataByteIsSummedAndStored :
    (inFrame 4 5 8 0).Delivers Config.tc1 0x41 0x41 ∧ (4 : Half).toNat ≠ (5 : Byte).toNat + 3 ∧ (inFrame 4 5 8 0).api ≠ 0x90 ∧
    (inFrame 14 15 0x90 0).Delivers Config.tc1 0x11 0x11 ∧ (14 : Half).toNat < Config.tc1.receivedDataIdx ∧
    (inFrame 24 0 0x90 0).Delivers Config.tc1 0x13 0x13 ∧ (0 : Byte).toNat + 3 < (24 : Half).toNat ∧
    (24 : Half).toNat ≤ Config.tc1.maxFrameSize := by
  unfold Decoder.Delivers; decide
/-- The first and the last checksum index, with a good and a bad sum. -/
theorem witness_ChecksumByteFinalises :
    (inFrame 4 1 8 8).Delivers Config.tc1 0xF7 0xF7 ∧ (4 : Half).toNat = (1 : Byte).toNat + 3 ∧ low8 ((8 : Half) + zext16 0xF7) = 0xFF ∧
    (inFrame 24 21 8 8).Delivers Config.tc1 0xF6 0xF6 ∧ (24 : Half).toNat = (21 : Byte).toNat + 3 ∧ (24 : Half).toNat ≤ Config.tc1.maxFrameSize ∧
    low8 ((8 : Half) + zext16 0xF6) ≠ 0xFF := by
  unfold Decoder.Delivers; decide
theorem witness_EscapePairDeliversItsByte :
    (withDec (escaped (inFrame 1 0 0 0))).cfg.startGuard = .raw ∧ (withDec (escaped (inFrame 1 0 0 0))).dec.status = .inProgress ∧
    0 < (withDec (escaped (inFrame 1 0 0 0))).dec.pos.toNat ∧ (withDec (inFrame 1 0 0 0)).dec.mfill.toNat < Config.tc1.msgCap ∧
    (∀ v ∈ [startByte, escMarker, xonByte, xoffByte], isReserved v = true) := by decide
theorem witness_ByteInstructionsComplete :
    (withDec afterApi).Safe ∧ (Instr.decFeed 0xF7).takesByte = true ∧ (Instr.wireEscpair 0x5E).takesByte = true ∧
    (Instr.decFinalBad 0x00).takesByte = true := ⟨afterApi_safe, by decide⟩
theorem witness_EventDecidesStatus :
    (∃ t, exec (.decFeed 0xF7) (withDec afterApi) = .next t) ∧ (∃ t, exec (.decFeed 0xF6) (withDec afterApi) = .next t) ∧
    evAfter (.decFeed 0x7E) State.reset = some (some .needMore) ∧
    evAfter (.decFeed 0xF7) (withDec afterApi) = some (some (.frameReady 8 [])) ∧
    evAfter (.decFeed 0xF6) (withDec afterApi) = some (some (.error .checksumFailure)) ∧
    Config.tc1.abortPolicy = .discard := ⟨⟨_, rfl⟩, ⟨_, rfl⟩, by decide⟩
theorem witness_FeedChangesTheDecoderButInTwoCases :
    (withDec afterApi).Safe ∧ (withDec afterApi).cfg.startGuard = .raw ∧ (withDec afterApi).cfg.abortPolicy = .discard ∧
    ∃ t, exec (.decFeed 0x7D) (withDec afterApi) = .next t := ⟨afterApi_safe, rfl, rfl, _, rfl⟩
theorem witness_FeedFrame :
    afterApi.Delivers Config.tc1 0xF7 0xF7 ∧ afterApi.buf.wf = true ∧ afterApi.msg.wf = true ∧
    (nextOf (exec (.decFeed 0xF7) (withDec afterApi))).isSome = true := by
  unfold Decoder.Delivers; decide
theorem witness_RequestWhileBusyIsNotTaken : busyOn.enc.ebusy = true := by decide
/-- The empty payload, and the longest one. -/
theorem witness_RequestIsLatched :
    State.reset.enc.ebusy = false ∧ (0 : Byte).toNat ≤ 241 ∧ ([] : List Byte).length = (0 : Byte).toNat ∧ (241 : Byte).toNat ≤ 241 ∧
    (List.replicate 241 (0x7E : Byte)).length = (241 : Byte).toNat ∧ State.reset.enc.txp.wf = true := by
  refine ⟨rfl, by decide, rfl, by decide, ?_, rfl⟩
  rw [List.length_replicate]; rfl
theorem witness_LongRequestIsLengthError : State.reset.enc.ebusy = false ∧ 241 < (242 : Byte).toNat := by decide
/-- A byte in the middle, the last byte, and an idle step that changes ek. -/
theorem witness_AcceptTakesTheOfferedByte :
    (busyAt 17).enc.ebusy = true ∧ (busyAt 17).enc.wire[(busyAt 17).enc.ek.toNat]? = some 0x6F ∧
    (busyAt 17).enc.ek.toNat + 1 ≠ (busyAt 17).enc.wire.length ∧
    (busyAt 19).enc.wire[(busyAt 19).enc.ek.toNat]? = some 0x15 ∧ (busyAt 19).enc.ek.toNat + 1 = (busyAt 19).enc.wire.length ∧
    (nextOf (exec (.encRequest 0x10 0 []) { State.reset with enc := { Encoder.zero with ek := 20, eres := .ok } })).map (fun t => t.enc.ek) = some 0 := by
  decide
theorem witness_StallChangesNothing :
    ∃ g : Signals, g.txReady = false ∧ g.txFail = false :=
  ⟨noStrobe, rfl, rfl⟩
theorem witness_FailEndsTheFrame :
    (busyAt 5).enc.ebusy = true ∧ ∃ g : Signals, g.txFail = true :=
  ⟨rfl, { noStrobe with txReady := true, txFail := true }, rfl⟩
theorem witness_AnswersWhileIdleChangeNothing : State.reset.enc.ebusy = false := by decide
theorem witness_IdleOutputs : ({ State.reset with enc := { encOn with ebusy := false, ek := 20, eres := .ok } } : State).enc.ebusy = false := by decide
theorem witness_OfferChangesOnlyByAnswerOrReset :
    busyOn.enc.ebusy = true ∧ (∃ t, exec .sinkStall busyOn = .next t) ∧ Instr.sinkStall ≠ .sinkAccept ∧ Instr.sinkStall ≠ .sinkFail ∧
    Instr.sinkStall ≠ .reset ∧ busyOn.enc.wire[busyOn.enc.ek.toNat]? = some 0x7E := ⟨by decide, ⟨_, rfl⟩, by decide⟩
/-- Each of the three ways. -/
theorem witness_FrameEndsEarlyOnlyByFailOrReset :
    (busyAt 19).enc.ebusy = true ∧ (encAfter .sinkAccept (busyAt 19)).map Encoder.ebusy = some false ∧
    (encAfter .sinkFail (busyAt 5)).map Encoder.ebusy = some false ∧ (encAfter .reset (busyAt 5)).map Encoder.ebusy = some false := by decide
/-- Before the last byte and at it. -/
theorem witness_AcceptsSendTheWireInOrder :
    busyOn.Safe ∧ busyOn.enc.ebusy = true ∧ busyOn.enc.ek = 0 ∧ 19 < busyOn.enc.wire.length ∧ 20 = busyOn.enc.wire.length :=
  ⟨busy_safe, by decide⟩
theorem witness_WireLength : ([] : List Byte).length ≤ 241 ∧ (List.replicate 241 (0x7E : Byte)).length ≤ 241 := by
  rw [List.length_replicate]; exact ⟨Nat.zero_le _, Nat.le_refl _⟩
theorem witness_WireHasOneStartByte : (encodeWire 0x7E [])[3]? = some escMarker ∧ (encodeWire 0x7E [])[0]? = some startByte := by decide
theorem witness_RunningSumEncoderRefinesWire : ([0x6F, 0x6E] : List Byte).length ≤ 241 ∧ 19 < (encodeWire 0x10 [0x6F, 0x6E]).length := by decide
theorem witness_UnitsAreIndependent :
    (∃ t, exec (.decFeed 0x7E) busyOn = .next t) ∧ (Instr.decFeed 0x7E).isDecoderOp = true ∧
    (∃ t, exec .sinkAccept busyOn = .next t) ∧ Instr.sinkAccept.isEncoderOp = true := ⟨⟨_, rfl⟩, rfl, ⟨_, rfl⟩, rfl⟩
theorem witness_StepsOfDifferentAgentsCommute :
    Instr.decClear.isDecoderOp = true ∧ Instr.sinkAccept.isEncoderOp = true ∧ (∃ a, exec .decClear busyOn = .next a) ∧
    (∃ b, exec .sinkAccept busyOn = .next b) := ⟨rfl, rfl, ⟨_, rfl⟩, ⟨_, rfl⟩⟩
/-- A feed with an accept while busy and with a request while idle; a cycle with rst; two decoder operations. -/
theorem witness_CycleIsBothOperationsInEitherOrder :
    ∃ g r d : Signals, r.rst = true ∧ d.rst = false ∧ (d.decClear && d.rxValid) = true ∧ g.rst = false ∧ (g.decClear && g.rxValid) = false ∧
      (∃ u, cycle g busyOn = .next u) ∧ ∃ u, cycle g State.reset = .next u :=
  ⟨{ noStrobe with rxValid := true, rxData := 0x7E, txReqValid := true, txReady := true }, { noStrobe with rst := true, decClear := true, rxValid := true },
   { noStrobe with decClear := true, rxValid := true }, rfl, rfl, rfl, rfl, rfl, ⟨_, rfl⟩, _, rfl⟩
/-- An encoder flag that changes, a decoder flag that changes, and eres returning to None. -/
theorem witness_WhoWritesTheFlags :
    (encAfter .sinkFail busyOn).map Encoder.eres = some .transportError ∧ (decAfter .wireEsc (withDec (inFrame 1 0 0 0))).map Decoder.esc = some true ∧
    (encAfter (.encRequest 0x10 0 []) { State.reset with enc := { Encoder.zero with eres := .ok } }).map Encoder.eres = some .none := by decide
/-- The last index below MSG_CAP and the first one not below it; each status; the ends of each range of pos. -/
theorem witness_StatusViewLayout :
    State.reset.cfg.msgCap ≤ (10 : Half).toNat ∧ (9 : Half).toNat < State.reset.cfg.msgCap ∧
    (∀ st ∈ [Status.inProgress, .complete, .failed], ∃ s : State, s.dec.status = st) ∧
    (∀ p ∈ [(0 : Half), 1, 2, 3, 4, 65535], (withDec (inFrame p 0 0 0)).dec.status = .inProgress ∧ (withDec (inFrame p 0 0 0)).dec.pos = p) ∧
    4 ≤ (withDec (inFrame 4 0 0 0)).dec.pos.toNat :=
  ⟨by decide, by decide, fun st _ => ⟨withDec { Decoder.zero with status := st }, rfl⟩, fun _ _ => ⟨rfl, rfl⟩, by decide⟩
/-- The smallest and the largest parameters R6 allows. -/
theorem witness_ResetIsSafe :
    ({ Config.tc1 with maxFrameSize := 4, receivedDataIdx := 4 } : Config).wf = true ∧
    ({ seedCfg with maxFrameSize := 65533 } : Config).wf = true := by decide
theorem witness_StepKeepsSafe :
    State.Safe { withDec afterApi with input := .script [0x03, 0xF7] } ∧
    ∃ t, step { withDec afterApi with input := .script [0x03, 0xF7] } = .next t :=
  ⟨⟨afterApi_safe.cfg, afterApi_safe.dec, afterApi_safe.enc⟩, _, rfl⟩
theorem witness_SafeStateNeverFaults : busyOn.Safe := busy_safe
theorem witness_StepKeepsTheRunningSum :
    State.Safe { withDec afterApi with input := .script [0x03, 0xF7] } ∧ afterApi.SumOfStored Config.tc1 ∧
    ∃ t, step { withDec afterApi with input := .script [0x03, 0xF7] } = .next t :=
  ⟨⟨afterApi_safe.cfg, afterApi_safe.dec, afterApi_safe.enc⟩, fun _ _ => by decide, _, rfl⟩
/-- The shortest frame, l = 1, from the zero decoder, its bytes raw; good and bad sum. -/
theorem witness_WellFormedFrameIsDecoded :
    Config.tc1.wf = true ∧ Config.tc1.startGuard = .raw ∧ Decoder.zero.Safe Config.tc1 ∧ Decoder.zero.pos = 0 ∧ 1 ≤ (1 : Byte).toNat ∧
    ([] : List Byte).length = (1 : Byte).toNat - 1 ∧ (1 : Byte).toNat + 3 ≤ Config.tc1.maxFrameSize ∧
    Carried [0x00, 0x01, 0x08, 0xF7] [0x00, 0x01, 0x08, 0xF7] ∧ sum8 (0x08 :: ([] ++ [0xF7])) = 0xFF ∧ sum8 (0x08 :: ([] ++ [0xF6])) ≠ 0xFF :=
  ⟨by decide, rfl, reset_safe.dec, rfl, by decide, rfl, by decide,
   .cons 0x00 [0x00] _ _ (.inl rfl) (.cons 0x01 [0x01] _ _ (.inl rfl) (.cons 0x08 [0x08] _ _ (.inl rfl) (.cons 0xF7 [0xF7] _ _ (.inl rfl) .nil))),
   by decide, by decide⟩
/-- M = 24. n = 7: the checksum byte is the last that fits the check and is not kept; n = 8: one too many. Declared lengths 21 and
22 on either side of M; 25 bytes after the start byte with declared length 22 and 0. -/
theorem witness_EncodedFrameIsDecoded :
    Config.tc1.wf = true ∧ Config.tc1.startGuard = .raw ∧ Decoder.zero.Safe Config.tc1 ∧ Decoder.zero.pos = 0 ∧
    (List.replicate 7 (0x6F : Byte)).length + 17 ≤ Config.tc1.maxFrameSize ∧ ([0x6F] : List Byte).length + 17 < Config.tc1.maxFrameSize ∧
    (List.replicate 8 (0x6F : Byte)).length ≤ 241 ∧ Config.tc1.maxFrameSize < (List.replicate 8 (0x6F : Byte)).length + 17 ∧
    (∀ l ∈ [(21 : Byte), 22], 1 ≤ l.toNat ∧ (List.replicate (l.toNat - 1) (0x41 : Byte)).length = l.toNat - 1 ∧
      ∃ w, Carried (0x00 :: l :: 0x01 :: (List.replicate (l.toNat - 1) 0x41 ++ [0xEA])) w) ∧
    ¬ Config.tc1.maxFrameSize < (21 : Byte).toNat + 3 ∧ Config.tc1.maxFrameSize < (22 : Byte).toNat + 3 ∧
    (∀ l ∈ [(0 : Byte), 22], (l = 0 ∨ Config.tc1.maxFrameSize < l.toNat + 3) ∧
      ((0x00 : Byte) :: l :: List.replicate 23 0x41).length = Config.tc1.maxFrameSize + 1 ∧
      ∃ w, Carried (0x00 :: l :: List.replicate 23 0x41) w) :=
  ⟨by decide, rfl, reset_safe.dec, rfl, by decide, by decide, by decide, by decide,
   fun l h => ⟨by revert h l; decide, List.length_replicate .., _, Carried.of_escByte _⟩, by decide, by decide,
   fun l h => ⟨by revert h l; decide, rfl, _, Carried.of_escByte _⟩⟩
/-- At pos 4 and at M + 1. -/
theorem witness_LengthZeroNeverFinalises :
    Config.tc1.wf = true ∧ (inFrame 25 0 8 8).status = .inProgress ∧ 4 ≤ (inFrame 4 0 8 8).pos.toNat ∧
    (inFrame 25 0 8 8).pos.toNat ≤ Config.tc1.maxFrameSize + 1 ∧ (inFrame 25 0 8 8).dlen = 0 ∧
    ((inFrame 25 0 8 8).feedAll Config.tc1 [0x01]).2.find? (fun x => x != .needMore) = some (.error .frameTooLarge) := by decide
theorem witness_FrameReadyDataIsReadable :
    (withDec afterApi).Safe ∧ (∃ t, exec (.decFeed 0xF7) (withDec afterApi) = .next t ∧ t.out.ev = some (.frameReady 8 []) ∧
      ∃ u, runOps [.sinkStall, .nop] t = .next u) ∧ Instr.sinkStall.isDecoderOp = false ∧ Instr.sinkStall ≠ .reset :=
  ⟨afterApi_safe, ⟨_, rfl, rfl, _, rfl⟩, rfl, by decide⟩
theorem witness_BytesAfterAnAbortAreSkipped :
    Config.tc1.startGuard = .raw ∧ Config.tc1.abortPolicy = .discard ∧ (inFrame 1 0 0 0).status = .inProgress ∧
    0 < (inFrame 1 0 0 0).pos.toNat ∧ (∀ b ∈ ([0x7D, 0x5E] : List Byte), b ≠ startByte) ∧ ([0x7D, 0x5E] : List Byte) ≠ [] := by decide
theorem witness_DrainEndsTheFrame : busyOn.Safe ∧ busyOn.enc.ebusy = true := ⟨busy_safe, by decide⟩
/-- Each event: from pos 1, and at the end of the frame `7E 00 01 08` and above M; and a step without one. -/
theorem witness_EventPortsShowTheStep :
    Instr.wireEsc.takesByte = true ∧ Instr.nop.takesByte = false ∧ State.reset.cfg.abortPolicy = .discard ∧
    evAfter .wireEsc (withDec (inFrame 1 0 0 0)) = some (some .needMore) ∧ evAfter (.decFeed 0xF7) (withDec afterApi) = some (some (.frameReady 8 [])) ∧
    evAfter (.decFeed 0xF6) (withDec afterApi) = some (some (.error .checksumFailure)) ∧
    evAfter (.decFeed 0x41) (withDec (inFrame 25 22 1 0)) = some (some (.error .frameTooLarge)) ∧
    evAfter .wireSof (withDec (inFrame 1 0 0 0)) = some (some (.error .unexpectedStart)) ∧ evAfter .nop State.reset = some none ∧
    ∃ t, exec .wireSof (withDec (inFrame 1 0 0 0)) = .next t ∧ (t.outputPorts 0).decEv = 0b10 :=
  ⟨rfl, rfl, rfl, by decide, by decide, by decide, by decide, by decide, by decide, _, rfl, by decide⟩

end Sys2Proof.Tests
end

section
/-! PROOFS. The model's boundary (R6, R203, R232): what a step refuses before the first RESET, and that the state after RESET
is sound. -/

namespace Sys2Proof.Machine

/-- With an allowed configuration a step runs what it fetches. -/
theorem step_eq_run {s : State} (hc : s.cfg.wf = true) : step s = run s (fetch s) := by
  simp [step, hc]

theorem step_illFormed {s : State} (hc : s.cfg.wf = false) : step s = .refused .illFormedConfig := by
  simp [step, hc]

/-! What each form of input hands to the step. -/

theorem decodeScript_nil : decodeScript [] = .ok [] := rfl

/-- No record stands in front of an empty script. -/
theorem decodeScript_ne_ok_nil {bs rest : List Byte} {i : Instr} (hr : decodeRecord bs = .ok i rest) :
    decodeScript bs ≠ .ok [] := by
  cases bs with
  | nil => cases hr
  | cons b bs =>
    simp only [decodeScript, List.length_cons, decodeRecords, hr]
    split
    · cases decodeRecords bs.length rest <;> simp [Script.cons]
    · exact nofun

/-- The first record of a good script (R82). -/
theorem fetch_script_record {s : State} {bs rest : List Byte} {ops : List Instr} {i : Instr} (hin : s.input = .script bs)
    (hs : decodeScript bs = .ok ops) (hr : decodeRecord bs = .ok i rest) :
    fetch s = .instr i { s with input := .script rest } := by
  cases ops with
  | nil => exact absurd hs (decodeScript_ne_ok_nil hr)
  | cons j js => simp [fetch, hin, fetchScript, hs, hr, fetched]

/-- A wire byte always spells a wire row (R73), and none of them is RESET. -/
theorem decodeWire_cons (w : Byte) (bs : List Byte) : ∃ i rest, decodeWire (w :: bs) = .ok i rest ∧ i ≠ .reset := by
  simp only [decodeWire]
  split_ifs
  · exact ⟨_, _, rfl, nofun⟩
  · cases bs <;> exact ⟨_, _, rfl, nofun⟩
  · exact ⟨_, _, rfl, nofun⟩
  · exact ⟨_, _, rfl, nofun⟩
  · exact ⟨_, _, rfl, nofun⟩

theorem DecCase.instr_ne_reset (k : DecCase) (x : Byte) : k.instr x ≠ .reset := by
  cases k <;> exact nofun

/-- The byte source by wire class hands over nothing, or an operation that is not RESET. -/
theorem fetch_wire_shape {s : State} {bs : List Byte} (hin : s.input = .wire bs) :
    fetch s = .idle ∨ ∃ i t, fetch s = .instr i t ∧ i ≠ .reset := by
  cases bs with
  | nil => left; simp [fetch, hin, fetchWire]
  | cons w bs =>
    obtain ⟨i, rest, hd, hi⟩ := decodeWire_cons w bs
    exact .inr ⟨i, { s with input := .wire rest }, by simp [fetch, hin, fetchWire, hd, fetched], hi⟩

/-- The byte source by dispatch case hands over nothing, or an operation that is not RESET. -/
theorem fetch_rx_shape {s : State} {bs : List Byte} (hin : s.input = .rx bs) :
    fetch s = .idle ∨ ∃ i t, fetch s = .instr i t ∧ i ≠ .reset := by
  cases bs with
  | nil => left; simp [fetch, hin, fetchRx]
  | cons raw rest =>
    right
    simp only [fetch, hin, fetchRx]
    exact ⟨_, _, rfl, DecCase.instr_ne_reset _ _⟩

theorem fetch_cycles_cons {s : State} {g : Signals} {rest : List Signals} (hin : s.input = .cycles (g :: rest)) :
    fetch s = .cycle g { s with input := .cycles rest } := by
  simp [fetch, hin, fetchCycle]

theorem fetch_script_nil {s : State} (hin : s.input = .script []) : fetch s = .idle := by
  simp [fetch, hin, fetchScript, decodeScript_nil]

theorem fetch_cycles_nil {s : State} (hin : s.input = .cycles []) : fetch s = .idle := by
  simp [fetch, hin, fetchCycle]

/-! RESET runs in every state; before it nothing else does. -/

theorem run_instr_reset (s t : State) : run s (.instr .reset t) = exec .reset t := by
  simp [run, afterReset]

theorem run_cycle_rst (s t : State) {g : Signals} (hg : g.rst = true) : run s (.cycle g t) = exec .reset t := by
  simp [run, afterReset, cycle, hg]

theorem run_idle_beforeReset {s : State} (h : s.resetDone = false) : run s .idle = .refused .beforeReset := by
  simp [run, afterReset, h]

theorem run_instr_beforeReset {s : State} (h : s.resetDone = false) {i : Instr} (hi : i ≠ .reset) (t : State) :
    run s (.instr i t) = .refused .beforeReset := by
  simp [run, afterReset, h, hi]

theorem run_cycle_beforeReset {s : State} (h : s.resetDone = false) {g : Signals} (hg : g.rst = false) (t : State) :
    run s (.cycle g t) = .refused .beforeReset := by
  simp [run, afterReset, h, hg]

theorem step_idle_beforeReset {s : State} (hc : s.cfg.wf = true) (h : s.resetDone = false) (hf : fetch s = .idle) :
    step s = .refused .beforeReset := by
  rw [step_eq_run hc, hf, run_idle_beforeReset h]

/-- The byte source never performs RESET, so before it none of its bytes is taken. -/
theorem step_source_beforeReset {s : State} (hc : s.cfg.wf = true) (h : s.resetDone = false)
    (hf : fetch s = .idle ∨ ∃ i t, fetch s = .instr i t ∧ i ≠ .reset) : step s = .refused .beforeReset := by
  obtain hidle | ⟨i, t, hinstr, hi⟩ := hf
  · exact step_idle_beforeReset hc h hidle
  · rw [step_eq_run hc, hinstr, run_instr_beforeReset h hi]

/-- R231: the state after RESET is sound for every allowed configuration. -/
theorem State.resetFor_safe {c : Config} (hc : c.wf = true) : (State.resetFor c).Safe :=
  ⟨hc, Decoder.zero_safe hc, Encoder.zero_safe⟩

theorem Config.tc1_wf : Config.tc1.wf = true := by decide

/-- Settles O8: each form of input hands over nothing, RESET, or something that waits for RESET. -/
theorem stepRefusesAtTheModelBoundary : Obligations.StepRefusesAtTheModelBoundary := by
  unfold Obligations.StepRefusesAtTheModelBoundary
  refine ⟨fun s => step_illFormed, fun s hc h => ⟨?script, ?wire, ?rx, ?cycles, ?empty⟩⟩
  case script =>
    intro bs rest ops i hin hs hr
    rw [step_eq_run hc, fetch_script_record hin hs hr]
    refine ⟨fun hi => run_instr_beforeReset h hi _, ?_⟩
    rintro rfl
    exact run_instr_reset _ _
  case wire => exact fun bs hin => step_source_beforeReset hc h (fetch_wire_shape hin)
  case rx => exact fun bs hin => step_source_beforeReset hc h (fetch_rx_shape hin)
  case cycles =>
    intro g rest hin
    rw [step_eq_run hc, fetch_cycles_cons hin]
    exact ⟨fun hg => run_cycle_beforeReset h hg _, fun hg => run_cycle_rst _ _ hg⟩
  case empty =>
    rintro (hin | hin)
    · exact step_idle_beforeReset hc h (fetch_script_nil hin)
    · exact step_idle_beforeReset hc h (fetch_cycles_nil hin)

/-- Settles O50: the zero decoder and the zero encoder are sound for every allowed configuration. -/
theorem resetIsSafe : Obligations.ResetIsSafe :=
  ⟨fun _ hc => State.resetFor_safe hc, State.resetFor_safe Config.tc1_wf⟩

end Sys2Proof.Machine
end

section
/-! PROOFS. The state family: what every instruction does to each unit, said once, and the invariants of the whole machine that
follow (R23 to R37, R112, R115, R155 to R163). -/

namespace Sys2Proof.Machine

/-! The encoder: the six things an instruction can do to it. -/

/-- What an instruction makes of the encoder (R156 to R163, R230). -/
inductive Encoder.Moves (e : Encoder) : Instr → Encoder → Prop where
  | kept (i : Instr) : Encoder.Moves e i e
  | zeroed : Encoder.Moves e .reset Encoder.zero
  | tooLong (api n : Byte) (p : List Byte) (idle : e.ebusy = false) (long : txpCap < n.toNat) :
      Encoder.Moves e (.encRequest api n p) { e with eres := .lengthError }
  | latched (api n : Byte) (p : List Byte) (idle : e.ebusy = false) (fits : n.toNat ≤ txpCap) :
      Encoder.Moves e (.encRequest api n p) (e.latch api n p)
  | advanced (v : Byte) (busy : e.ebusy = true) (offer : e.offered = some v) : Encoder.Moves e .sinkAccept e.advance
  | failed (busy : e.ebusy = true) :
      Encoder.Moves e .sinkFail { e with ebusy := false, eres := .transportError }

theorem execEncRequest_moves {api n : Byte} {p : List Byte} {s t : State} (hx : execEncRequest api n p s = .next t) :
    s.enc.Moves (.encRequest api n p) t.enc := by
  unfold execEncRequest at hx
  split at hx
  · cases hx
    exact .kept _
  · rename_i hidle
    split at hx <;> cases hx
    · exact .tooLong api n p (by simpa using hidle) ‹_›
    · exact .latched api n p (by simpa using hidle) (by omega)

theorem execSinkAccept_moves {s t : State} (hx : execSinkAccept s = .next t) : s.enc.Moves .sinkAccept t.enc := by
  unfold execSinkAccept at hx
  split at hx
  · split at hx <;> cases hx
    exact .advanced _ ‹_› ‹_›
  · cases hx
    exact .kept _

theorem execSinkFail_moves {s t : State} (hx : execSinkFail s = .next t) : s.enc.Moves .sinkFail t.enc := by
  unfold execSinkFail at hx
  split at hx <;> cases hx
  · exact .failed ‹_›
  · exact .kept _

theorem exec_encoder_moves {i : Instr} {s t : State} (hx : exec i s = .next t) : s.enc.Moves i t.enc := by
  by_cases hr : i = .reset
  · subst hr
    cases hx
    exact .zeroed
  cases he : i.isEncoderOp with
  | false =>
    rw [exec_keeps_enc he hr hx]
    exact .kept i
  | true =>
    cases i <;> try exact absurd he Bool.false_ne_true
    case encRequest api n p => exact execEncRequest_moves hx
    case sinkAccept => exact execSinkAccept_moves hx
    case sinkStall => cases hx; exact .kept _
    case sinkFail => exact execSinkFail_moves hx

/-! The encoder's invariants. -/

/-- Even if every byte after the start delimiter were escaped (R155), the count of sent bytes is far from wrapping. -/
theorem Encoder.length_wire_le {e : Encoder} (h : e.en.toNat ≤ txpCap) : e.wire.length ≤ 517 := by
  have hfilter := List.length_filter_le isReserved (frameTail e.eapi e.payload)
  rw [length_frameTail, Encoder.length_payload] at hfilter
  rw [Encoder.wire, encodeWire, List.length_cons, length_flatMap_escByte, length_frameTail, Encoder.length_payload]
  change _ ≤ 241 at h
  omega

/-- The count of a sound busy encoder does not wrap. -/
theorem Encoder.Safe.toNat_advance_ek {e : Encoder} (h : e.Safe) (hb : e.ebusy = true) :
    e.advance.ek.toNat = e.ek.toNat + 1 := by
  have hlen := Encoder.length_wire_le h.enBound
  have hek := h.ekBusy hb
  rw [Encoder.advance_ek, toNat_add_one _ (by omega)]

theorem Encoder.Safe.advance {e : Encoder} (h : e.Safe) (hb : e.ebusy = true) : e.advance.Safe := by
  have hek := h.toNat_advance_ek hb
  have hlt := h.ekBusy hb
  have hbound : e.advance.ek.toNat ≤ e.advance.wire.length := by rw [hek, Encoder.advance_wire]; omega
  have hen : e.advance.en.toNat ≤ txpCap := by simpa using h.enBound
  have hwf : e.advance.txp.wf = true := by simpa using h.txpWf
  have hin : e.advance.txp.within txpCap = true := by simpa using h.txpIn
  by_cases hl : e.ek.toNat + 1 = e.wire.length
  · obtain ⟨hidle, -⟩ := Encoder.advance_at_last hl
    have hnot : e.advance.ebusy ≠ true := by simp [hidle]
    exact ⟨fun hb => absurd hb hnot, hbound, hen, fun hb => absurd hb hnot, hwf, hin⟩
  · obtain ⟨-, hres⟩ := Encoder.advance_before_last hl
    exact ⟨fun _ => by rw [hek, Encoder.advance_wire]; omega, hbound, hen, fun _ => hres.trans (h.resBusy hb), hwf, hin⟩

theorem Encoder.Safe.latch {e : Encoder} (h : e.Safe) (api : Byte) {n : Byte} (hn : n.toNat ≤ txpCap) (p : List Byte) :
    (e.latch api n p).Safe where
  ekBusy _ := length_encodeWire_pos _ _
  ekBound := Nat.zero_le _
  enBound := hn
  resBusy _ := rfl
  txpWf := Memory.wf_writeAll h.txpWf 0 _
  txpIn := Memory.within_writeAll h.txpIn 0 _ (by rw [List.length_take]; omega)

/-- Every instruction keeps the invariants of the encoder. -/
theorem Encoder.Moves.safe {e f : Encoder} {i : Instr} (hm : e.Moves i f) (h : e.Safe) : f.Safe := by
  cases hm with
  | kept => exact h
  | zeroed => exact Encoder.zero_safe
  | tooLong api n p idle long =>
    exact { h with ekBusy := fun hb => h.ekBusy hb, resBusy := fun hb => absurd hb (by simp [idle]) }
  | latched api n p idle fits => exact h.latch api fits p
  | advanced v busy offer => exact h.advance busy
  | failed busy => exact { h with ekBusy := nofun, resBusy := nofun }

/-! The decoder: an instruction leaves it, zeroes it, or feeds it. -/

/-- What the zero decoder has and every feed keeps, every instruction keeps. -/
theorem exec_keeps_of_feed {P : Decoder → Prop} {i : Instr} {s t : State} (hzero : P Decoder.zero)
    (hfeed : ∀ d raw, P d → P (d.feed s.cfg raw).1) (h : P s.dec) (hx : exec i s = .next t) : P t.dec := by
  have hstep : ∀ {raw : Byte} {u v : State}, u.cfg = s.cfg → P u.dec → u.feed raw = .next v → P v.dec := by
    intro raw u v hc hu hv
    rw [(State.feed_next hv).2, State.decoded_dec, hc]
    exact hfeed _ _ hu
  by_cases hr : i = .reset
  · subst hr
    cases hx
    exact hzero
  by_cases ht : i.takesByte = true
  · obtain ⟨raw, hf⟩ | ⟨x, u, -, hfirst, hsecond⟩ := exec_takesByte_next ht hx
    · exact hstep rfl h hf
    · obtain ⟨-, hcfg, -⟩ := State.feed_frame hfirst
      exact hstep hcfg (hstep rfl h hfirst) hsecond
  by_cases hclear : i = .decClear
  · subst hclear
    cases hx
    exact hzero
  rw [exec_keeps_dec (by simp [Instr.isDecoderOp, ht, hclear]) hr hx]
  exact h

/-! The whole machine. -/

/-- What reads neither the input nor the outputs and is kept by every instruction is kept by every step. -/
theorem step_keeps_of_exec {P : State → Prop} (hio : ∀ s inp out, P s → P { s with input := inp, out := out })
    (hexec : ∀ i s t, P s → exec i s = .next t → P t) {s t : State} (h : P s) (hx : step s = .next t) : P t := by
  obtain ⟨-, ⟨i, inp, hi⟩ | ⟨g, inp, hg⟩⟩ := step_next hx
  · exact hexec i _ t (hio s inp s.out h) hi
  · have h' := hio s inp s.out h
    obtain ⟨-, hr⟩ | ⟨-, u, v, hdec, henc, rfl⟩ := cycle_next hg
    · exact hexec _ _ t h' hr
    · exact hio v v.input _ (hexec _ _ v (hexec _ _ u h' hdec) henc)

theorem exec_safe {i : Instr} {s t : State} (h : s.Safe) (hx : exec i s = .next t) : t.Safe where
  cfg := by rw [exec_keeps_cfg hx]; exact h.cfg
  dec := by
    rw [exec_keeps_cfg hx]
    exact exec_keeps_of_feed (P := Decoder.Safe s.cfg) (Decoder.zero_safe h.cfg)
      (fun _ raw => Decoder.feed_safe raw h.cfg) h.dec hx
  enc := (exec_encoder_moves hx).safe h.enc

/-- Settles O51: every instruction keeps both units' invariants and the parameters, so every step does. -/
theorem stepKeepsSafe : Obligations.StepKeepsSafe := by
  intro s t h hx
  refine step_keeps_of_exec (P := fun u => u.Safe ∧ u.cfg = s.cfg) ?_ ?_ ⟨h, rfl⟩ hx
  · rintro u inp out ⟨hu, hcfg⟩
    exact ⟨⟨hu.cfg, hu.dec, hu.enc⟩, hcfg⟩
  · rintro i u v ⟨hu, hcfg⟩ huv
    exact ⟨exec_safe hu huv, (exec_keeps_cfg huv).trans hcfg⟩

end Sys2Proof.Machine
end

section
/-! PROOFS. The dispatch case of a fed byte, register by register, and what follows: the running sum of R26, the frame of a
feed (R23 to R30, R60, R115), who writes the flags (R37). -/

namespace Sys2Proof.Machine

/-! What each register holds after a case's effect. A delivering case is one whose row names the logical byte (R108 to R114);
`d` is the decoder before the lazy reset and `x` the byte. -/

/-- The cases that take a logical byte inside a frame. -/
def DecCase.Delivering (k : DecCase) : Prop := k ≠ .syncHit ∧ k ≠ .syncMiss ∧ k ≠ .esc ∧ k ≠ .abort

/-- The cases that leave the frame in progress one byte further on. -/
def DecCase.Advancing (k : DecCase) : Prop := k = .lenhi ∨ k = .lenlo ∨ k = .api ∨ k = .data ∨ k = .msg

section Result

variable {k : DecCase} (c : Config) (d : Decoder) (x : Byte)

theorem Decoder.abortFrame_opened_esc : (d.opened.abortFrame c).1.esc = false := by
  unfold Decoder.abortFrame
  split <;> rfl

theorem DecCase.result_esc (k : DecCase) : (DecCase.result k c d x).1.esc = true ↔ k = .esc := by
  cases k <;> simp [DecCase.result, Decoder.abortFrame_opened_esc]

theorem DecCase.result_dlen (hk : DecCase.Delivering k) (h : k ≠ .lenlo) :
    (DecCase.result k c d x).1.dlen = d.lazyReset.dlen := by
  cases k <;> simp_all [DecCase.Delivering, DecCase.result]

theorem DecCase.result_api (hk : DecCase.Delivering k) (h : k ≠ .api) :
    (DecCase.result k c d x).1.api = d.lazyReset.api := by
  cases k <;> simp_all [DecCase.Delivering, DecCase.result]

/-- S4 (R106): a delivered byte is summed from pos 3 on. -/
theorem DecCase.result_ck (hk : DecCase.Delivering k) {b : Byte} (hf : DecCase.Facts k c d.lazyReset b) :
    (DecCase.result k c d x).1.ck =
      if 3 ≤ d.lazyReset.pos.toNat then d.lazyReset.ck + zext16 x else d.lazyReset.ck := by
  cases k <;> simp only [DecCase.Facts] at hf
  case syncHit | syncMiss | esc | abort => simp [DecCase.Delivering] at hk
  case lenhi | lenlo => rw [if_neg (by omega)]; rfl
  all_goals rw [if_pos (by omega)]; rfl

/-- S6 (R115): a delivered byte is stored at pos or dropped. -/
theorem DecCase.result_buf (hk : DecCase.Delivering k) :
    (DecCase.result k c d x).1.buf = d.lazyReset.bufStored c x ∨ (DecCase.result k c d x).1.buf = d.lazyReset.buf := by
  cases k
  case syncHit | syncMiss | esc | abort => simp [DecCase.Delivering] at hk
  case toolarge => exact .inr rfl
  all_goals exact .inl rfl

/-- S5b (R112): only the message case writes Msg. -/
theorem DecCase.result_msg (hk : DecCase.Delivering k) (h : k ≠ .msg) :
    (DecCase.result k c d x).1.mfill = d.lazyReset.mfill ∧ (DecCase.result k c d x).1.msg = d.lazyReset.msg := by
  cases k <;> simp_all [DecCase.Delivering, DecCase.result]

theorem DecCase.Advancing.delivering (h : DecCase.Advancing k) : DecCase.Delivering k := by
  rcases h with rfl | rfl | rfl | rfl | rfl <;> exact ⟨nofun, nofun, nofun, nofun⟩

theorem DecCase.Advancing.result_eq (h : DecCase.Advancing k) :
    (DecCase.result k c d x).1.buf = d.lazyReset.bufStored c x ∧ (DecCase.result k c d x).1.pos = d.lazyReset.pos + 1 := by
  rcases h with rfl | rfl | rfl | rfl | rfl <;> exact ⟨rfl, rfl⟩

end Result

/-! R26: ck is the sum of the stored bytes. -/

theorem Decoder.sumOfStored_of_status {c : Config} {d : Decoder} (h : d.status ≠ .inProgress) : d.SumOfStored c :=
  fun hs => absurd hs h

/-- Before the apiId there is nothing to sum. -/
theorem Decoder.sumOfStored_of_pos {c : Config} {d : Decoder} (hp : d.pos.toNat ≤ 3) (hck : d.ck = 0) :
    d.SumOfStored c := by
  intro _ _
  rw [hck]
  exact (storedSum_short (by simpa using hp)).symm

theorem Decoder.zero_sumOfStored (c : Config) : Decoder.zero.SumOfStored c :=
  Decoder.sumOfStored_of_pos (Nat.zero_le 3) rfl

theorem Decoder.seeded_sumOfStored (c : Config) : (Decoder.seeded c).SumOfStored c :=
  Decoder.sumOfStored_of_pos (d := Decoder.seeded c) (show 1 ≤ 3 by omega) rfl

theorem Decoder.abortFrame_sumOfStored (c : Config) (d : Decoder) : (d.abortFrame c).1.SumOfStored c := by
  unfold Decoder.abortFrame
  split
  · exact Decoder.sumOfStored_of_status nofun
  · exact Decoder.seeded_sumOfStored c

theorem Decoder.lazyReset_sumOfStored {c : Config} {d : Decoder} (h : d.SumOfStored c) : d.lazyReset.SumOfStored c := by
  unfold Decoder.lazyReset
  split
  · exact h
  · exact Decoder.zero_sumOfStored c

/-- The sum over the stored bytes follows S4 (R106) when a byte is stored. -/
theorem Decoder.storedSum_bufStored {c : Config} {d : Decoder} (b : Byte) (hw : d.buf.wf = true)
    (hp : d.pos.toNat < 65535) (hM : (d.pos + 1).toNat ≤ c.maxFrameSize) :
    storedSum ((d.bufStored c b).firstBytes (d.pos + 1).toNat) =
      if 3 ≤ d.pos.toNat then storedSum (d.buf.firstBytes d.pos.toNat) + zext16 b
      else storedSum (d.buf.firstBytes d.pos.toNat) := by
  rw [Decoder.bufStored_firstBytes hw hM hp]
  split
  · exact storedSum_snoc b (by simpa)
  · rw [storedSum_short (by simp; omega), storedSum_short (by simp; omega)]

/-- A delivered byte that is stored and advances keeps the sum. -/
theorem DecCase.Advancing.result_sumOfStored {k : DecCase} (h : DecCase.Advancing k) {c : Config} {d : Decoder} {b : Byte}
    (x : Byte) (hc : c.wf = true) (hd : d.lazyReset.Safe c) (hsum : d.lazyReset.SumOfStored c)
    (hf : DecCase.Facts k c d.lazyReset b) : (DecCase.result k c d x).1.SumOfStored c := by
  intro _ hM
  obtain ⟨hbuf, hpos⟩ := h.result_eq c d x
  obtain ⟨-, -, hmax⟩ := Config.bounds hc
  have hlt : d.lazyReset.pos.toNat < 65535 := by have := hd.posBound; omega
  rw [hpos] at hM
  have hck : d.lazyReset.ck = storedSum (d.lazyReset.buf.firstBytes d.lazyReset.pos.toNat) :=
    hsum d.lazyReset_status (by rw [toNat_add_one _ hlt] at hM; omega)
  change _ = storedSum _
  rw [hbuf, hpos, Decoder.storedSum_bufStored x hd.bufWf hlt hM, DecCase.result_ck c d x h.delivering hf, hck]

/-- A feed keeps the sum of R26: it leaves sum and bytes alone, starts them anew, takes a byte into both, or ends the frame. -/
theorem Decoder.feed_sumOfStored {c : Config} {d : Decoder} (raw : Byte) (hc : c.wf = true) (hd : d.Safe c)
    (h : d.SumOfStored c) : (d.feed c raw).1.SumOfStored c := by
  have hsafe := Decoder.lazyReset_safe hc hd
  have hsum := Decoder.lazyReset_sumOfStored h
  have hf := decCase_facts c d raw
  have advances : ∀ {k : DecCase}, DecCase.Advancing k → decCase c d raw = k → ∀ x, (DecCase.result k c d x).1.SumOfStored c :=
    fun hk he x => hk.result_sumOfStored x hc hsafe hsum (he ▸ hf)
  rw [Decoder.feed_eq_result]
  generalize caseByte _ d raw = x
  cases hk : decCase c d raw with
  | syncHit =>
    rw [hk] at hf
    have hz : d.lazyReset = Decoder.zero := hsafe.startZero d.lazyReset_status (eq_zero_of_toNat hf)
    have hseed : (DecCase.result .syncHit c d x).1 = Decoder.seeded c := by
      simp only [DecCase.result, Decoder.opened, hz]
      rfl
    rw [hseed]
    exact Decoder.seeded_sumOfStored c
  | syncMiss | esc => exact hsum
  | abort => exact Decoder.abortFrame_sumOfStored c d.opened
  | toolarge | finalOk | finalBad => exact Decoder.sumOfStored_of_status nofun
  | lenhi | lenlo | api | data | msg => exact advances (by simp [DecCase.Advancing]) hk x

theorem exec_sumOfStored {i : Instr} {s t : State} (hs : s.Safe) (h : s.dec.SumOfStored s.cfg) (hx : exec i s = .next t) :
    t.dec.SumOfStored t.cfg := by
  rw [exec_keeps_cfg hx]
  refine (exec_keeps_of_feed (P := fun d => d.Safe s.cfg ∧ d.SumOfStored s.cfg) ?_ ?_ ⟨hs.dec, h⟩ hx).2
  · exact ⟨Decoder.zero_safe hs.cfg, Decoder.zero_sumOfStored _⟩
  · rintro d raw ⟨hd, hsum⟩
    exact ⟨Decoder.feed_safe raw hs.cfg hd, Decoder.feed_sumOfStored raw hs.cfg hd hsum⟩

/-- Settles O53: with the invariants of O51 the sum is inductive. -/
theorem stepKeepsTheRunningSum : Obligations.StepKeepsTheRunningSum := by
  intro s t hs h hx
  refine (step_keeps_of_exec (P := fun u => u.Safe ∧ u.dec.SumOfStored u.cfg) ?_ ?_ ⟨hs, h⟩ hx).2
  · rintro u inp out ⟨hu, hsum⟩
    exact ⟨⟨hu.cfg, hu.dec, hu.enc⟩, hsum⟩
  · rintro i u v ⟨hu, hsum⟩ huv
    exact ⟨exec_safe hu huv, exec_sumOfStored hu hsum huv⟩

/-! R23 to R30: the frame of a delivered byte. -/

/-- The case of a delivered byte is none of the four before S4. -/
theorem Decoder.Delivers.decCase_delivering {c : Config} {d : Decoder} {raw b : Byte} (h : d.Delivers c raw b) :
    DecCase.Delivering (decCase c d raw) := by
  rw [h.decCase_eq]
  split_ifs <;> exact ⟨nofun, nofun, nofun, nofun⟩

theorem Memory.read_write_ne {m : Memory} (hw : m.wf = true) {i k : Nat} (h : k ≠ i) (v : Byte) :
    (m.write i v).read k = m.read k := by
  rw [Memory.read_write_wf hw, if_neg h]

/-- S6 and R60: storing a byte leaves every index but pos, and every index from M on. -/
theorem Decoder.read_bufStored_ne {c : Config} {d : Decoder} (hw : d.buf.wf = true) (b : Byte) {k : Nat}
    (hk : k ≠ d.pos.toNat ∨ c.maxFrameSize ≤ k) : (d.bufStored c b).read k = d.buf.read k := by
  by_cases hp : d.pos.toNat < c.maxFrameSize
  · rw [Decoder.bufStored_in hp, Memory.read_write_ne hw (by omega)]
  · rw [Decoder.bufStored_out (by omega)]

/-- Settles O30: the registers of the delivered byte's case, one by one. -/
theorem feedFrame : Obligations.FeedFrame := by
  intro s t raw b hdel hbuf hmsg hx
  obtain ⟨hl, hb, -⟩ := hdel.facts
  have hk := hdel.decCase_delivering
  have hf := decCase_facts s.cfg s.dec raw
  have ht := exec_decFeed_next hx
  rw [caseByte_eq_logicalByte hk, hl, hb] at ht
  rw [hl, hb] at hf
  generalize decCase s.cfg s.dec raw = k at hk hf ht
  subst ht
  simp only [State.decoded_dec]
  refine ⟨?buf, ?msg, ?dlen, ?api, ?ck, ?esc, ?other, rfl, rfl, rfl, rfl⟩
  case buf =>
    intro j hj
    obtain h | h := DecCase.result_buf s.cfg s.dec b hk
    · rw [h, hl, Decoder.read_bufStored_ne hbuf b hj]
    · rw [h, hl]
  case msg =>
    intro j hj
    by_cases hm : k = .msg
    · subst hm
      change (s.dec.lazyReset.msg.write s.dec.lazyReset.mfill.toNat b).read j = _
      rw [hl, Memory.read_write_ne hmsg hj]
    · rw [(DecCase.result_msg s.cfg s.dec b hk hm).2, hl]
  case dlen =>
    intro hp
    have hne : k ≠ .lenlo := by rintro rfl; exact hp hf
    rw [DecCase.result_dlen s.cfg s.dec b hk hne, hl]
  case api =>
    intro hp
    have hne : k ≠ .api := by rintro rfl; exact hp hf
    rw [DecCase.result_api s.cfg s.dec b hk hne, hl]
  case ck => simpa only [hl] using DecCase.result_ck s.cfg s.dec b hk (b := b) (by rwa [hl])
  case esc => exact Bool.eq_false_iff.mpr fun h => hk.2.2.1 ((DecCase.result_esc _ _ _ k).mp h)
  case other =>
    intro ha
    have hne : k ≠ .msg := by
      rintro rfl
      obtain ⟨-, -, -, hin⟩ := hf
      simp only [Decoder.inMessage, Bool.and_eq_true, beq_iff_eq] at hin
      exact ha hin.1.1
    simpa only [hl] using DecCase.result_msg s.cfg s.dec b hk hne

/-! R37: the writers of the flags. -/

/-- R102: the marker's case, by the decoder before the feed. -/
theorem decCase_eq_esc_iff {c : Config} {d : Decoder} {raw : Byte} :
    decCase c d raw = .esc ↔ raw = escMarker ∧ d.status = .inProgress ∧ 0 < d.pos.toNat := by
  constructor
  · intro h
    have hpos : 0 < d.lazyReset.pos.toNat := by
      have hf := decCase_facts c d raw
      rwa [h] at hf
    have hs : d.status = .inProgress := by
      by_contra hs
      rw [Decoder.lazyReset_terminal hs] at hpos
      exact absurd hpos (by decide)
    rw [Decoder.lazyReset_inProgress hs] at hpos
    exact ⟨raw_of_esc h, hs, hpos⟩
  · rintro ⟨hr, hs, hpos⟩
    simp only [decCase, Decoder.lazyReset_inProgress hs]
    rw [if_neg (by omega), if_pos hr]

theorem exec_decFeed_esc {s t : State} {raw : Byte} (hx : exec (.decFeed raw) s = .next t) :
    t.dec.esc = true ↔ raw = escMarker ∧ s.dec.status = .inProgress ∧ 0 < s.dec.pos.toNat := by
  rw [exec_decFeed_next hx, State.decoded_dec, DecCase.result_esc, decCase_eq_esc_iff]

/-- R37: what writes ebusy or eres. -/
theorem Encoder.Moves.isEncoderOp_of_flag_ne {e f : Encoder} {i : Instr} (hm : e.Moves i f)
    (h : f.ebusy ≠ e.ebusy ∨ f.eres ≠ e.eres) :
    i.isEncoderOp = true ∧ i ≠ .sinkStall ∨ i = .reset := by
  cases hm with
  | kept => simp at h
  | zeroed => exact .inr rfl
  | tooLong | latched | advanced | failed => exact .inl ⟨rfl, nofun⟩

/-- R33: what returns eres to None. -/
theorem Encoder.Moves.clears_eres {e f : Encoder} {i : Instr} (hm : e.Moves i f) (h : e.eres ≠ .none)
    (hf : f.eres = .none) : i = .reset ∨ ∃ api n p, i = .encRequest api n p := by
  cases hm with
  | kept => exact absurd hf h
  | zeroed => exact .inl rfl
  | tooLong api n p | latched api n p => exact .inr ⟨api, n, p, rfl⟩
  | advanced =>
    by_cases hl : e.ek.toNat + 1 = e.wire.length
    · simp [Encoder.advance_at_last hl] at hf
    · exact absurd ((Encoder.advance_before_last hl).2.symm.trans hf) h
  | failed => cases hf

/-- Settles O48: the encoder's flags by its moves, the decoder's by the frame of the other instructions, esc by the marker's
case. -/
theorem whoWritesTheFlags : Obligations.WhoWritesTheFlags := by
  intro s t i hx
  have hm := exec_encoder_moves hx
  refine ⟨hm.isEncoderOp_of_flag_ne, ?_, hm.clears_eres, ?_⟩
  · intro h
    by_contra hno
    obtain ⟨hop, hr⟩ := not_or.mp hno
    rw [exec_keeps_dec (by simpa using hop) hr hx] at h
    simp at h
  · rintro raw rfl
    exact exec_decFeed_esc hx

end Sys2Proof.Machine
end

section
/-! PROOFS. A run of accepts (R64, R160), and the status view (R36). -/

namespace Sys2Proof.Machine

/-! R64: accepts send what the encoder still owes, in order. -/

/-- A sound busy encoder has a byte on offer (R32). -/
theorem Encoder.Safe.offered_eq {e : Encoder} (h : e.Safe) (hb : e.ebusy = true) :
    e.offered = some (e.wire[e.ek.toNat]'(h.ekBusy hb)) :=
  List.getElem?_eq_getElem (h.ekBusy hb)

/-- One accept in front of a run of them. -/
theorem acceptStream_succ {k : Nat} {s u : State} {v : Byte} {vs : List Byte} (hb : s.enc.ebusy = true)
    (hv : s.enc.offered = some v) (h : acceptStream k (s.answered s.enc.advance (some v)) = some (vs, u)) :
    acceptStream (k + 1) s = some (v :: vs, u) := by
  simp [acceptStream, exec_sinkAccept hb hv, h]

/-- The sink has taken `vs` in a run of accepts from `s` to `t`: ek counts them, and the frame ends with the last one. -/
structure SentTo (s : State) (vs : List Byte) (t : State) : Prop where
  run : acceptStream vs.length s = some (vs, t)
  count : t.enc.ek.toNat = s.enc.ek.toNat + vs.length
  dec : t.dec = s.dec
  before : t.enc.ek.toNat < s.enc.wire.length → t.enc.ebusy = true ∧ t.enc.eres = .none
  after : t.enc.ek.toNat = s.enc.wire.length → t.enc.ebusy = false ∧ t.enc.eres = .ok

theorem SentTo.nil {s : State} (h : s.enc.Safe) (hb : s.enc.ebusy = true) : SentTo s [] s where
  run := rfl
  count := rfl
  dec := rfl
  before _ := ⟨hb, h.resBusy hb⟩
  after he := absurd he (Nat.ne_of_lt (h.ekBusy hb))

/-- The accept of the last byte. -/
theorem SentTo.last {s : State} (h : s.enc.Safe) (hb : s.enc.ebusy = true) {v : Byte} (hv : s.enc.offered = some v)
    (hl : s.enc.ek.toNat + 1 = s.enc.wire.length) : SentTo s [v] (s.answered s.enc.advance (some v)) where
  run := acceptStream_succ hb hv rfl
  count := h.toNat_advance_ek hb
  dec := rfl
  before hlt := absurd hlt (by rw [State.answered_enc, h.toNat_advance_ek hb]; omega)
  after _ := Encoder.advance_at_last hl

/-- An accept in front of a run. -/
theorem SentTo.cons {s t : State} (h : s.enc.Safe) (hb : s.enc.ebusy = true) {v : Byte} {vs : List Byte}
    (hv : s.enc.offered = some v) (ht : SentTo (s.answered s.enc.advance (some v)) vs t) : SentTo s (v :: vs) t where
  run := acceptStream_succ hb hv ht.run
  count := by
    rw [ht.count, State.answered_enc, h.toNat_advance_ek hb, List.length_cons]
    omega
  dec := ht.dec
  before := by simpa [Encoder.advance_wire] using ht.before
  after := by simpa [Encoder.advance_wire] using ht.after

/-- From any sound busy state, `k` accepts send the next `k` bytes of W. -/
theorem exists_sentTo {k : Nat} {s : State} (h : s.enc.Safe) (hb : s.enc.ebusy = true)
    (hk : s.enc.ek.toNat + k ≤ s.enc.wire.length) :
    ∃ t, SentTo s ((s.enc.wire.drop s.enc.ek.toNat).take k) t := by
  induction k generalizing s with
  | zero => exact ⟨s, .nil h hb⟩
  | succ k ih =>
    have hv := h.offered_eq hb
    rw [List.drop_eq_getElem_cons (h.ekBusy hb), List.take_succ_cons]
    by_cases hl : s.enc.ek.toNat + 1 = s.enc.wire.length
    · have hk0 : k = 0 := by omega
      subst hk0
      exact ⟨_, .last h hb hv hl⟩
    · have hb' : s.enc.advance.ebusy = true := (Encoder.advance_before_last hl).1.trans hb
      have hek := h.toNat_advance_ek hb
      obtain ⟨t, ht⟩ := ih (s := s.answered s.enc.advance (some _)) (h.advance hb) hb'
        (by rw [State.answered_enc, hek, Encoder.advance_wire]; omega)
      rw [State.answered_enc, hek, Encoder.advance_wire] at ht
      exact ⟨t, .cons h hb hv ht⟩

/-- Settles O41: the run of accepts from ek 0. -/
theorem acceptsSendTheWireInOrder : Obligations.AcceptsSendTheWireInOrder := by
  intro s k hs hb hek hk
  have h0 : s.enc.ek.toNat = 0 := by rw [hek]; rfl
  obtain ⟨t, ht⟩ := exists_sentTo (k := k) hs.enc hb (by omega)
  rw [h0, List.drop_zero] at ht
  have hlen : (s.enc.wire.take k).length = k := List.length_take_of_le hk
  have hcount : t.enc.ek.toNat = k := by rw [ht.count, h0, hlen, Nat.zero_add]
  refine ⟨t, ?_, hcount, ht.dec, fun hlt => ht.before (by omega), fun he => ht.after (by omega)⟩
  simpa only [hlen] using ht.run

/-! R36: the fields of the two status words. -/

section Fields

variable (p : BitVec 3) (a : Bool) (e r : BitVec 2) (z : BitVec 5)

/-- A word laid out like DEC_STATUS: its fields read back. -/
theorem decStatus_fields :
    (p ++ BitVec.ofBool a ++ e ++ r).extractLsb' 0 2 = r ∧ (p ++ BitVec.ofBool a ++ e ++ r).extractLsb' 2 2 = e ∧
    (p ++ BitVec.ofBool a ++ e ++ r).getLsbD 4 = a ∧ (p ++ BitVec.ofBool a ++ e ++ r).extractLsb' 5 3 = p := by
  refine ⟨BitVec.extractLsb'_append_eq_right, ?_, ?_, ?_⟩
  · rw [BitVec.extractLsb'_append_eq_of_le (by omega), BitVec.extractLsb'_append_eq_right]
  · rw [BitVec.getLsbD_append, if_neg (by omega), BitVec.getLsbD_append, if_neg (by omega),
      BitVec.getLsbD_append, if_pos (by omega)]
    simp
  · rw [BitVec.extractLsb'_append_eq_of_le (by omega), BitVec.extractLsb'_append_eq_of_le (by omega),
      BitVec.extractLsb'_append_eq_left]

/-- A word laid out like ENC_STATUS: its fields read back. -/
theorem encStatus_fields :
    (z ++ r ++ BitVec.ofBool a).getLsbD 0 = a ∧ (z ++ r ++ BitVec.ofBool a).extractLsb' 1 2 = r ∧
    (z ++ r ++ BitVec.ofBool a).extractLsb' 3 5 = z := by
  refine ⟨?_, ?_, ?_⟩
  · rw [BitVec.getLsbD_append, if_pos (by omega)]
    simp
  · rw [BitVec.extractLsb'_append_eq_of_le (by omega), BitVec.extractLsb'_append_eq_right]
  · rw [BitVec.extractLsb'_append_eq_of_le (by omega), BitVec.extractLsb'_append_eq_left]

end Fields

/-! R22: the phase by status and pos. -/

theorem phaseOf_inProgress_zero {pos : Half} (h : pos = 0) : phaseOf .inProgress pos = .waitingStart := by
  subst h
  rfl

theorem phaseOf_inProgress_length {pos : Half} (h : pos = 1 ∨ pos = 2) : phaseOf .inProgress pos = .readingLength := by
  rcases h with rfl | rfl <;> rfl

theorem phaseOf_inProgress_type {pos : Half} (h : pos = 3) : phaseOf .inProgress pos = .readingType := by
  subst h
  rfl

theorem phaseOf_inProgress_payload {pos : Half} (h : 4 ≤ pos.toNat) : phaseOf .inProgress pos = .readingPayload := by
  simp only [phaseOf]
  rw [if_neg (by omega), if_neg (by omega), if_neg (by omega)]

/-- Settles O49: the words are laid out as R36 has them, and each field carries its code. -/
theorem statusViewLayout : Obligations.StatusViewLayout := by
  intro s
  obtain ⟨hstatus, herr, hesc, hphase⟩ :=
    decStatus_fields s.dec.phase.code s.dec.esc s.dec.err.code s.dec.status.code
  obtain ⟨hbusy, hres, hzero⟩ := encStatus_fields s.enc.ebusy s.enc.eres.code 0#5
  have shows : ∀ {st : Status} {ph : Phase}, s.dec.status = st → phaseOf st s.dec.pos = ph →
      s.dec.phase = ph ∧ s.decStatus.extractLsb' 5 3 = ph.code := by
    rintro st ph rfl rfl
    exact ⟨rfl, hphase⟩
  refine ⟨hstatus.trans ?_, herr.trans ?_, hesc, fun h => shows h rfl, fun h => shows h rfl, fun h => ⟨?_, ?_, ?_, ?_⟩,
    rfl, rfl, rfl, rfl, rfl, fun i hi => if_neg (by omega), fun i hi => if_pos hi, hbusy, hres.trans ?_, hzero, rfl⟩
  · cases s.dec.status <;> rfl
  · cases s.dec.err <;> rfl
  · exact fun hp => shows h (phaseOf_inProgress_zero hp)
  · exact fun hp => shows h (phaseOf_inProgress_length hp)
  · exact fun hp => shows h (phaseOf_inProgress_type hp)
  · exact fun hp => shows h (phaseOf_inProgress_payload hp)
  · cases s.enc.eres <;> rfl

end Sys2Proof.Machine
end

section
/-! PROOFS. The two units side by side (R61, R80, R205, R216): the steps of one do not meet the other's, and a cycle is both. -/

namespace Sys2Proof.Machine

/-! One unit's operation, or NOP: it writes its own unit and the outputs, and does the same whatever else stands there. -/

theorem exec_decoderSide_frame {i : Instr} (hi : i = .nop ∨ i.isDecoderOp = true) {s t : State} (hx : exec i s = .next t) :
    ∃ d o, t = { s with dec := d, out := o } := by
  obtain rfl | hop := hi
  · cases hx
    exact ⟨s.dec, _, rfl⟩
  · have hr := Instr.ne_reset_of_decoder hop
    have henc := exec_keeps_enc (Instr.isEncoderOp_of_decoder hop) hr hx
    obtain ⟨hcfg, hinput, hdone⟩ := exec_keeps_rest hr hx
    refine ⟨t.dec, t.out, ?_⟩
    rw [← henc, ← hcfg, ← hinput, ← hdone]

theorem exec_encoderSide_frame {j : Instr} (hj : j = .nop ∨ j.isEncoderOp = true) {s t : State} (hx : exec j s = .next t) :
    ∃ e o, t = { s with enc := e, out := o } := by
  obtain rfl | hop := hj
  · cases hx
    exact ⟨s.enc, _, rfl⟩
  · have hr := Instr.ne_reset_of_encoder hop
    have hdec := exec_keeps_dec (Instr.isDecoderOp_of_encoder hop) hr hx
    obtain ⟨hcfg, hinput, hdone⟩ := exec_keeps_rest hr hx
    refine ⟨t.enc, t.out, ?_⟩
    rw [← hdec, ← hcfg, ← hinput, ← hdone]

theorem exec_decoderSide_with_enc {i : Instr} (hi : i = .nop ∨ i.isDecoderOp = true) {s t : State}
    (hx : exec i s = .next t) (e : Encoder) (o : StepOutputs) :
    exec i { s with enc := e, out := o } = .next { t with enc := e } := by
  obtain rfl | hop := hi
  · cases hx
    rfl
  · exact (exec_decoder_out hop { s with enc := e } o).trans (exec_with_enc hop hx e)

theorem exec_encoderSide_with_dec {j : Instr} (hj : j = .nop ∨ j.isEncoderOp = true) {s t : State}
    (hx : exec j s = .next t) (d : Decoder) (o : StepOutputs) :
    exec j { s with dec := d, out := o } = .next { t with dec := d } := by
  obtain rfl | hop := hj
  · cases hx
    rfl
  · exact (exec_encoder_out hop { s with dec := d } o).trans (exec_with_dec hop hx d)

/-- Settles O46: each operation finds its own unit as it was and leaves in it what it would have left. -/
theorem stepsOfDifferentAgentsCommute : Obligations.StepsOfDifferentAgentsCommute := by
  intro s i j a b hi hj ha hb
  obtain ⟨d, oa, rfl⟩ := exec_decoderSide_frame (.inr hi) ha
  obtain ⟨e, ob, rfl⟩ := exec_encoderSide_frame (.inr hj) hb
  exact ⟨_, _, exec_encoderSide_with_dec (.inr hj) hb d oa, exec_decoderSide_with_enc (.inr hi) ha e ob,
    rfl, rfl, rfl, rfl, rfl⟩

/-- The encoder's operation, run after the decoder's, can be run before it. -/
theorem exec_exchange {i j : Instr} (hi : i = .nop ∨ i.isDecoderOp = true) (hj : j = .nop ∨ j.isEncoderOp = true)
    {s a b : State} (ha : exec i s = .next a) (hb : exec j a = .next b) :
    exec j s = .next { b with dec := s.dec } ∧ exec i { b with dec := s.dec } = .next { b with out := a.out } := by
  obtain ⟨d, oa, rfl⟩ := exec_decoderSide_frame hi ha
  have hbefore := exec_encoderSide_with_dec hj hb s.dec s.out
  obtain ⟨e, ob, rfl⟩ := exec_encoderSide_frame hj hb
  exact ⟨hbefore, exec_decoderSide_with_enc hi ha e ob⟩

theorem cycleOutputs_eq (g : Signals) (busy : Bool) (dec enc : StepOutputs) :
    cycleOutputs g busy dec enc =
      { ev := dec.ev
        reqTaken := if busy = true ∧ g.txReqValid = true then some false else enc.reqTaken
        sinkTook := enc.sinkTook } := by
  simp [cycleOutputs]

/-- Settles O47: the cycle runs the decoder's operation first, and the two can be exchanged. -/
theorem cycleIsBothOperationsInEitherOrder : Obligations.CycleIsBothOperationsInEitherOrder := by
  intro s g
  refine ⟨fun hrst => if_pos hrst, fun hrst htwo => by simp [cycle, hrst, htwo], fun u hrst _ hx => ?_⟩
  obtain ⟨hrst', -⟩ | ⟨-, a, b, ha, hb, hu⟩ := cycle_next hx
  · simp [hrst] at hrst'
  rw [cycleOutputs_eq] at hu
  obtain ⟨hfirst, hsecond⟩ := exec_exchange g.decoderOp_shape (g.encoderOp_shape _) ha hb
  exact ⟨⟨a, b, ha, hb, hu⟩, ⟨_, _, hfirst, hsecond, hu⟩⟩

end Sys2Proof.Machine
end

section
/-! PROOFS. No step of a sound machine faults (R60, R112, R155, R159), and the feeds that leave the decoder as it was (R58). -/

namespace Sys2Proof.Machine

/-! R112: a sound decoder has room for the message byte it takes. -/

theorem Decoder.Safe.mfill_of_inMessage {c : Config} {d : Decoder} (h : d.Safe c) (hp : 4 ≤ d.pos.toNat)
    (hm : d.inMessage c = true) : d.mfill.toNat = d.pos.toNat - c.receivedDataIdx := by
  simp only [Decoder.inMessage, Bool.and_eq_true, beq_iff_eq, decide_eq_true_eq] at hm
  obtain ⟨⟨hapi, -⟩, hlt⟩ := hm
  rw [h.fill, Decoder.expectedFill, if_pos ⟨hapi, hp⟩]
  omega

theorem Decoder.Safe.overrunsMsg_eq_false {c : Config} {d : Decoder} (hc : c.wf = true) (h : d.Safe c) (raw : Byte) :
    d.overrunsMsg c raw = false := by
  by_cases hk : decCase c d raw = .msg
  · have hf := decCase_facts c d raw
    rw [hk] at hf
    obtain ⟨hp, hM, -, hm⟩ := hf
    obtain ⟨-, hrdi, -⟩ := Config.bounds hc
    refine Decoder.overrunsMsg_of_room ?_
    rw [(Decoder.lazyReset_safe hc h).mfill_of_inMessage hp hm, Config.msgCap]
    omega
  · exact Decoder.overrunsMsg_of_case hk

theorem State.Safe.feed_eq {s : State} (h : s.Safe) (raw : Byte) :
    s.feed raw = .next (s.decoded (s.dec.feed s.cfg raw)) :=
  State.feed_of_no_overrun (h.dec.overrunsMsg_eq_false h.cfg raw)

theorem State.Safe.decoded_feed {s : State} (h : s.Safe) (raw : Byte) : (s.decoded (s.dec.feed s.cfg raw)).Safe :=
  ⟨h.cfg, Decoder.feed_safe raw h.cfg h.dec, h.enc⟩

/-! No instruction, no cycle and no step faults. -/

/-- A byte-taking instruction of a sound machine has its next state. -/
theorem exec_takesByte_ne_fault {i : Instr} (hi : i.takesByte = true) {s : State} (h : s.Safe) (f : Fault) :
    exec i s ≠ .fault f := by
  obtain ⟨raw, hx⟩ | ⟨x, -, hx⟩ := exec_takesByte hi s
  · rw [hx, h.feed_eq]
    exact nofun
  · simp only [hx, h.feed_eq escMarker, (h.decoded_feed escMarker).feed_eq x]
    exact nofun

theorem exec_sinkAccept_ne_fault {s : State} (h : s.enc.Safe) (f : Fault) : exec .sinkAccept s ≠ .fault f := by
  by_cases hb : s.enc.ebusy = true
  · rw [exec_sinkAccept hb (h.offered_eq hb)]
    exact nofun
  · change execSinkAccept s ≠ _
    rw [execSinkAccept, if_neg hb]
    exact nofun

theorem exec_encRequest_ne_fault (api n : Byte) (p : List Byte) (s : State) (f : Fault) :
    exec (.encRequest api n p) s ≠ .fault f := by
  change execEncRequest api n p s ≠ _
  unfold execEncRequest
  split_ifs <;> exact nofun

theorem exec_sinkFail_ne_fault (s : State) (f : Fault) : exec .sinkFail s ≠ .fault f := by
  change execSinkFail s ≠ _
  unfold execSinkFail
  split_ifs <;> exact nofun

theorem exec_ne_fault (i : Instr) {s : State} (h : s.Safe) (f : Fault) : exec i s ≠ .fault f := by
  by_cases hi : i.takesByte = true
  · exact exec_takesByte_ne_fault hi h f
  cases i <;> try exact absurd rfl hi
  case sinkAccept => exact exec_sinkAccept_ne_fault h.enc f
  case encRequest api n p => exact exec_encRequest_ne_fault api n p s f
  case sinkFail => exact exec_sinkFail_ne_fault s f
  case nop | reset | decClear | sinkStall => exact nofun
  case reserved08 | reserved10 | reserved20 | reserved40 | reserved80 => exact nofun

/-- The encoder's operation of a cycle starts from the sound state the decoder's leaves. -/
theorem cycle_ne_fault (g : Signals) {s : State} (h : s.Safe) (f : Fault) : cycle g s ≠ .fault f := by
  intro hx
  unfold cycle at hx
  split_ifs at hx
  · exact exec_ne_fault _ h f hx
  · cases hdec : exec g.decoderOp s with
    | next t =>
      cases henc : exec (g.encoderOp s.enc.ebusy) t with
      | next u => simp [hdec, henc] at hx
      | fault r => exact exec_ne_fault _ (exec_safe h hdec) r henc
      | refused r => simp [hdec, henc] at hx
    | fault r => exact exec_ne_fault _ h r hdec
    | refused r => simp [hdec] at hx

theorem afterReset_fault {s : State} {b : Bool} {x : Host.Outcome State Fault Refusal} {f : Fault}
    (h : afterReset s b x = .fault f) : x = .fault f := by
  unfold afterReset at h
  split at h
  · exact h
  · cases h

theorem State.Safe.with_input {s : State} (h : s.Safe) (inp : Input) : State.Safe { s with input := inp } :=
  ⟨h.cfg, h.dec, h.enc⟩

/-- Settles O52: whatever a step fetches runs on the sound state with another input. -/
theorem safeStateNeverFaults : Obligations.SafeStateNeverFaults := by
  intro s f h hx
  rw [step_eq_run h.cfg] at hx
  cases hf : fetch s with
  | idle =>
    rw [hf] at hx
    exact exec_ne_fault .nop h f (afterReset_fault hx)
  | instr i u =>
    rw [hf] at hx
    have hu : u.Safe := by
      rw [(fetch_takes s).1 i u hf]
      exact h.with_input _
    exact exec_ne_fault i hu f (afterReset_fault hx)
  | cycle g u =>
    rw [hf] at hx
    have hu : u.Safe := by
      rw [(fetch_takes s).2 g u hf]
      exact h.with_input _
    exact cycle_ne_fault g hu f (afterReset_fault hx)
  | refused r =>
    rw [hf] at hx
    cases hx

/-! R58: the feeds that leave the decoder as it was. -/

/-- R101: from a terminal status a feed opens a new frame or waits for one. -/
theorem Decoder.feed_status_of_terminal {c : Config} {d : Decoder} (h : d.status ≠ .inProgress) (raw : Byte) :
    (d.feed c raw).1.status = .inProgress := by
  have hp : d.lazyReset.pos.toNat = 0 := by rw [Decoder.lazyReset_terminal h]; rfl
  rw [Decoder.feed_take (.inl hp), Decoder.takeLogical_zero (d := d.opened) hp]
  split <;> exact d.opened_status

/-- Under DISCARD every case but two moves pos or ends the frame. -/
theorem DecCase.result_pos_or_status_ne {k : DecCase} {c : Config} (hc : c.abortPolicy = .discard) (d : Decoder) (x : Byte)
    (hmiss : k ≠ .syncMiss) (hesc : k ≠ .esc) :
    (DecCase.result k c d x).1.pos ≠ d.lazyReset.pos ∨ (DecCase.result k c d x).1.status ≠ .inProgress := by
  have hmove : d.lazyReset.pos + 1 ≠ d.lazyReset.pos := by bv_omega
  cases k with
  | syncMiss => exact absurd rfl hmiss
  | esc => exact absurd rfl hesc
  | abort => exact .inr (by simp [DecCase.result, Decoder.abortFrame, hc])
  | toolarge => exact .inr nofun
  | syncHit | lenhi | lenlo | api | data | msg | finalOk | finalBad => exact .inl hmove

/-- R107: a sound decoder in progress misses a start exactly at pos 0 and a byte other than 7E. -/
theorem Decoder.Safe.decCase_eq_syncMiss_iff {c : Config} {d : Decoder} (h : d.Safe c) (hs : d.status = .inProgress)
    {raw : Byte} : decCase c d raw = .syncMiss ↔ d.pos = 0 ∧ raw ≠ startByte := by
  have hl := Decoder.lazyReset_inProgress hs
  have hcase : d.pos = 0 → decCase c d raw = if raw = startByte then .syncHit else .syncMiss := by
    intro hp
    obtain rfl := h.startZero hs hp
    rfl
  constructor
  · intro hk
    have hp : d.pos = 0 := eq_zero_of_toNat (hl ▸ pos_of_syncMiss hk)
    refine ⟨hp, ?_⟩
    rintro rfl
    rw [hcase hp] at hk
    cases hk
  · rintro ⟨hp, hr⟩
    rw [hcase hp, if_neg hr]

/-- A decoder in progress is as it was after a feed exactly when the byte misses a start, or is a marker after a marker. -/
theorem Decoder.Safe.feed_eq_self_iff {c : Config} {d : Decoder} (h : d.Safe c) (hs : d.status = .inProgress)
    (hc : c.abortPolicy = .discard) (raw : Byte) :
    (d.feed c raw).1 = d ↔ decCase c d raw = .syncMiss ∨ (decCase c d raw = .esc ∧ d.esc = true) := by
  have hl := Decoder.lazyReset_inProgress hs
  rw [Decoder.feed_eq_result]
  generalize caseByte _ d raw = x
  by_cases hmiss : decCase c d raw = .syncMiss
  · obtain ⟨hp, -⟩ := (h.decCase_eq_syncMiss_iff hs).mp hmiss
    obtain rfl := h.startZero hs hp
    rw [hmiss]
    exact iff_of_true rfl (.inl rfl)
  by_cases hesc : decCase c d raw = .esc
  · rw [hesc]
    have hself : ({ d.lazyReset with esc := true } : Decoder) = d ↔ d.esc = true := by
      rw [hl]
      constructor <;> intro he <;> rw [← he]
    simpa [DecCase.result] using hself
  · refine iff_of_false (fun he => ?_) (by simp [hmiss, hesc])
    have hne := DecCase.result_pos_or_status_ne hc d x hmiss hesc
    rw [he, hl] at hne
    simp [hs] at hne

/-- Settles O29: from a terminal status the status changes; in a frame the two cases are the missed start and the marker after
a marker. -/
theorem feedChangesTheDecoderButInTwoCases : Obligations.FeedChangesTheDecoderButInTwoCases := by
  intro s t raw h _ hdiscard hx
  rw [(State.feed_next hx).2, State.decoded_dec]
  by_cases hs : s.dec.status = .inProgress
  · rw [h.dec.feed_eq_self_iff hs hdiscard, h.dec.decCase_eq_syncMiss_iff hs, decCase_eq_esc_iff]
    simp only [hs, true_and]
    tauto
  · refine iff_of_false (fun he => hs ?_) (fun hr => hs hr.1)
    rw [← he]
    exact Decoder.feed_status_of_terminal hs raw

end Sys2Proof.Machine
end

section
/-! PROOFS. The encoding family: bytes to instructions and back (R72, R73, R74, R81), whole scripts (R82), and the step that
runs what the bytes spell. -/

namespace Sys2Proof

/-! R81, R82: the record decoder both ways. -/

/-- A record row that spells no operation is the RESERVED row of some op byte 08..FF. -/
theorem exists_reservedRow {i : Instr} (hf : i.format = .record) (ho : i.isOperation = false) :
    ∃ op : Byte, 8 ≤ op.toNat ∧ reservedRow op = i := by
  cases i <;> try (first | (cases hf; done) | (cases ho; done))
  case reserved08 v => exact ⟨1#5 ++ v, by revert v; decide⟩
  case reserved10 v => exact ⟨1#4 ++ v, by revert v; decide⟩
  case reserved20 v => exact ⟨1#3 ++ v, by revert v; decide⟩
  case reserved40 v => exact ⟨1#2 ++ v, by revert v; decide⟩
  case reserved80 v => exact ⟨1#1 ++ v, by revert v; decide⟩

/-- Every record row is read back from its bytes, the RESERVED rows too. -/
theorem decodeRecord_encode_of_format {i : Instr} (hf : i.format = .record) (hwf : i.wf = true) (rest : List Byte) :
    decodeRecord (encode i ++ rest) = .ok i rest := by
  cases ho : i.isOperation with
  | true => exact decodeRecord_encode i rest hwf ho
  | false =>
    obtain ⟨op, hop, rfl⟩ := exists_reservedRow hf ho
    rw [reservedRow_encode op hop]
    exact decodeRecord_reserved op hop rest

/-- The bytes `bs` are a word `i` of the format `f`, and `rest` after it. -/
structure Spells (f : Format) (bs : List Byte) (i : Instr) (rest : List Byte) : Prop where
  bytes : encode i ++ rest = bs
  wf : i.wf = true
  format : i.format = f

theorem decodeFeed_cases (bs : List Byte) :
    decodeFeed bs = .invalid .cutShort ∨ ∃ b rest, decodeFeed bs = .ok (.decFeed b) rest ∧ bs = b :: rest := by
  cases bs with
  | nil => exact .inl rfl
  | cons b rest => exact .inr ⟨b, rest, rfl, rfl⟩

theorem decodeRequest_cases (bs : List Byte) :
    decodeRequest bs = .invalid .cutShort ∨
      ∃ api n p rest, decodeRequest bs = .ok (.encRequest api n p) rest ∧ bs = api :: n :: (p ++ rest) ∧
        p.length = n.toNat := by
  match bs with
  | [] => exact .inl rfl
  | [_] => exact .inl rfl
  | api :: n :: bs =>
    by_cases hn : n.toNat ≤ bs.length
    · exact .inr ⟨api, n, bs.take n.toNat, bs.drop n.toNat, by simp [decodeRequest, hn], by simp,
        List.length_take_of_le hn⟩
    · exact .inl (by simp [decodeRequest, hn])

/-- The record decoder refuses only what is cut short; what it reads was spelt by the bytes. -/
theorem decodeRecord_cases (bs : List Byte) :
    decodeRecord bs = .invalid .cutShort ∨ ∃ i rest, decodeRecord bs = .ok i rest ∧ Spells .record bs i rest := by
  match bs with
  | [] => exact .inl rfl
  | op :: bs =>
    by_cases hop : 8 ≤ op.toNat
    · exact .inr ⟨_, bs, decodeRecord_reserved op hop bs, by simp [reservedRow_encode op hop], reservedRow_wf op,
        reservedRow_format op⟩
    by_cases hfeed : op = 0x03
    · subst hfeed
      obtain hcut | ⟨b, rest, hd, rfl⟩ := decodeFeed_cases bs
      · exact .inl hcut
      · exact .inr ⟨_, rest, hd, rfl, rfl, rfl⟩
    by_cases hrequest : op = 0x04
    · subst hrequest
      obtain hcut | ⟨api, n, p, rest, hd, rfl, hp⟩ := decodeRequest_cases bs
      · exact .inl hcut
      · exact .inr ⟨_, rest, hd, rfl, by simp [Instr.wf, hp], rfl⟩
    have hbare : op = 0x00 ∨ op = 0x01 ∨ op = 0x02 ∨ op = 0x05 ∨ op = 0x06 ∨ op = 0x07 := by bv_omega
    rcases hbare with rfl | rfl | rfl | rfl | rfl | rfl <;> exact .inr ⟨_, bs, rfl, rfl, rfl, rfl⟩

theorem decodeRecord_spells {bs rest : List Byte} {i : Instr} (h : decodeRecord bs = .ok i rest) :
    Spells .record bs i rest := by
  obtain hcut | ⟨j, rest', hd, hs⟩ := decodeRecord_cases bs
  · simp [hcut] at h
  · rw [hd] at h
    cases h
    exact hs

/-! R72, R73, R74: wire bytes both ways. -/

theorem isReserved_eq_false_iff {v : Byte} :
    isReserved v = false ↔ v ≠ startByte ∧ v ≠ escMarker ∧ v ≠ xonByte ∧ v ≠ xoffByte := by
  rw [isReserved]
  simp only [Bool.or_eq_false_iff, beq_eq_false_iff_ne, and_assoc]

/-- Every wire row is read back from its bytes; a lone marker only where nothing follows (R74). -/
theorem decodeWire_encode {i : Instr} (hf : i.format = .wire) (hwf : i.wf = true) (rest : List Byte)
    (hesc : i = .wireEsc → rest = []) : decodeWire (encode i ++ rest) = .ok i rest := by
  cases i <;> try cases hf
  case wireEsc => rw [hesc rfl]; rfl
  case wireData d =>
    simp only [Instr.wf, Bool.not_eq_true', isReserved_eq_false_iff] at hwf
    obtain ⟨hsof, hmark, hon, hoff⟩ := hwf
    simp only [encode, List.singleton_append, decodeWire]
    rw [if_neg hsof, if_neg hmark, if_neg hon, if_neg hoff]
  case wireSof | wireXon | wireXoff | wireEscpair => rfl

theorem decodeWire_spells {bs rest : List Byte} {i : Instr} (h : decodeWire bs = .ok i rest) :
    Spells .wire bs i rest := by
  cases bs with
  | nil => cases h
  | cons w bs =>
    simp only [decodeWire] at h
    split_ifs at h with hsof hmark hon hoff
    · cases h
      exact ⟨by rw [hsof]; rfl, rfl, rfl⟩
    · rw [hmark]
      cases bs <;> cases h <;> exact ⟨rfl, rfl, rfl⟩
    · cases h
      exact ⟨by rw [hon]; rfl, rfl, rfl⟩
    · cases h
      exact ⟨by rw [hoff]; rfl, rfl, rfl⟩
    · cases h
      have hdata : isReserved w = false := isReserved_eq_false_iff.mpr ⟨hsof, hmark, hon, hoff⟩
      exact ⟨rfl, by simp [Instr.wf, hdata], rfl⟩

/-! The dispatch cases both ways: one byte each. -/

theorem decodeCase_encode {c : DecCase} {i : Instr} (hf : i.format = .decCase c) (hwf : i.wf = true)
    (rest : List Byte) : decodeCase c (encode i ++ rest) = .ok i rest := by
  cases i <;> cases hf
  case decSyncMiss raw => exact if_pos hwf
  all_goals rfl

theorem decodeCase_spells {c : DecCase} {bs rest : List Byte} {i : Instr} (h : decodeCase c bs = .ok i rest) :
    Spells (.decCase c) bs i rest := by
  cases bs with
  | nil => cases h
  | cons x bs =>
    simp only [decodeCase] at h
    split at h
    · rename_i hm
      cases h
      cases c
      case syncHit | esc | abort => exact ⟨by rw [eq_of_beq hm]; rfl, rfl, rfl⟩
      case syncMiss => exact ⟨rfl, hm, rfl⟩
      all_goals exact ⟨rfl, rfl, rfl⟩
    · cases h

/-- Settles O1: the decoder of each format reads its rows back. -/
theorem decodeOfEncode : Obligations.DecodeOfEncode := by
  intro i rest hwf hesc
  cases hf : i.format with
  | record => exact decodeRecord_encode_of_format hf hwf rest
  | wire => exact decodeWire_encode hf hwf rest hesc
  | decCase c => exact decodeCase_encode hf hwf rest

/-- Settles O2: what each decoder reads is spelt by the bytes. -/
theorem encodeOfDecode : Obligations.EncodeOfDecode := by
  intro f bs i rest h
  obtain ⟨hbytes, hwf, hformat⟩ : Spells f bs i rest := by
    cases f with
    | record => exact decodeRecord_spells h
    | wire => exact decodeWire_spells h
    | decCase c => exact decodeCase_spells h
  exact ⟨hbytes, hwf, hformat⟩

/-- Settles O5: each list is read by evaluating its decoder. -/
theorem wordsDecodeAsTheTableSays : Obligations.WordsDecodeAsTheTableSays := by
  unfold Obligations.WordsDecodeAsTheTableSays
  and_intros <;> rfl

/-! R82: whole scripts. -/

theorem Script.cons_eq_ok {i : Instr} {sc : Script} {ops : List Instr} (h : sc.cons i = .ok ops) :
    ∃ ops', sc = .ok ops' ∧ ops = i :: ops' := by
  cases sc with
  | ok ops' => cases h; exact ⟨ops', rfl, rfl⟩
  | invalid why => cases h

/-- One record in front of an accepted script. -/
theorem decodeRecords_cons_ok {fuel : Nat} {b : Byte} {bs : List Byte} {ops : List Instr}
    (h : decodeRecords (fuel + 1) (b :: bs) = .ok ops) :
    ∃ i rest ops', decodeRecord (b :: bs) = .ok i rest ∧ i.isOperation = true ∧ decodeRecords fuel rest = .ok ops' ∧
      ops = i :: ops' := by
  simp only [decodeRecords] at h
  split at h
  · cases h
  · rename_i i rest hd
    split at h
    · obtain ⟨ops', hrest, rfl⟩ := Script.cons_eq_ok h
      exact ⟨i, rest, ops', hd, ‹_›, hrest, rfl⟩
    · cases h

/-- An accepted script is the records of what it was read as, whatever the fuel. -/
theorem decodeRecords_eq_ok {fuel : Nat} {bs : List Byte} {ops : List Instr} (h : decodeRecords fuel bs = .ok ops) :
    bs = encodeScript ops ∧ ∀ i ∈ ops, i.wf = true ∧ i.isOperation = true := by
  induction fuel generalizing bs ops with
  | zero =>
    cases bs with
    | nil => cases h; exact ⟨rfl, by simp⟩
    | cons b bs => cases h
  | succ fuel ih =>
    cases bs with
    | nil => cases h; exact ⟨rfl, by simp⟩
    | cons b bs =>
      obtain ⟨i, rest, ops', hd, hop, hrest, rfl⟩ := decodeRecords_cons_ok h
      obtain ⟨hbytes, hwf, -⟩ := decodeRecord_spells hd
      obtain ⟨hscript, hall⟩ := ih hrest
      refine ⟨?_, List.forall_mem_cons.mpr ⟨⟨hwf, hop⟩, hall⟩⟩
      rw [← hbytes, hscript]
      rfl

theorem decodeScript_encodeScript {ops : List Instr} (hops : ∀ i ∈ ops, i.wf = true ∧ i.isOperation = true) :
    decodeScript (encodeScript ops) = .ok ops := by
  obtain ⟨f', -, h⟩ := decodeRecords_append ops hops [] (encodeScript ops).length (by simp)
  have hnil : decodeRecords f' [] = .ok [] := by cases f' <;> rfl
  rw [List.append_nil, hnil, Script.foldr_cons_ok, List.append_nil] at h
  exact h

/-- Settles O3: the script decoder, like the record decoder, both ways. -/
theorem scriptAcceptedIffRecords : Obligations.ScriptAcceptedIffRecords := by
  refine fun bs ops => ⟨decodeRecords_eq_ok, ?_⟩
  rintro ⟨rfl, hops⟩
  exact decodeScript_encodeScript hops

/-- A tail that is refused refuses the whole script, whatever good records stand in front (R82). -/
theorem decodeScript_append_invalid {ops : List Instr} (hops : ∀ i ∈ ops, i.wf = true ∧ i.isOperation = true)
    {tail : List Byte} (hne : tail ≠ []) {why : Invalid} (hbad : ∀ fuel, decodeRecords (fuel + 1) tail = .invalid why) :
    decodeScript (encodeScript ops ++ tail) = .invalid why := by
  obtain ⟨f', hf', h⟩ := decodeRecords_append ops hops tail _ (Nat.le_refl _)
  obtain ⟨fuel, rfl⟩ : ∃ fuel, f' = fuel + 1 := ⟨f' - 1, by have := List.length_pos_of_ne_nil hne; omega⟩
  rw [decodeScript, h, hbad, Script.foldr_cons_invalid]

theorem decodeRecords_reserved {op : Byte} (hop : 8 ≤ op.toNat) (rest : List Byte) (fuel : Nat) :
    decodeRecords (fuel + 1) (op :: rest) = .invalid .reserved := by
  simp [decodeRecords, decodeRecord_reserved op hop, reservedRow_isOperation]

/-- No record is a proper prefix of a record: the two would be read from the same bytes. -/
theorem decodeRecord_cutShort {i : Instr} {tail more : List Byte} (hwf : i.wf = true) (hop : i.isOperation = true)
    (hcut : tail ++ more = encode i) (hmore : more ≠ []) : decodeRecord tail = .invalid .cutShort := by
  obtain hinv | ⟨j, rest, -, hbytes, hj, hformat⟩ := decodeRecord_cases tail
  · exact hinv
  · have hreadJ := decodeRecord_encode_of_format hformat hj (rest ++ more)
    have hreadI := decodeRecord_encode i [] hwf hop
    rw [← List.append_assoc, hbytes, hcut, ← List.append_nil (encode i), hreadI] at hreadJ
    simp [hmore] at hreadJ

theorem decodeRecords_cutShort {tail : List Byte} (hne : tail ≠ []) (h : decodeRecord tail = .invalid .cutShort)
    (fuel : Nat) : decodeRecords (fuel + 1) tail = .invalid .cutShort := by
  obtain ⟨b, bs, rfl⟩ := List.exists_cons_of_ne_nil hne
  simp [decodeRecords, h]

end Sys2Proof

namespace Sys2Proof.Machine

/-- R82: a refused script is refused at its first step, whatever stands in it. -/
theorem step_script_invalid {s : State} {bs : List Byte} {why : Invalid} (hc : s.cfg.wf = true)
    (hin : s.input = .script bs) (h : decodeScript bs = .invalid why) : step s = .refused (refusalOf why) := by
  rw [step_eq_run hc]
  simp [fetch, hin, fetchScript, h, run]

/-- Settles O4: the good records in front do not matter, since the whole script is decoded first. -/
theorem badScriptIsRefusedWhole : Obligations.BadScriptIsRefusedWhole := by
  intro s ops tail hc hops hin
  constructor
  · rintro op rest rfl hop
    exact step_script_invalid hc hin (decodeScript_append_invalid hops (by simp) (decodeRecords_reserved hop rest))
  · intro i more hwf hop hcut hne hmore
    have h := decodeRecord_cutShort hwf hop hcut hmore
    exact step_script_invalid hc hin (decodeScript_append_invalid hops hne (decodeRecords_cutShort hne h))

theorem exec_reservedRow (op : Byte) (s : State) : exec (reservedRow op) s = .refused .reservedRecord := by
  unfold reservedRow
  split_ifs <;> rfl

/-- Settles O13: the row is the reserved row of the op byte. -/
theorem reservedRecordsAreRefused : Obligations.ReservedRecordsAreRefused := fun op rest hop =>
  ⟨reservedRow op, decodeRecord_reserved op hop rest, reservedRow_encode op hop, reservedRow_isOperation op,
    exec_reservedRow op⟩

/-- Settles O9: NOP is the quiet step. -/
theorem nopChangesNothing : Obligations.NopChangesNothing := fun _ => rfl

/-! After RESET a step runs what it fetches (R80, R232). -/

theorem step_of_fetch_instr {s t : State} {i : Instr} (hc : s.cfg.wf = true) (hr : s.resetDone = true)
    (hf : fetch s = .instr i t) : step s = exec i t := by
  simp [step_eq_run hc, hf, run, afterReset, hr]

theorem step_of_fetch_cycle {s t : State} {g : Signals} (hc : s.cfg.wf = true) (hr : s.resetDone = true)
    (hf : fetch s = .cycle g t) : step s = cycle g t := by
  simp [step_eq_run hc, hf, run, afterReset, hr]

theorem step_of_fetch_idle {s : State} (hc : s.cfg.wf = true) (hr : s.resetDone = true) (hf : fetch s = .idle) :
    step s = .next s.quiet := by
  simp [step_eq_run hc, hf, run, afterReset, hr, execNop]

theorem fetch_wire {s : State} {bs rest : List Byte} {i : Instr} (hin : s.input = .wire bs)
    (hd : decodeWire bs = .ok i rest) : fetch s = .instr i { s with input := .wire rest } := by
  cases bs with
  | nil => cases hd
  | cons w bs => simp [fetch, hin, fetchWire, hd, fetched]

theorem fetch_rx_cons {s : State} {raw : Byte} {rest : List Byte} (hin : s.input = .rx (raw :: rest)) :
    fetch s = .instr ((decCase s.cfg s.dec raw).instr (caseByte (decCase s.cfg s.dec raw) s.dec raw))
      { s with input := .rx rest } := by
  simp [fetch, hin, fetchRx]

theorem fetch_wire_nil {s : State} (hin : s.input = .wire []) : fetch s = .idle := by
  simp [fetch, hin, fetchWire]

theorem fetch_rx_nil {s : State} (hin : s.input = .rx []) : fetch s = .idle := by
  simp [fetch, hin, fetchRx]

/-- Settles O6: a good script hands over its first record. -/
theorem stepRunsDecodedRecord : Obligations.StepRunsDecodedRecord := fun _ _ _ _ _ hc hr hin hs hd =>
  step_of_fetch_instr hc hr (fetch_script_record hin hs hd)

/-- Settles O7: each form of input hands over its own transaction. -/
theorem stepRunsWireBytesAndCases : Obligations.StepRunsWireBytesAndCases := by
  intro s hc hr
  refine ⟨fun bs rest i hin hd => step_of_fetch_instr hc hr (fetch_wire hin hd),
    fun raw rest hin => step_of_fetch_instr hc hr (fetch_rx_cons hin),
    fun g rest hin => step_of_fetch_cycle hc hr (fetch_cycles_cons hin), ?_⟩
  rintro (hin | hin | hin | hin)
  · exact step_of_fetch_idle hc hr (fetch_script_nil hin)
  · exact step_of_fetch_idle hc hr (fetch_wire_nil hin)
  · exact step_of_fetch_idle hc hr (fetch_rx_nil hin)
  · exact step_of_fetch_idle hc hr (fetch_cycles_nil hin)

end Sys2Proof.Machine
end

section
/-! PROOFS. The wire bytes at the decoder and the encoder: what a wire row feeds (R73, R74, R103), where the data byte goes
(R111), the event ports (R85, R87), the bytes of W (R155) and the accepts that send them (R84). -/

namespace Sys2Proof.Machine

/-! R73, R74, R84: the wire rows. -/

theorem eventOnly_of_needMore (s : State) (raw : Byte) (h : (s.dec.feed s.cfg raw).2 = .needMore) :
    (s.decoded (s.dec.feed s.cfg raw)).out = eventOnly .needMore := by
  rw [← h]
  rfl

theorem exec_decFeed_marker (s : State) :
    exec (.decFeed escMarker) s = .next (s.decoded (s.dec.feed s.cfg escMarker)) :=
  State.feed_of_no_overrun (Decoder.overrunsMsg_marker s)

/-- A pair is the feed of its second byte after the feed of the marker, which never faults. -/
theorem exec_wireEscpair (x : Byte) (s : State) :
    exec (.wireEscpair x) s = exec (.decFeed x) (s.decoded (s.dec.feed s.cfg escMarker)) := by
  change execWireEscpair x s = _
  rw [execWireEscpair, ← exec_decFeed escMarker, exec_decFeed_marker]
  rfl

/-- Settles O26: each row of one byte is its feed by definition; the pair is two. -/
theorem wireRowsAreFeeds : Obligations.WireRowsAreFeeds := fun s =>
  ⟨rfl, rfl, rfl, rfl, fun _ => rfl, fun x => ⟨_, exec_decFeed_marker s,
    eventOnly_of_needMore s escMarker (Decoder.feed_marker_needMore s.cfg s.dec), exec_wireEscpair x s⟩⟩

/-- R72: the second byte of a pair is neither the marker nor a start byte. -/
theorem xor_escMask_of_reserved {v : Byte} (h : isReserved v = true) :
    v ^^^ escMask ≠ escMarker ∧ v ^^^ escMask ≠ startByte := by
  revert h; revert v; decide

/-- R103: after the marker the second byte of a pair delivers the reserved byte. -/
theorem Decoder.escaped_delivers {c : Config} {d : Decoder} {v : Byte} (hg : c.startGuard = .raw)
    (hs : d.status = .inProgress) (hp : 0 < d.pos.toNat) (hv : isReserved v = true) :
    ({ d with esc := true } : Decoder).Delivers c (v ^^^ escMask) v := by
  obtain ⟨hmarker, hstart⟩ := xor_escMask_of_reserved hv
  refine ⟨hs, hp, hmarker, ?_, (xor_escMask_twice v).symm⟩
  simpa only [guardByte, hg] using hstart

/-- Settles O24: the marker arms esc, and the second byte delivers the reserved byte. -/
theorem escapePairDeliversItsByte : Obligations.EscapePairDeliversItsByte := by
  intro s v hg hs hp hroom hv
  refine ⟨by simp [escByte, hv], ?_⟩
  have hl := Decoder.lazyReset_inProgress hs
  have hmark : s.dec.feed s.cfg escMarker = ({ s.dec with esc := true }, .needMore) := by
    rw [Decoder.feed_marker (by rwa [hl]) rfl, hl]
  have hdel := Decoder.escaped_delivers hg hs hp hv
  obtain ⟨hl', -⟩ := hdel.facts
  rw [exec_wireEscpair, hmark, exec_decFeed, State.feed_of_no_overrun (Decoder.overrunsMsg_of_room ?room)]
  · change Host.Outcome.next (State.decoded _ (({ s.dec with esc := true } : Decoder).feed s.cfg (v ^^^ escMask))) = _
    rw [hdel.feed_eq]
    rfl
  case room =>
    change ({ s.dec with esc := true } : Decoder).lazyReset.mfill.toNat < _
    rwa [hl']

/-! R111: the data byte. -/

/-- R112: what keeps a byte out of the message. -/
theorem Decoder.inMessage_eq_false {c : Config} {d : Decoder}
    (h : d.api ≠ rxApiId ∨ d.pos.toNat < c.receivedDataIdx ∨ d.dlen.toNat + 3 ≤ d.pos.toNat) :
    d.inMessage c = false := by
  rw [Bool.eq_false_iff]
  intro hm
  simp only [Decoder.inMessage, Bool.and_eq_true, beq_iff_eq, decide_eq_true_eq] at hm
  obtain ⟨⟨hapi, hlo⟩, hhi⟩ := hm
  obtain h | h | h := h
  · exact h hapi
  · omega
  · omega

/-- Settles O22: the byte selects DEC.DATA, and the wire rows are feeds of it. -/
theorem dataByteIsSummedAndStored : Obligations.DataByteIsSummedAndStored := by
  intro s raw b i hdel hp hM hlast hplain hi
  obtain ⟨hl, -⟩ := hdel.facts
  have hm : s.dec.inMessage s.cfg = false := Decoder.inMessage_eq_false (hplain.imp_right (Or.imp_right Nat.le_of_lt))
  have hk : decCase s.cfg s.dec raw = .data := by
    rw [hdel.decCase_eq, if_neg (by omega), if_neg (by omega), if_neg (by omega), if_neg (by omega), if_neg hlast, hm]
    rfl
  have hrow := hdel.exec_eq hk nofun rfl rfl
  rw [DecCase.result, Decoder.opened_eq hl] at hrow
  obtain rfl | rfl | rfl | ⟨rfl, rfl⟩ | ⟨rfl, rfl⟩ := hi
  · exact hrow _ (.inl rfl)
  · exact hrow _ (.inr rfl)
  all_goals exact hrow (.decFeed _) (.inl rfl)

/-! R85, R87: the event of a step at the ports. -/

/-- R116, R206: an event of a case that is an Error names a kind, and under DISCARD the frame has failed with it. -/
theorem DecCase.result_error {k : DecCase} {c : Config} {d : Decoder} {x : Byte} {e : ErrorKind}
    (h : (DecCase.result k c d x).2 = .error e) :
    e ≠ .noError ∧ (c.abortPolicy = .discard →
      (DecCase.result k c d x).1.status = .failed ∧ (DecCase.result k c d x).1.err = e) := by
  cases k with
  | abort =>
    simp only [DecCase.result, Decoder.abortFrame] at h ⊢
    cases hpol : c.abortPolicy <;> rw [hpol] at h <;> cases h
    · exact ⟨nofun, fun _ => ⟨rfl, rfl⟩⟩
    · exact ⟨nofun, nofun⟩
  | toolarge | finalBad => cases h; exact ⟨nofun, fun _ => ⟨rfl, rfl⟩⟩
  | syncHit | syncMiss | esc | lenhi | lenlo | api | data | msg | finalOk => cases h

/-- A step ends in `t` with the event `e` alone, and what R206 says of an Error, for a block with the parameters `c`. -/
structure EndsWithEvent (c : Config) (t : State) (e : Event) : Prop where
  out : t.out = eventOnly e
  error : ∀ k, e = .error k →
    k ≠ .noError ∧ (c.abortPolicy = .discard → t.dec.status = .failed ∧ t.dec.err = k)

theorem State.feed_endsWithEvent {s t : State} {raw : Byte} (h : s.feed raw = .next t) :
    ∃ e, EndsWithEvent s.cfg t e := by
  rw [exec_decFeed_next h]
  exact ⟨_, rfl, fun _ => DecCase.result_error⟩

/-- A row that feeds ends with the event of its last feed. -/
theorem exec_takesByte_endsWithEvent {i : Instr} (hi : i.takesByte = true) {s t : State} (hx : exec i s = .next t) :
    ∃ e, EndsWithEvent s.cfg t e := by
  obtain ⟨raw, hf⟩ | ⟨x, u, -, hfirst, hsecond⟩ := exec_takesByte_next hi hx
  · exact State.feed_endsWithEvent hf
  · obtain ⟨-, hcfg, -⟩ := State.feed_frame hfirst
    rw [← hcfg]
    exact State.feed_endsWithEvent hsecond

/-- R85: an instruction that feeds nothing gives no event. -/
theorem exec_no_event {i : Instr} (hi : i.takesByte = false) {s t : State} (hx : exec i s = .next t) :
    t.out.ev = none := by
  cases i <;> try (first | (cases hi; done) | (cases hx; done))
  case nop | reset | decClear | sinkStall => cases hx; rfl
  case encRequest api n p =>
    replace hx : execEncRequest api n p s = .next t := hx
    unfold execEncRequest at hx
    split_ifs at hx <;> cases hx <;> rfl
  case sinkAccept =>
    replace hx : execSinkAccept s = .next t := hx
    unfold execSinkAccept at hx
    split at hx <;> [split at hx; skip] <;> cases hx <;> rfl
  case sinkFail =>
    replace hx : execSinkFail s = .next t := hx
    unfold execSinkFail at hx
    split_ifs at hx <;> cases hx <;> rfl

theorem State.eventPorts_of_event {t : State} {e : Event} (h : t.out = eventOnly e) (idx : Half) :
    (t.outputPorts idx).decEvValid = true ∧ (t.outputPorts idx).decEv = e.code ∧
      (t.outputPorts idx).decEvErr = e.errCode := by
  simp [State.outputPorts, h, eventOnly]

theorem State.eventPorts_of_no_event {t : State} (h : t.out.ev = none) (idx : Half) :
    (t.outputPorts idx).decEvValid = false ∧ (t.outputPorts idx).decEv = 0b00 ∧
      (t.outputPorts idx).decEvErr = 0b00 := by
  simp [State.outputPorts, h]

/-- R36: the err field of DEC_STATUS. -/
theorem State.decStatus_err (t : State) : t.decStatus.extractLsb' 2 2 = t.dec.err.code :=
  (decStatus_fields t.dec.phase.code t.dec.esc t.dec.err.code t.dec.status.code).2.1

/-- Settles O60: the ports show the code of the step's one event. -/
theorem eventPortsShowTheStep : Obligations.EventPortsShowTheStep := by
  intro s t i idx hx
  cases hi : i.takesByte with
  | false => exact ⟨nofun, nofun, fun _ => State.eventPorts_of_no_event (exec_no_event hi hx) idx⟩
  | true =>
    obtain ⟨e, hout, herror⟩ := exec_takesByte_endsWithEvent hi hx
    obtain ⟨hvalid, hev, herr⟩ := State.eventPorts_of_event hout idx
    rw [hout, hvalid, hev, herr]
    refine ⟨fun _ => ⟨rfl, ?codes⟩, fun _ hdiscard hcode => ?field, nofun⟩
    case codes =>
      cases e with
      | needMore => exact .inl ⟨rfl, rfl, rfl⟩
      | frameReady a m => exact .inr (.inl ⟨a, m, rfl, rfl, rfl⟩)
      | error k =>
        obtain ⟨hk, -⟩ := herror k rfl
        cases k with
        | noError => exact absurd rfl hk
        | checksumFailure => exact .inr (.inr (.inl ⟨rfl, rfl, rfl⟩))
        | frameTooLarge => exact .inr (.inr (.inr (.inl ⟨rfl, rfl, rfl⟩)))
        | unexpectedStart => exact .inr (.inr (.inr (.inr ⟨rfl, rfl, rfl⟩)))
    case field =>
      cases e with
      | needMore | frameReady => exact absurd hcode (by simp [Event.code])
      | error k =>
        obtain ⟨-, hfail⟩ := herror k rfl
        obtain ⟨hstatus, hkind⟩ := hfail hdiscard
        refine ⟨hstatus, ?_⟩
        change k.code = t.decStatus.extractLsb' 2 2
        rw [t.decStatus_err, hkind]

/-! R155: where 7E and 7D stand in W. -/

/-- R72: what follows a 7D in escaped bytes. -/
def IsEscapedByte (x : Option Byte) : Prop := x = some 0x5E ∨ x = some 0x5D ∨ x = some 0x31 ∨ x = some 0x33

theorem isEscapedByte_xor {v : Byte} (h : isReserved v = true) : IsEscapedByte (some (v ^^^ escMask)) := by
  simp only [isReserved, Bool.or_eq_true, beq_iff_eq] at h
  obtain ((rfl | rfl) | rfl) | rfl := h <;> simp [IsEscapedByte]

theorem flatMap_escByte_ne_startByte (vs : List Byte) (k : Nat) : (vs.flatMap escByte)[k]? ≠ some startByte := by
  intro h
  obtain ⟨v, -, hv⟩ := List.mem_flatMap.mp (List.mem_of_getElem? h)
  exact ne_startByte_of_mem_escByte v _ hv rfl

/-- In escaped bytes a 7D is always the first byte of a pair. -/
theorem flatMap_escByte_after_marker {vs : List Byte} {k : Nat} (h : (vs.flatMap escByte)[k]? = some escMarker) :
    IsEscapedByte (vs.flatMap escByte)[k + 1]? := by
  induction vs generalizing k with
  | nil => simp at h
  | cons v vs ih =>
    cases hv : isReserved v with
    | false =>
      have hesc : escByte v = [v] := by simp [escByte, hv]
      simp only [List.flatMap_cons, hesc, List.singleton_append] at h ⊢
      cases k with
      | zero =>
        obtain ⟨-, hne, -⟩ := isReserved_eq_false_iff.mp hv
        exact absurd (Option.some.inj h) hne
      | succ k => exact ih h
    | true =>
      have hesc : escByte v = [escMarker, v ^^^ escMask] := by simp [escByte, hv]
      simp only [List.flatMap_cons, hesc, List.cons_append, List.nil_append] at h ⊢
      match k with
      | 0 => exact isEscapedByte_xor hv
      | 1 => exact absurd (Option.some.inj h) (xor_escMask_of_reserved hv).1
      | k + 2 => exact ih h

/-- Settles O43: after the start delimiter W is escaped bytes. -/
theorem wireHasOneStartByte : Obligations.WireHasOneStartByte := by
  intro api p k
  cases k with
  | zero => exact ⟨iff_of_true rfl rfl, fun h => absurd (Option.some.inj h) (by decide)⟩
  | succ k => exact ⟨iff_of_false (flatMap_escByte_ne_startByte _ k) nofun, flatMap_escByte_after_marker⟩

/-! R84: DRAIN. -/

/-- A run of accepts, as operations of a script. -/
theorem runOps_of_acceptStream {k : Nat} {s t : State} {vs : List Byte} (h : acceptStream k s = some (vs, t)) :
    runOps (List.replicate k .sinkAccept) s = .next t := by
  induction k generalizing s vs with
  | zero => cases h; rfl
  | succ k ih =>
    cases hx : exec .sinkAccept s with
    | next u =>
      simp only [acceptStream, hx] at h
      split at h
      · rename_i hrest
        cases h
        simp only [List.replicate_succ, runOps, hx]
        exact ih hrest
      · cases h
    | fault r | refused r => simp [acceptStream, hx] at h

theorem Encoder.length_owed {e : Encoder} (hb : e.ebusy = true) : e.owed.length = e.wire.length - e.ek.toNat := by
  simp [Encoder.owed, hb]

/-- Settles O59: the accepts of DRAIN send all that is owed. -/
theorem drainEndsTheFrame : Obligations.DrainEndsTheFrame := by
  intro s hs hb
  have hlt := hs.enc.ekBusy hb
  obtain ⟨t, ht⟩ := exists_sentTo (k := s.enc.wire.length - s.enc.ek.toNat) hs.enc hb (by omega)
  have hlen : ((s.enc.wire.drop s.enc.ek.toNat).take (s.enc.wire.length - s.enc.ek.toNat)).length =
      s.enc.wire.length - s.enc.ek.toNat := by simp
  have hrun := runOps_of_acceptStream ht.run
  have hcount := ht.count
  rw [hlen] at hrun hcount
  obtain ⟨hidle, hok⟩ := ht.after (by omega)
  refine ⟨by simp [ScriptLine.expand, Encoder.length_owed hb], t, ?_, hidle, hok, ht.dec⟩
  rwa [ScriptLine.expand, Encoder.length_owed hb]

end Sys2Proof.Machine
end

section
/-! PROOFS. Whole frames at the decoder (R113, R117, R118, R165): however the bytes of a frame are carried, the decoder takes
its logical bytes one by one, up to the checksum or past M. -/

namespace Sys2Proof.Machine

/-- R101, R107: a sound decoder outside a frame meets the next byte as the zero decoder. -/
theorem Decoder.Safe.lazyReset_eq_zero {c : Config} {d : Decoder} (h : d.Safe c)
    (hd : d.status ≠ .inProgress ∨ d.pos = 0) : d.lazyReset = Decoder.zero := by
  by_cases hs : d.status = .inProgress
  · rw [Decoder.lazyReset_inProgress hs]
    exact h.startZero hs (hd.resolve_left (not_not_intro hs))
  · exact Decoder.lazyReset_terminal hs

/-- What carries a frame carries its first bytes, then the others. -/
theorem Carried.split_append {us vs ws : List Byte} (h : Carried (us ++ vs) ws) :
    ∃ a b, ws = a ++ b ∧ Carried us a ∧ Carried vs b := by
  induction us generalizing ws with
  | nil => exact ⟨[], ws, rfl, .nil, h⟩
  | cons u us ih =>
    cases h with
    | cons _ w _ bs hu hrest =>
      obtain ⟨a, b, rfl, ha, hb⟩ := ih hrest
      exact ⟨w ++ a, b, (List.append_assoc ..).symm, .cons u w us a hu ha, hb⟩

/-- A predicate `P k` of the decoder in a frame that has taken `k` bytes of `vs`: the start byte establishes it, and each of
the bytes keeps it and gives NeedMore. -/
structure TakesAll (c : Config) (vs : List Byte) (P : Nat → Decoder → Prop) : Prop where
  inFrame : ∀ k d, P k d → d.status = .inProgress ∧ d.esc = false ∧ 0 < d.pos.toNat
  start : P 0 (Decoder.seeded c)
  takes : ∀ k d (hk : k < vs.length), P k d →
    (d.takeLogical c vs[k]).2 = .needMore ∧ P (k + 1) (d.takeLogical c vs[k]).1

/-- A start byte and what carries `vs` and then `v`: NeedMore up to the last byte, which takes `v`. -/
theorem TakesAll.feedAll_eq {c : Config} {vs : List Byte} {P : Nat → Decoder → Prop} (hP : TakesAll c vs P)
    (hg : c.startGuard = .raw) {d0 : Decoder} (hz : d0.lazyReset = Decoder.zero) {v : Byte} {wire : List Byte}
    (hw : Carried (vs ++ [v]) wire) :
    ∃ d, P vs.length d ∧ d0.feedAll c (startByte :: wire) =
      ((d.takeLogical c v).1, List.replicate wire.length .needMore ++ [(d.takeLogical c v).2]) := by
  obtain ⟨a, b, rfl, ha, hb⟩ := hw.split_last
  obtain ⟨d, hfeed, hd⟩ := Carried.feedAll_keeps hg P vs hP.inFrame hP.takes vs 0 a _ rfl (Nat.zero_le _) ha hP.start
  obtain ⟨hs, he, hp⟩ := hP.inFrame _ d hd
  have hlen : (a ++ b).length = a.length + (b.length - 1) + 1 := by
    have := CarriesByte.length_pos hb
    rw [List.length_append]
    omega
  refine ⟨d, hd, ?_⟩
  rw [Decoder.feedAll, Decoder.feed_start hz]
  simp only [Decoder.feedAll_append, hfeed, CarriesByte.feedAll_eq hg hs hp he hb, hlen, List.replicate_succ]
  rw [← List.replicate_append_replicate, List.cons_append, List.append_assoc]

/-! R117: a frame that ends at its checksum. -/

section WellFormed

variable {c : Config} {h l a ckByte : Byte} {data : List Byte}

/-- A frame whose declared length counts its bytes and fits below M: none of the bytes before the checksum ends it. -/
theorem takesAll_inFrame (hc : c.wf = true) (hlen : data.length + 1 = l.toNat) (hM : l.toNat + 3 ≤ c.maxFrameSize) :
    TakesAll c (h :: l :: a :: data) (InFrame c (startByte :: h :: l :: a :: data)) where
  inFrame k d hd := ⟨hd.st, hd.es, by rw [hd.ps]; omega⟩
  start := InFrame.start hc _
  takes k d hk hd := by
    have hk' : k < data.length + 3 := hk
    refine InFrame.takes hc hd ?_ (by omega) fun h3 => ?_
    · rw [Nat.add_comm 1 k, List.getElem?_cons_succ, List.getElem?_eq_getElem hk]
    · have hdl : l = d.dlen := Option.some.inj (hd.dl (by omega))
      rw [← hdl]
      omega

theorem take_beforeChecksum (hlen : data.length + 1 = l.toNat) :
    (startByte :: h :: l :: a :: data).take (1 + (l.toNat + 2)) = startByte :: h :: l :: a :: data :=
  List.take_of_length_le (by simp only [List.length_cons]; omega)

variable {d0 : Decoder} {wire : List Byte} (hc : c.wf = true) (hg : c.startGuard = .raw)
  (hz : d0.lazyReset = Decoder.zero) (hlen : data.length + 1 = l.toNat) (hM : l.toNat + 3 ≤ c.maxFrameSize)
  (hw : Carried (h :: l :: a :: (data ++ [ckByte])) wire)

include hc hg hz hlen hM hw

/-- The decoder in front of the checksum byte, and the feed of the whole frame from there. -/
theorem feedAll_toChecksum :
    ∃ d, InFrame c (startByte :: h :: l :: a :: data) (l.toNat + 2) d ∧ d.dlen = l ∧ d.api = a ∧
      d0.feedAll c (startByte :: wire) =
        ((d.takeLogical c ckByte).1, List.replicate wire.length .needMore ++ [(d.takeLogical c ckByte).2]) := by
  obtain ⟨d, hd, hfeed⟩ := (takesAll_inFrame hc hlen hM).feedAll_eq hg hz hw
  rw [show (h :: l :: a :: data).length = l.toNat + 2 by simp [← hlen]] at hd
  exact ⟨d, hd, (Option.some.inj (hd.dl (by omega))).symm, (Option.some.inj (hd.ap (by omega))).symm, hfeed⟩

/-- R114, R117: with a good sum the last byte gives the frame, which stands in Buf. -/
theorem feedAll_goodFrame (hsum : sum8 (a :: (data ++ [ckByte])) = 0xFF) :
    ∃ d, d0.feedAll c (startByte :: wire) = (d, List.replicate wire.length .needMore ++
        [.frameReady a (if a = 0x90 then (startByte :: h :: l :: a :: data).drop c.receivedDataIdx else [])]) ∧
      d.status = .complete ∧ d.api = a ∧ d.buf.firstBytes (l.toNat + 3) = startByte :: h :: l :: a :: data ∧
      (l.toNat + 3 < c.maxFrameSize → d.buf.read (l.toNat + 3) = ckByte) := by
  obtain ⟨d, hd, hdlen, hapi, hfeed⟩ := feedAll_toChecksum hc hg hz hlen hM hw
  have hk : 1 + (l.toNat + 2) = l.toNat + 3 := by omega
  have hall := take_beforeChecksum (h := h) (a := a) hlen
  have hps : d.pos.toNat = l.toNat + 3 := hd.ps.trans hk
  obtain ⟨hgood, -⟩ := hd.takes_checksum (b := ckByte) (by omega) (by omega) (by rw [hdlen])
  rw [hall] at hgood
  have hmsg := hd.mb
  rw [hall, hapi, if_congr (and_iff_right (show 3 ≤ l.toNat + 2 by omega)) rfl rfl] at hmsg
  have hbuf := hd.bb
  rw [hall, hk] at hbuf
  rw [hgood hsum, hmsg, hapi] at hfeed
  refine ⟨_, hfeed, rfl, hapi, ?first, fun hlt => ?last⟩
  case first =>
    rw [← hbuf]
    change (d.bufStored c ckByte).firstBytes _ = _
    unfold Decoder.bufStored
    split
    · exact Memory.firstBytes_write hd.bw (by omega) ckByte
    · rfl
  case last =>
    change (d.bufStored c ckByte).read _ = _
    rw [Decoder.bufStored_in (by omega), Memory.read_write_wf hd.bw, if_pos hps.symm]

/-- R114, R117: with any other sum the last byte gives ChecksumFailure. -/
theorem feedAll_badFrame (hsum : sum8 (a :: (data ++ [ckByte])) ≠ 0xFF) :
    ∃ d, d0.feedAll c (startByte :: wire) = (d, List.replicate wire.length .needMore ++ [.error .checksumFailure]) ∧
      d.status = .failed := by
  obtain ⟨d, hd, hdlen, -, hfeed⟩ := feedAll_toChecksum hc hg hz hlen hM hw
  have hall := take_beforeChecksum (h := h) (a := a) hlen
  obtain ⟨-, hbad⟩ := hd.takes_checksum (b := ckByte) (by omega) (by omega) (by rw [hdlen])
  rw [hall] at hbad
  obtain ⟨hstatus, hev⟩ := hbad hsum
  rw [hev] at hfeed
  exact ⟨_, hfeed, hstatus⟩

end WellFormed

/-- Settles O54: the frame is taken up to its checksum, whose sum decides. -/
theorem wellFormedFrameIsDecoded : Obligations.WellFormedFrameIsDecoded := by
  intro c d0 h l a ckByte data wire hc hg hsafe hout hl hdata hM hw
  have hz := hsafe.lazyReset_eq_zero hout
  have hlen : data.length + 1 = l.toNat := by omega
  by_cases hsum : sum8 (a :: (data ++ [ckByte])) = 0xFF
  · obtain ⟨d, hfeed, hstatus, hapi, -⟩ := feedAll_goodFrame hc hg hz hlen hM hw hsum
    exact ⟨d, _, hfeed, fun _ => ⟨hstatus, hapi, rfl⟩, fun hne => absurd hsum hne⟩
  · obtain ⟨d, hfeed, hstatus⟩ := feedAll_badFrame hc hg hz hlen hM hw hsum
    exact ⟨d, _, hfeed, fun he => absurd he hsum, fun _ => ⟨hstatus, rfl⟩⟩

/-! R113, R118: a frame that goes past M. -/

/-- The first M bytes after the start byte, where the checksum's index is not below M: none of them ends the frame. -/
theorem takesAll_openFrame {c : Config} (hc : c.wf = true) {h l : Byte} {init : List Byte}
    (hl : l = 0 ∨ c.maxFrameSize < l.toNat + 3) (hlen : (h :: l :: init).length = c.maxFrameSize) :
    TakesAll c (h :: l :: init) (OpenFrame (h :: l :: init)) where
  inFrame k d hd := ⟨hd.st, hd.es, by rw [hd.ps]; omega⟩
  start := OpenFrame.start hc _
  takes k d hk hd := by
    refine OpenFrame.takes hc hd (List.getElem?_eq_getElem hk) (by omega) fun h3 => ?_
    have hdl : l = d.dlen := Option.some.inj (hd.dl (by omega))
    rw [← hdl]
    obtain rfl | hl := hl
    · change 1 + k ≠ 0 + 3
      omega
    · omega

/-- R113, R118: the byte at index M + 1 gives FrameTooLarge. -/
theorem feedAll_tooLarge {c : Config} (hc : c.wf = true) (hg : c.startGuard = .raw) {d0 : Decoder}
    (hz : d0.lazyReset = Decoder.zero) {h l : Byte} {more wire : List Byte}
    (hl : l = 0 ∨ c.maxFrameSize < l.toNat + 3) (hlen : (h :: l :: more).length = c.maxFrameSize + 1)
    (hw : Carried (h :: l :: more) wire) :
    ∃ d, d0.feedAll c (startByte :: wire) = (d, List.replicate wire.length .needMore ++ [.error .frameTooLarge]) ∧
      d.status = .failed ∧ d.err = .frameTooLarge := by
  obtain ⟨hM4, hM, -⟩ := Config.bounds hc
  obtain rfl | ⟨init, v, rfl⟩ := List.eq_nil_or_concat' more
  · simp at hlen
    omega
  · have hinit : (h :: l :: init).length = c.maxFrameSize := by simpa using hlen
    obtain ⟨d, hd, hfeed⟩ := (takesAll_openFrame hc hl hinit).feedAll_eq hg hz hw
    rw [hinit] at hd
    rw [hd.takes_beyond hc] at hfeed
    exact ⟨_, hfeed, rfl, rfl⟩

/-- A longer frame: FrameTooLarge comes with the last wire byte that carries index M + 1. -/
theorem feedAll_tooLarge_prefix {c : Config} (hc : c.wf = true) (hg : c.startGuard = .raw) {d0 : Decoder}
    (hz : d0.lazyReset = Decoder.zero) {h l : Byte} {more a : List Byte}
    (hl : l = 0 ∨ c.maxFrameSize < l.toNat + 3) (hlen : c.maxFrameSize + 1 ≤ (h :: l :: more).length)
    (ha : Carried ((h :: l :: more).take (c.maxFrameSize + 1)) a) :
    ∃ d, d0.feedAll c (startByte :: a) = (d, List.replicate a.length .needMore ++ [.error .frameTooLarge]) ∧
      d.status = .failed ∧ d.err = .frameTooLarge := by
  obtain ⟨hM4, hM, -⟩ := Config.bounds hc
  obtain ⟨m, hm⟩ : ∃ m, c.maxFrameSize + 1 = m + 2 := ⟨c.maxFrameSize - 1, by omega⟩
  have htake : (h :: l :: more).take (c.maxFrameSize + 1) = h :: l :: more.take m := by rw [hm]; rfl
  rw [htake] at ha
  refine feedAll_tooLarge hc hg hz hl ?_ ha
  rw [← htake, List.length_take_of_le hlen]

/-- R113: a whole frame of declared length at least 1 fails with FrameTooLarge exactly when its checksum lies past M. -/
theorem frameTooLarge_mem_feedAll_iff {c : Config} (hc : c.wf = true) (hg : c.startGuard = .raw) {d0 : Decoder}
    (hz : d0.lazyReset = Decoder.zero) {h l a ckByte : Byte} {data wire : List Byte} (hlen : data.length + 1 = l.toNat)
    (hw : Carried (h :: l :: a :: (data ++ [ckByte])) wire) :
    .error .frameTooLarge ∈ (d0.feedAll c (startByte :: wire)).2 ↔ c.maxFrameSize < l.toNat + 3 := by
  by_cases hM : c.maxFrameSize < l.toNat + 3
  · refine iff_of_true ?_ hM
    rw [← List.take_append_drop (c.maxFrameSize + 1) (h :: l :: a :: (data ++ [ckByte]))] at hw
    obtain ⟨w1, w2, rfl, hw1, -⟩ := hw.split_append
    obtain ⟨d, hfeed, -⟩ := feedAll_tooLarge_prefix hc hg hz (.inr hM) (by simp; omega) hw1
    rw [← List.cons_append, Decoder.feedAll_append, hfeed]
    simp
  · refine iff_of_false (fun hmem => ?_) hM
    by_cases hsum : sum8 (a :: (data ++ [ckByte])) = 0xFF
    · obtain ⟨d, hfeed, -⟩ := feedAll_goodFrame hc hg hz hlen (by omega) hw hsum
      rw [hfeed] at hmem
      simp at hmem
    · obtain ⟨d, hfeed, -⟩ := feedAll_badFrame hc hg hz hlen (by omega) hw hsum
      rw [hfeed] at hmem
      simp at hmem

/-! R165: what the encoder sends. -/

theorem toNat_lenLo {n : Nat} (h : n ≤ 241) : (lenLo n).toNat = n + 14 := by
  rw [lenLo, BitVec.toNat_ofNat]
  change (n + 14) % 256 = n + 14
  omega

/-- F after its start delimiter, in the parts the decoder tells apart. -/
theorem frameTail_eq (api : Byte) (p : List Byte) :
    frameTail api p = 0x00 :: lenLo p.length :: api :: ((txHeader ++ p) ++ [checksum (frameData api p)]) := rfl

/-- F before its checksum. -/
theorem take_logicalFrame (api : Byte) (p : List Byte) :
    (logicalFrame api p).take (p.length + 17) = startByte :: 0x00 :: lenLo p.length :: frameData api p := by
  rw [logicalFrame_eq]
  exact List.take_left' (by simp [length_frameData])

/-- R165: a frame that fits is received as it was sent. -/
theorem feedAll_encodeWire {c : Config} (hc : c.wf = true) (hg : c.startGuard = .raw) {d0 : Decoder}
    (hz : d0.lazyReset = Decoder.zero) (api : Byte) {p : List Byte} (hp : p.length ≤ 241)
    (hM : p.length + 17 ≤ c.maxFrameSize) :
    ∃ d, d0.feedAll c (encodeWire api p) = (d, List.replicate ((encodeWire api p).length - 1) .needMore ++
        [.frameReady api (if api = 0x90 then ((logicalFrame api p).take (p.length + 17)).drop c.receivedDataIdx else [])]) ∧
      d.status = .complete ∧ d.api = api ∧ (d.buf.firstBytes (p.length + 17)).drop 3 = frameData api p ∧
      (p.length + 17 < c.maxFrameSize → d.buf.read (p.length + 17) = checksum (frameData api p)) := by
  have hl := toNat_lenLo hp
  have hw := Carried.of_escByte (frameTail api p)
  rw [frameTail_eq] at hw
  have hlen : (txHeader ++ p).length + 1 = (lenLo p.length).toNat := by
    rw [hl, List.length_append, length_txHeader]
    omega
  obtain ⟨d, hfeed, hstatus, hapi, hbuf, hlast⟩ :=
    feedAll_goodFrame hc hg hz hlen (by omega) hw (sum8_with_checksum (frameData api p))
  rw [hl] at hbuf hlast
  rw [take_logicalFrame]
  exact ⟨d, hfeed, hstatus, hapi, by rw [hbuf]; rfl, hlast⟩

/-- R118, R165: a frame that does not fit fails at index M + 1, and the rest of it is ignored. -/
theorem feedAll_encodeWire_tooLarge {c : Config} (hc : c.wf = true) (hg : c.startGuard = .raw) {d0 : Decoder}
    (hz : d0.lazyReset = Decoder.zero) (api : Byte) {p : List Byte} (hp : p.length ≤ 241)
    (hM : c.maxFrameSize < p.length + 17) :
    ∃ before after : List Byte,
      encodeWire api p = before ++ after ∧
      before = startByte :: (((logicalFrame api p).take (c.maxFrameSize + 2)).drop 1).flatMap escByte ∧
      (d0.feedAll c (encodeWire api p)).2 =
        List.replicate (before.length - 1) .needMore ++ .error .frameTooLarge :: List.replicate after.length .needMore ∧
      (d0.feedAll c before).1.status = .failed ∧ (d0.feedAll c before).1.err = .frameTooLarge := by
  have hsplit : encodeWire api p = startByte :: ((frameTail api p).take (c.maxFrameSize + 1)).flatMap escByte ++
      ((frameTail api p).drop (c.maxFrameSize + 1)).flatMap escByte := by
    rw [List.cons_append, ← List.flatMap_append, List.take_append_drop]
    rfl
  have hw := Carried.of_escByte ((frameTail api p).take (c.maxFrameSize + 1))
  have hlen : c.maxFrameSize + 1 ≤ (frameTail api p).length := by rw [length_frameTail]; omega
  obtain ⟨d, hfeed, hstatus, herr⟩ :=
    feedAll_tooLarge_prefix hc hg hz (.inr (by rw [toNat_lenLo hp]; omega)) hlen hw
  refine ⟨_, _, hsplit, rfl, ?_, by rw [hfeed]; exact hstatus, by rw [hfeed]; exact herr⟩
  have hskip := Decoder.feedAll_skip (c := c) (((frameTail api p).drop (c.maxFrameSize + 1)).flatMap escByte)
    (Decoder.lazyReset_terminal (d := d) (by rw [hstatus]; exact nofun)) fun b hb => by
      obtain ⟨v, -, hv⟩ := List.mem_flatMap.mp hb
      exact ne_startByte_of_mem_escByte v b hv
  rw [hsplit, Decoder.feedAll_append, hfeed, hskip]
  simp

/-- Settles O55: the encoder's frame is a carried frame, which fits M or does not. -/
theorem encodedFrameIsDecoded : Obligations.EncodedFrameIsDecoded := by
  intro c d0 hc hg hsafe hout
  have hz := hsafe.lazyReset_eq_zero hout
  refine ⟨fun api p hp => ⟨feedAll_encodeWire hc hg hz api hp, feedAll_encodeWire_tooLarge hc hg hz api hp⟩, ?_, ?_⟩
  · intro h l a ckByte data wire hl hdata hw
    exact frameTooLarge_mem_feedAll_iff hc hg hz (by omega) hw
  · intro h l more wire hl hlen hw
    exact feedAll_tooLarge hc hg hz hl hlen hw

end Sys2Proof.Machine
end

section
/-! PROOFS. DEC.FEED byte by byte (R101 to R114): synchronisation and abort by what S1 to S3 do, each delivered byte by the
case it selects. -/

namespace Sys2Proof.Machine

/-- Settles O27: the selected row is the feed of the byte that carries its byte, which is `raw` itself. -/
theorem feedIsItsDispatchCase : Obligations.FeedIsItsDispatchCase := by
  intro s raw
  rw [exec_case, caseRaw_caseByte, exec_decFeed]

/-! The four cases before S4, as rows of the table: which byte they feed. -/

theorem exec_decEsc (s : State) : exec .decEsc s = s.feed escMarker := exec_case s .esc 0

theorem exec_decSyncMiss (raw : Byte) (s : State) : exec (.decSyncMiss raw) s = s.feed raw := exec_case s .syncMiss raw

/-- R104: under RAW the aborting byte is the raw 7E. -/
theorem exec_decAbort_of_raw {s : State} (hg : s.cfg.startGuard = .raw) : exec .decAbort s = s.feed startByte := by
  rw [show exec .decAbort s = _ from exec_case s .abort 0]
  simp only [caseRaw, hg]

theorem exec_decSyncHit_of_esc {s : State} (he : s.dec.lazyReset.esc = false) :
    exec .decSyncHit s = s.feed startByte := by
  rw [show exec .decSyncHit s = _ from exec_case s .syncHit 0]
  simp [caseRaw, Decoder.carrier, Decoder.logicalByte, he]

/-! R101, R107: synchronisation. -/

/-- R112: before index 4 nothing goes to Msg. -/
theorem Decoder.overrunsMsg_of_header {c : Config} {d : Decoder} (hp : d.lazyReset.pos.toNat < 4) (raw : Byte) :
    d.overrunsMsg c raw = false := by
  have hnot : ¬ 4 ≤ d.lazyReset.pos.toNat := by omega
  simp [Decoder.overrunsMsg, hnot]

/-- S6 below M, at a known position (R115). -/
theorem Decoder.storeAdvance_at {c : Config} {d : Decoder} {p : Half} (hp : d.pos = p) (hM : p.toNat < c.maxFrameSize)
    (b : Byte) : d.storeAdvance c b = { d with pos := p + 1, buf := d.buf.write p.toNat b } := by
  subst hp
  rw [Decoder.storeAdvance, Decoder.bufStored_in hM]

/-- R107: at pos 0 a byte is the start of a frame or is ignored. -/
theorem Decoder.feed_sync {c : Config} {d : Decoder} (hs : d.status = .inProgress) (hp : d.pos = 0) (he : d.esc = false)
    (raw : Byte) : d.feed c raw = (if raw = startByte then d.storeAdvance c startByte else d, .needMore) := by
  have hl := Decoder.lazyReset_inProgress hs
  have hopen : d.opened = d := by rw [Decoder.opened_eq hl, ← he]
  have hp0 : d.pos.toNat = 0 := by rw [hp]; rfl
  have hb : d.logicalByte raw = raw := by simp [Decoder.logicalByte, he]
  rw [Decoder.feed_take (.inl (by rw [hl]; exact hp0)), hl, hb, hopen, Decoder.takeLogical_zero hp0]
  split
  · rename_i hr
    rw [hr]
  · rfl

/-- Settles O14: S1 leaves the zero decoder, which starts a frame with 7E and ignores every other byte. -/
theorem feedAfterTerminalStatus : Obligations.FeedAfterTerminalStatus := by
  intro s raw hc hs
  obtain ⟨h4, hM, -⟩ := Config.bounds hc
  have hz := Decoder.lazyReset_terminal hs
  have hrun : exec (.decFeed raw) s = .next (s.decoded (s.dec.feed s.cfg raw)) :=
    State.feed_of_no_overrun (Decoder.overrunsMsg_of_header (by rw [hz]; decide) raw)
  refine ⟨fun hr => ?_, fun hr => ?_⟩
  · rw [hrun, Decoder.feed_skip hz hr]
    rfl
  · subst hr
    rw [hrun, Decoder.feed_start hz, Decoder.seeded_eq s.cfg (by omega)]
    rfl

/-- Settles O18: every row named feeds its byte, and at pos 0 only 7E is stored. -/
theorem synchronisationAtPositionZero : Obligations.SynchronisationAtPositionZero := by
  intro s hc hs hp he
  obtain ⟨h4, hM, -⟩ := Config.bounds hc
  have hl := Decoder.lazyReset_inProgress hs
  have hrun : ∀ raw, s.feed raw =
      .next (s.decoded (if raw = startByte then s.dec.storeAdvance s.cfg startByte else s.dec, .needMore)) := by
    intro raw
    have hroom := Decoder.overrunsMsg_of_header (c := s.cfg) (d := s.dec) (by rw [hl, hp]; decide) raw
    rw [State.feed_of_no_overrun hroom, Decoder.feed_sync hs hp he]
  constructor
  · intro i hi
    have hfeed : exec i s = s.feed startByte := by
      obtain rfl | rfl | rfl := hi
      · rfl
      · rfl
      · exact exec_decSyncHit_of_esc (by rw [hl, he])
    rw [hfeed, hrun, if_pos rfl, Decoder.storeAdvance_at hp (show 0 < _ by omega)]
    rfl
  · intro raw i hr hi
    have hfeed : exec i s = s.feed raw := by
      obtain rfl | rfl | rfl | ⟨rfl, rfl⟩ | ⟨rfl, rfl⟩ | ⟨rfl, rfl⟩ := hi
      · rfl
      · rfl
      · exact exec_decSyncMiss raw s
      · rfl
      · rfl
      · rfl
    rw [hfeed, hrun, if_neg hr]
    rfl

/-! R102, R104, R105: marker and abort. -/

/-- Settles O15: each of the rows feeds the marker. -/
theorem escapeMarkerArmsEsc : Obligations.EscapeMarkerArmsEsc := by
  intro s i hs hp hi
  have hl := Decoder.lazyReset_inProgress hs
  have hfeed : exec i s = s.feed escMarker := by
    obtain rfl | rfl | rfl := hi
    · rfl
    · rfl
    · exact exec_decEsc s
  rw [hfeed, State.feed_of_no_overrun (Decoder.overrunsMsg_marker s), Decoder.feed_marker (by rwa [hl]) rfl, hl]
  rfl

/-- S3 under RAW: a raw 7E inside a frame aborts it, by feed or by row, pending escape or not. -/
theorem exec_rawStart {s : State} {i : Instr} (hg : s.cfg.startGuard = .raw) (hs : s.dec.status = .inProgress)
    (hp : 0 < s.dec.pos.toNat) (hi : i = .decFeed startByte ∨ i = .wireSof ∨ i = .decAbort) :
    exec i s = .next (s.decoded (({ s.dec with esc := false } : Decoder).abortFrame s.cfg)) := by
  have hl := Decoder.lazyReset_inProgress hs
  have hguard : ∀ b, guardByte s.cfg startByte b = startByte := by simp [guardByte, hg]
  have hfeed : exec i s = s.feed startByte := by
    obtain rfl | rfl | rfl := hi
    · rfl
    · rfl
    · exact exec_decAbort_of_raw hg
  have hroom : s.dec.overrunsMsg s.cfg startByte = false := by
    simp [Decoder.overrunsMsg, guardByte, hg]
  rw [hfeed, State.feed_of_no_overrun hroom, Decoder.feed_abort (by rwa [hl]) (by decide) (hguard _), Decoder.opened_eq hl]

/-- Settles O16: the abort under DISCARD. -/
theorem rawStartAbortsUnderDiscard : Obligations.RawStartAbortsUnderDiscard := by
  intro s i hg hdiscard hs hp hi
  rw [exec_rawStart hg hs hp hi, Decoder.abortFrame, hdiscard]
  rfl

/-- Settles O17: the abort under SEED. -/
theorem rawStartSeedsUnderSeed : Obligations.RawStartSeedsUnderSeed := by
  intro s i hc hg hseed hs hp hi
  obtain ⟨h4, hM, -⟩ := Config.bounds hc
  rw [exec_rawStart hg hs hp hi, Decoder.abortFrame, hseed]
  simp only
  rw [Decoder.seeded_eq s.cfg (by omega)]
  rfl

/-! R108 to R114: the delivered bytes. -/

/-- Settles O19: the header positions select the header cases. -/
theorem headerBytes : Obligations.HeaderBytes := by
  intro s raw b hc hdel
  obtain ⟨h4, hM, -⟩ := Config.bounds hc
  obtain ⟨hl, -⟩ := hdel.facts
  have hcase := hdel.decCase_eq
  have room : ∀ p : Half, p.toNat < 4 → p.toNat < s.cfg.maxFrameSize := fun p hp => by omega
  refine ⟨fun hp i hi => ?lenhi, fun hp i hi => ?lenlo, fun hp i hi => ?api⟩ <;> rw [hp] at hcase
  case lenhi =>
    rw [hdel.exec_eq (k := .lenhi) hcase nofun rfl rfl i hi, DecCase.result, Decoder.opened_eq hl,
      Decoder.storeAdvance_at (p := 1)]
    · rfl
    · exact hp
    · exact room 1 (by decide)
  case lenlo =>
    rw [hdel.exec_eq (k := .lenlo) hcase nofun rfl rfl i hi, DecCase.result, Decoder.opened_eq hl,
      Decoder.storeAdvance_at (p := 2)]
    · rfl
    · exact hp
    · exact room 2 (by decide)
  case api =>
    rw [hdel.exec_eq (k := .api) hcase nofun rfl rfl i hi, DecCase.result, Decoder.opened_eq hl,
      Decoder.storeAdvance_at (p := 3)]
    · rfl
    · exact hp
    · exact room 3 (by decide)

/-- The case of a delivered byte at index 4 and above (R111). -/
theorem Decoder.Delivers.decCase_eq_of_four_le {c : Config} {d : Decoder} {raw b : Byte} (h : d.Delivers c raw b)
    (hp : 4 ≤ d.pos.toNat) :
    decCase c d raw =
      if c.maxFrameSize < d.pos.toNat then .toolarge
      else if d.pos.toNat = d.dlen.toNat + 3 then (if low8 (d.ck + zext16 b) = 0xFF then .finalOk else .finalBad)
      else if d.inMessage c then .msg else .data := by
  rw [h.decCase_eq, if_neg (by omega), if_neg (by omega), if_neg (by omega)]

/-- Settles O20: above M the case is DEC.TOOLARGE. -/
theorem frameTooLargeAboveM : Obligations.FrameTooLargeAboveM := by
  intro s raw b i hdel hp hM hi
  obtain ⟨hl, -⟩ := hdel.facts
  have hk : decCase s.cfg s.dec raw = .toolarge := by rw [hdel.decCase_eq_of_four_le hp, if_pos hM]
  rw [hdel.exec_eq hk nofun rfl rfl i hi, DecCase.result, Decoder.opened_eq hl]
  rfl

/-- Settles O21: in the message region the case is DEC.MSG, and Msg has room. -/
theorem messageByteIsCopied : Obligations.MessageByteIsCopied := by
  intro s raw b i hdel hp hM hapi hlo hhi hroom hi
  obtain ⟨hl, -⟩ := hdel.facts
  have hm : s.dec.inMessage s.cfg = true := by simp [Decoder.inMessage, hapi, hlo, hhi]
  have hk : decCase s.cfg s.dec raw = .msg := by
    rw [hdel.decCase_eq_of_four_le hp, if_neg (by omega), if_neg (by omega), if_pos hm]
  rw [hdel.exec_eq hk (fun _ => hroom) rfl rfl i hi, DecCase.result, Decoder.opened_eq hl]
  rfl

/-- Settles O23: at index dlen + 3 the sum decides between the two final cases. -/
theorem checksumByteFinalises : Obligations.ChecksumByteFinalises := by
  intro s raw b hdel hp hM hlast
  obtain ⟨hl, -⟩ := hdel.facts
  have hcase := hdel.decCase_eq_of_four_le hp
  rw [if_neg (by omega), if_pos hlast] at hcase
  refine ⟨fun hsum i hi => ?_, fun hsum i hi => ?_⟩
  · rw [if_pos hsum] at hcase
    rw [hdel.exec_eq hcase nofun rfl rfl i hi, DecCase.result, Decoder.opened_eq hl]
    rfl
  · rw [if_neg hsum] at hcase
    rw [hdel.exec_eq hcase nofun rfl rfl i hi, DecCase.result, Decoder.opened_eq hl]
    rfl

end Sys2Proof.Machine
end

section
/-! PROOFS. The event of a feed (R116, R206), and what follows a frame or an abort (R118, R120, R121, R240). -/

namespace Sys2Proof.Machine

/-- A byte-taking instruction of a sound machine has its next state (R112). -/
theorem State.Safe.exists_exec_takesByte {s : State} (h : s.Safe) {i : Instr} (hi : i.takesByte = true) :
    ∃ t, exec i s = .next t := by
  obtain ⟨raw, hx⟩ | ⟨x, -, hx⟩ := exec_takesByte hi s
  · exact ⟨_, hx.trans (h.feed_eq raw)⟩
  · rw [h.feed_eq escMarker] at hx
    exact ⟨_, hx.trans ((h.decoded_feed escMarker).feed_eq x)⟩

/-- Settles O25: from a sound state no feed faults, and each ends with its event. -/
theorem byteInstructionsComplete : Obligations.ByteInstructionsComplete := by
  intro s i hs hi
  obtain ⟨t, hx⟩ := hs.exists_exec_takesByte hi
  obtain ⟨e, he⟩ := exec_takesByte_endsWithEvent hi hx
  exact ⟨t, e, hx, he.out, exec_takesByte_frame hi hx⟩

/-! R116: the event and the status. -/

section Event

variable {k : DecCase} {c : Config} {d : Decoder} {x : Byte}

theorem Decoder.abortFrame_event (c : Config) (d : Decoder) : (d.abortFrame c).2 = .error .unexpectedStart := by
  unfold Decoder.abortFrame
  split <;> rfl

theorem DecCase.result_needMore (h : (DecCase.result k c d x).2 = .needMore) :
    (DecCase.result k c d x).1.status = .inProgress := by
  cases k with
  | abort => exact nomatch (Decoder.abortFrame_event c d.opened).symm.trans h
  | toolarge | finalOk | finalBad => cases h
  | esc => exact d.lazyReset_status
  | syncHit | syncMiss | lenhi | lenlo | api | data | msg => exact d.opened_status

/-- R114: only DEC.FINAL-OK gives FrameReady. -/
theorem DecCase.eq_finalOk_of_frameReady {a : Byte} {m : List Byte} (h : (DecCase.result k c d x).2 = .frameReady a m) :
    k = .finalOk := by
  cases k with
  | finalOk => rfl
  | abort => exact nomatch (Decoder.abortFrame_event c d.opened).symm.trans h
  | syncHit | syncMiss | esc | lenhi | lenlo | api | toolarge | data | msg | finalBad => cases h

/-- R206: an Error of any kind but UnexpectedStart leaves Failed, whatever the policy. -/
theorem DecCase.result_failed {e : ErrorKind} (h : (DecCase.result k c d x).2 = .error e) (he : e ≠ .unexpectedStart) :
    (DecCase.result k c d x).1.status = .failed ∧ (DecCase.result k c d x).1.err = e := by
  cases k with
  | abort => exact absurd (Event.error.inj ((Decoder.abortFrame_event c d.opened).symm.trans h)).symm he
  | toolarge | finalBad => cases h; exact ⟨rfl, rfl⟩
  | syncHit | syncMiss | esc | lenhi | lenlo | api | data | msg | finalOk => cases h

end Event

/-- Settles O28: event and status of the selected case. -/
theorem eventDecidesStatus : Obligations.EventDecidesStatus := by
  intro s t raw hx
  rw [exec_decFeed_next hx]
  refine ⟨_, rfl, DecCase.result_needMore, fun a m h => ?_, fun e h => ?_⟩
  · rw [State.decoded_dec, DecCase.eq_finalOk_of_frameReady h]
    rfl
  · obtain ⟨hne, hdiscard⟩ := DecCase.result_error h
    exact ⟨hne, fun hor => hor.elim hdiscard (DecCase.result_failed h)⟩

/-! R118: declared length 0. -/

/-- A frame of declared length 0, past its apiId. -/
structure Decoder.LengthZero (c : Config) (d : Decoder) : Prop where
  status : d.status = .inProgress
  afterApi : 4 ≤ d.pos.toNat
  posBound : d.pos.toNat ≤ c.maxFrameSize + 1
  dlen : d.dlen = 0

/-- A byte ends such a frame with one of two errors, or gives NeedMore and leaves it such a frame: its checksum's index 3 is
behind it. -/
theorem Decoder.LengthZero.feed {c : Config} {d : Decoder} (hc : c.wf = true) (h : d.LengthZero c) (raw : Byte) :
    (d.feed c raw).2 = .error .frameTooLarge ∨ (d.feed c raw).2 = .error .unexpectedStart ∨
      ((d.feed c raw).2 = .needMore ∧ (d.feed c raw).1.LengthZero c) := by
  obtain ⟨-, -, hmax⟩ := Config.bounds hc
  have hl := Decoder.lazyReset_inProgress h.status
  have hd0 : d.dlen.toNat = 0 := by rw [h.dlen]; rfl
  have h4 := h.afterApi
  have hopen : d.lazyReset.LengthZero c := by rwa [hl]
  have hf := decCase_facts c d raw
  rw [hl] at hf
  have advances : ∀ e : Decoder, e.status = .inProgress → e.pos = d.lazyReset.pos + 1 → e.dlen = d.lazyReset.dlen →
      d.pos.toNat ≤ c.maxFrameSize → e.LengthZero c := by
    intro e hstatus hpos hdlen hM
    have hnext : e.pos.toNat = d.pos.toNat + 1 := by rw [hpos, hl, toNat_add_one _ (by omega)]
    exact ⟨hstatus, by omega, by omega, hdlen.trans hopen.dlen⟩
  rw [Decoder.feed_eq_result]
  generalize caseByte _ d raw = x
  cases hk : decCase c d raw <;> simp only [hk, DecCase.Facts] at hf
  case syncHit | syncMiss | lenhi | lenlo | api | finalOk | finalBad => omega
  case esc => exact .inr (.inr ⟨rfl, hopen.status, hopen.afterApi, hopen.posBound, hopen.dlen⟩)
  case abort => exact .inr (.inl (Decoder.abortFrame_event c d.opened))
  case toolarge => exact .inl rfl
  case data | msg => exact .inr (.inr ⟨rfl, advances _ d.opened_status rfl rfl hf.2.1⟩)

theorem Decoder.LengthZero.first_event {c : Config} (hc : c.wf = true) {bs : List Byte} {d : Decoder} {e : Event}
    (h : d.LengthZero c) (he : (d.feedAll c bs).2.find? (fun x => x != .needMore) = some e) :
    e = .error .frameTooLarge ∨ e = .error .unexpectedStart := by
  induction bs generalizing d with
  | nil => cases he
  | cons raw bs ih =>
    simp only [Decoder.feedAll] at he
    obtain hev | hev | ⟨hev, hnext⟩ := h.feed hc raw
    · rw [hev] at he
      exact .inl (Option.some.inj he).symm
    · rw [hev] at he
      exact .inr (Option.some.inj he).symm
    · rw [hev] at he
      exact ih hnext he

/-- Settles O56: no byte of such a frame meets the checksum's case. -/
theorem lengthZeroNeverFinalises : Obligations.LengthZeroNeverFinalises :=
  fun _ _ _ _ hc hs h4 hM hdlen => Decoder.LengthZero.first_event hc ⟨hs, h4, hM, hdlen⟩

/-! R121: the data of FrameReady in the status view. -/

theorem runOps_cons_next {i : Instr} {is : List Instr} {s u : State} (h : runOps (i :: is) s = .next u) :
    ∃ t, exec i s = .next t ∧ runOps is t = .next u := by
  simp only [runOps] at h
  split at h
  · exact ⟨_, ‹_›, h⟩
  · cases h
  · cases h

/-- Operations that are neither the decoder's nor RESET leave the decoder and the parameters. -/
theorem runOps_keeps_dec {js : List Instr} {s u : State} (hjs : ∀ j ∈ js, j.isDecoderOp = false ∧ j ≠ .reset)
    (h : runOps js s = .next u) : u.dec = s.dec ∧ u.cfg = s.cfg := by
  induction js generalizing s with
  | nil => cases h; exact ⟨rfl, rfl⟩
  | cons j js ih =>
    obtain ⟨t, hj, hrest⟩ := runOps_cons_next h
    obtain ⟨⟨hop, hreset⟩, hjs⟩ := List.forall_mem_cons.mp hjs
    obtain ⟨hdec, hcfg⟩ := ih hjs hrest
    exact ⟨hdec.trans (exec_keeps_dec hop hreset hj), hcfg.trans (exec_keeps_cfg hj)⟩

/-- R87, R114: the data of FrameReady is the decoder's api and message. -/
theorem exec_decFeed_frameReady {s t : State} {raw a : Byte} {m : List Byte} (hx : exec (.decFeed raw) s = .next t)
    (hev : t.out.ev = some (.frameReady a m)) : t.dec.api = a ∧ t.dec.message = m := by
  have ht := exec_decFeed_next hx
  subst ht
  have hev := Option.some.inj hev
  have hk := DecCase.eq_finalOk_of_frameReady hev
  rw [hk] at hev ⊢
  cases hev
  exact ⟨rfl, rfl⟩

/-- DEC_MSG shows the message of a sound decoder. -/
theorem State.Safe.decMsg_eq {s : State} (h : s.Safe) {i : Half} (hi : i.toNat < s.dec.mfill.toNat) :
    some (s.decMsg i) = s.dec.message[i.toNat]? := by
  have hcap := h.dec.mfill_le h.cfg
  rw [State.decMsg, if_pos (by omega), Decoder.message, Memory.getElem?_firstBytes _ hi]

/-- Settles O57: the view shows the decoder, and the operations named leave it. -/
theorem frameReadyDataIsReadable : Obligations.FrameReadyDataIsReadable := by
  intro s t raw a m hs hx hev
  obtain ⟨rfl, rfl⟩ := exec_decFeed_frameReady hx hev
  have hlen : t.dec.message.length = t.dec.mfill.toNat := Memory.length_firstBytes _ _
  refine ⟨rfl, hlen.symm, fun i hi => (exec_safe hs hx).decMsg_eq (by omega), fun js u hjs hu => ?_⟩
  obtain ⟨hdec, hcfg⟩ := runOps_keeps_dec hjs hu
  refine ⟨?_, ?_, fun i => ?_⟩
  · rw [State.decApi, hdec, State.decApi]
  · rw [State.decMsgLen, hdec, State.decMsgLen]
  · rw [State.decMsg, hdec, hcfg, State.decMsg]

/-! R240: the frame an aborting 7E began. -/

/-- Bytes without a start byte that meet the zero decoder leave it zero. -/
theorem Decoder.feedAll_skip_fst {c : Config} {d : Decoder} {bs : List Byte} (hz : d.lazyReset = Decoder.zero)
    (hb : ∀ b ∈ bs, b ≠ startByte) (hne : bs ≠ []) : (d.feedAll c bs).1 = Decoder.zero := by
  induction bs generalizing d with
  | nil => exact absurd rfl hne
  | cons b bs ih =>
    obtain ⟨hb, hbs⟩ := List.forall_mem_cons.mp hb
    simp only [Decoder.feedAll, Decoder.feed_skip hz hb]
    by_cases hnil : bs = []
    · rw [hnil]
      rfl
    · exact ih rfl hbs hnil

/-- Settles O58: the abort leaves Failed, so the next byte meets the zero decoder. -/
theorem bytesAfterAnAbortAreSkipped : Obligations.BytesAfterAnAbortAreSkipped := by
  intro c d bs hg hdiscard hs hp hb hne
  have hl := Decoder.lazyReset_inProgress hs
  have habort : d.feed c startByte = (d.opened.fail .unexpectedStart, .error .unexpectedStart) := by
    rw [Decoder.feed_abort (by rwa [hl]) (by decide) (by simp [guardByte, hg]), Decoder.abortFrame, hdiscard]
  have hz : (d.opened.fail .unexpectedStart).lazyReset = Decoder.zero := Decoder.lazyReset_terminal nofun
  rw [Decoder.feedAll, habort]
  simp only
  rw [Decoder.feedAll_skip_fst hz hb hne, Decoder.feedAll_skip bs hz hb]

/-- Settles O12: DEC.CLEAR writes the zero decoder. -/
theorem clearZeroesTheDecoder : Obligations.ClearZeroesTheDecoder :=
  ⟨fun _ => rfl, rfl, fun g hg => by simp [Signals.decoderOp, hg]⟩

end Sys2Proof.Machine
end

section
/-! PROOFS. The encoder: the request (R156 to R158), the offer and the sink's answers (R159 to R164), the length of W (R155)
and the encoder of R166 that does not store W. -/

namespace Sys2Proof.Machine

/-! R166: the running-sum encoder sends what it owes. -/

/-- At the request all of W is owed. -/
theorem RunningSum.owed_start (api : Byte) (p : List Byte) : (RunningSum.start api p).owed = encodeWire api p := rfl

theorem RunningSum.start_sound (api : Byte) (p : List Byte) : (RunningSum.start api p).Sound where
  bi := Nat.succ_pos _
  lg := RunningSum.logical_eq (Nat.succ_pos _) rfl
  hf := nofun
  sm := rfl

/-- An accept takes the offered byte off what is owed; the last one moves past the checksum. -/
theorem RunningSum.Sound.accept_cases {r : RunningSum} (h : r.Sound) :
    (r.owed = [r.offered] ∧ r.accept.i = r.p.length + 18) ∨
      (r.owed = r.offered :: r.accept.owed ∧ r.accept.Sound ∧ r.accept.p = r.p) := by
  obtain ⟨hdrop, hsound, hle, hp, -⟩ := h.accept_eq
  have howed : r.owed = r.offered :: r.owed.drop 1 := by
    obtain ⟨hlen, hget⟩ := List.getElem?_eq_some_iff.mp h.offered_eq
    rw [← hget]
    exact List.drop_eq_getElem_cons hlen
  rw [howed, hdrop]
  by_cases hend : r.accept.i = r.p.length + 18
  · exact .inl ⟨by rw [if_pos hend], hend⟩
  · exact .inr ⟨by rw [if_neg hend], hsound (by omega), hp⟩

/-- From a sound state, accepts offer the owed bytes in order, and after the last one the encoder is past the checksum. -/
theorem RunningSum.Sound.acceptTimes_sends {vs : List Byte} {r : RunningSum} (h : r.Sound) (hv : r.owed = vs) :
    (∀ k : Nat, k < vs.length → some (r.acceptTimes k).offered = vs[k]?) ∧
      (r.acceptTimes vs.length).i = r.p.length + 18 := by
  induction vs generalizing r with
  | nil =>
    obtain ⟨howed, -⟩ | ⟨howed, -⟩ := h.accept_cases <;> rw [hv] at howed <;> cases howed
  | cons v vs ih =>
    obtain ⟨howed, hend⟩ | ⟨howed, hsound, hp⟩ := h.accept_cases <;> rw [hv] at howed <;> cases howed
    · refine ⟨fun k hk => ?_, hend⟩
      obtain rfl : k = 0 := by simpa using hk
      rfl
    · obtain ⟨hoffers, hlast⟩ := ih hsound rfl
      refine ⟨fun k hk => ?_, hlast.trans (by rw [hp])⟩
      cases k with
      | zero => rfl
      | succ k => exact hoffers k (Nat.lt_of_succ_lt_succ hk)

/-- Settles O44: from its start the running-sum encoder owes W. -/
theorem runningSumEncoderRefinesWire : Obligations.RunningSumEncoderRefinesWire := fun api p _ =>
  (RunningSum.start_sound api p).acceptTimes_sends (RunningSum.owed_start api p)

/-! R155: the length of W. -/

theorem length_encodeWire (api : Byte) (p : List Byte) :
    (encodeWire api p).length = p.length + 18 + ((frameTail api p).filter isReserved).length := by
  rw [encodeWire, List.length_cons, length_flatMap_escByte, length_frameTail]
  omega

/-- No byte of the fixed header is reserved. -/
theorem filter_isReserved_txHeader : txHeader.filter isReserved = [] := by decide

/-- The reserved bytes of F after its start delimiter: only lenLo, apiId, payload and checksum can be reserved. -/
theorem filter_isReserved_frameTail (api : Byte) (p : List Byte) :
    (frameTail api p).filter isReserved =
      [lenLo p.length].filter isReserved ++ ([api].filter isReserved ++ (p.filter isReserved ++
        [checksum (frameData api p)].filter isReserved)) := by
  have hzero : [(0x00 : Byte)].filter isReserved = [] := by decide
  have hsplit : frameTail api p =
      [0x00] ++ ([lenLo p.length] ++ ([api] ++ (txHeader ++ (p ++ [checksum (frameData api p)])))) := by
    simp [frameTail_eq]
  simp only [hsplit, List.filter_append, hzero, filter_isReserved_txHeader, List.nil_append]

/-- The longest payload's lenLo is FF, which is not reserved. -/
theorem filter_isReserved_lenLo_longest : [lenLo 241].filter isReserved = [] := by decide

/-- At most three bytes outside the payload are escaped, and with the longest payload two. -/
theorem length_encodeWire_le (api : Byte) {p : List Byte} (hp : p.length ≤ 241) : (encodeWire api p).length ≤ 502 := by
  have hlen := List.length_filter_le isReserved [lenLo p.length]
  have hapi := List.length_filter_le isReserved [api]
  have hpay := List.length_filter_le isReserved p
  have hsum := List.length_filter_le isReserved [checksum (frameData api p)]
  rw [List.length_singleton] at hlen hapi hsum
  rw [length_encodeWire, filter_isReserved_frameTail]
  simp only [List.length_append]
  by_cases hlong : p.length = 241
  · rw [hlong, filter_isReserved_lenLo_longest, List.length_nil]
    omega
  · omega

/-- Settles O42: an escape adds one byte for each reserved byte of the frame tail. -/
theorem wireLength : Obligations.WireLength := fun api p hp =>
  ⟨length_encodeWire api p, length_frameTail api p, length_encodeWire_le api hp⟩

/-! R156 to R158: the request. -/

theorem exec_encRequest_busy {s : State} (hb : s.enc.ebusy = true) (api n : Byte) (p : List Byte) :
    exec (.encRequest api n p) s = .next (s.requested s.enc false) :=
  if_pos hb

theorem exec_encRequest_idle {s : State} (hb : s.enc.ebusy = false) (api n : Byte) (p : List Byte) :
    exec (.encRequest api n p) s =
      .next (s.requested (if txpCap < n.toNat then { s.enc with eres := .lengthError } else s.enc.latch api n p) true) := by
  change execEncRequest api n p s = _
  rw [execEncRequest, if_neg (by simp [hb])]
  split <;> rfl

/-- Settles O31: while busy the request leaves the encoder. -/
theorem requestWhileBusyIsNotTaken : Obligations.RequestWhileBusyIsNotTaken := fun _ api n p hb =>
  ⟨rfl, fun _ => congrArg (!·) hb, exec_encRequest_busy hb api n p⟩

/-- Settles O33: while idle a request above TXP_CAP writes eres only. -/
theorem longRequestIsLengthError : Obligations.LongRequestIsLengthError := by
  intro s api n p hb hn
  rw [exec_encRequest_idle hb, if_pos hn]
  rfl

/-- R155, R157: the latched payload is the request's. -/
theorem Encoder.latch_payload {e : Encoder} (h : e.txp.wf = true) (api : Byte) {n : Byte} {p : List Byte}
    (hp : p.length = n.toNat) : (e.latch api n p).payload = p := by
  rw [Encoder.payload, Encoder.latch_txp, Encoder.latch_en, ← hp, List.take_length, Memory.firstBytes_writeAll h]

/-- R157: Txp after the copy holds the payload below n and what it held from n on. -/
theorem Encoder.latch_read {e : Encoder} (h : e.txp.wf = true) (api : Byte) {n : Byte} {p : List Byte}
    (hp : p.length = n.toNat) (i : Nat) :
    (e.latch api n p).txp.read i = if i < n.toNat then p.getD i 0x00 else e.txp.read i := by
  rw [Encoder.latch_txp, Memory.read_writeAll h, ← hp, List.take_length]
  simp

/-- R157, R159: the first byte on offer is the start delimiter. -/
theorem Encoder.latch_offered (e : Encoder) (api n : Byte) (p : List Byte) :
    (e.latch api n p).offered = some startByte := rfl

/-- Settles O32: while idle a request that fits is latched. -/
theorem requestIsLatched : Obligations.RequestIsLatched := by
  intro s api n p hb hn hp hwf
  have hread := Encoder.latch_read hwf api hp
  have hwire : (s.enc.latch api n p).wire = encodeWire api p := by
    rw [Encoder.wire, Encoder.latch_payload hwf api hp, Encoder.latch_eapi]
  refine ⟨s.requested (s.enc.latch api n p) true, ?_, rfl, rfl, rfl, rfl, rfl, fun i hi => ?_, fun i hi => ?_, hwire, ?_,
    rfl, rfl, rfl, rfl, rfl⟩
  · rw [exec_encRequest_idle hb, if_neg (Nat.not_lt.mpr hn)]
  · have hip : i < p.length := hp.symm ▸ hi
    rw [State.requested_enc, hread, if_pos hi]
    simp [hip]
  · rw [State.requested_enc, hread, if_neg (Nat.not_lt.mpr hi)]
  · simp [State.encTxData, Encoder.latch_offered, startByte]

/-! R159, R164: the offer. -/

/-- R159: ENC_TXDATA while busy. -/
theorem State.encTxData_busy {s : State} (hb : s.enc.ebusy = true) {v : Byte} (hv : s.enc.offered = some v) :
    s.encTxData = v := by
  simp [State.encTxData, hb, hv]

/-- R164: ENC_TXDATA while idle. -/
theorem State.encTxData_idle {s : State} (hb : s.enc.ebusy = false) : s.encTxData = 0x00 := by
  simp [State.encTxData, hb]

/-- R239: while busy only the sink's ACCEPT or FAIL, or RESET, writes the encoder. -/
theorem Encoder.Moves.eq_of_busy {e f : Encoder} {i : Instr} (hm : e.Moves i f) (hb : e.ebusy = true)
    (haccept : i ≠ .sinkAccept) (hfail : i ≠ .sinkFail) (hreset : i ≠ .reset) : f = e := by
  cases hm with
  | kept => rfl
  | zeroed => exact absurd rfl hreset
  | tooLong api n p idle | latched api n p idle => simp [hb] at idle
  | advanced => exact absurd rfl haccept
  | failed => exact absurd rfl hfail

/-- Settles O39: the offer is a function of the encoder. -/
theorem offerChangesOnlyByAnswerOrReset : Obligations.OfferChangesOnlyByAnswerOrReset := by
  intro s t i idx hb hx haccept hfail hreset
  have henc : t.enc = s.enc := (exec_encoder_moves hx).eq_of_busy hb haccept hfail hreset
  have hdata : t.encTxData = s.encTxData := by rw [State.encTxData, henc, State.encTxData]
  exact ⟨fun v hv => ⟨hb, State.encTxData_busy hb hv, State.encTxData_busy hb hv⟩, henc,
    (congrArg Encoder.ebusy henc).trans hb, hdata⟩

/-- R36: the eres field of ENC_STATUS. -/
theorem State.encStatus_eres (s : State) : s.encStatus.extractLsb' 1 2 = s.enc.eres.code :=
  (encStatus_fields s.enc.ebusy s.enc.eres.code 0#5).2.1

/-- R164: of an idle encoder the ports read eres and ek only. -/
theorem State.outputPorts_of_idle {s : State} {e : Encoder} (hs : s.enc.ebusy = false) (he : e.ebusy = false)
    (hres : e.eres = s.enc.eres) (hek : e.ek = s.enc.ek) (idx : Half) :
    ({ s with enc := e } : State).outputPorts idx = s.outputPorts idx := by
  have hdata : ({ s with enc := e } : State).encTxData = s.encTxData := by
    rw [State.encTxData_idle hs, State.encTxData_idle (s := { s with enc := e }) he]
  have hstatus : ({ s with enc := e } : State).encStatus = s.encStatus := by
    simp only [State.encStatus, Encoder.statusWord, hs, he, hres]
  rw [State.outputPorts, hdata, hstatus, State.encCount, he, ← hs, hek]
  rfl

/-- Settles O38: while idle the ports show ebusy, eres and ek, and ENC_TXDATA reads 00. -/
theorem idleOutputs : Obligations.IdleOutputs := fun s idx hb =>
  ⟨hb, State.encTxData_idle hb, State.encTxData_idle hb, congrArg (!·) hb, rfl, s.encStatus_eres,
    fun api n m => State.outputPorts_of_idle (e := { s.enc with eapi := api, en := n, txp := m }) hb hb rfl rfl idx⟩

/-! R160 to R163: the sink's answers. -/

theorem exec_sinkAccept_idle {s : State} (hb : s.enc.ebusy = false) : exec .sinkAccept s = .next s.quiet := by
  change execSinkAccept s = _
  rw [execSinkAccept, if_neg (by simp [hb])]

theorem exec_sinkFail_busy {s : State} (hb : s.enc.ebusy = true) :
    exec .sinkFail s = .next (s.answered { s.enc with ebusy := false, eres := .transportError } none) :=
  if_pos hb

theorem exec_sinkFail_idle {s : State} (hb : s.enc.ebusy = false) : exec .sinkFail s = .next s.quiet := by
  change execSinkFail s = _
  rw [execSinkFail, if_neg (by simp [hb])]

/-- R160: while idle only RESET and a latched request write ek. -/
theorem Encoder.Moves.idle_ek {e f : Encoder} {i : Instr} (hm : e.Moves i f) (hb : e.ebusy = false) (hek : f.ek ≠ e.ek) :
    i = .reset ∨ ∃ api n p, i = .encRequest api n p ∧ n.toNat ≤ txpCap := by
  cases hm with
  | kept | tooLong => exact absurd rfl hek
  | zeroed => exact .inl rfl
  | latched api n p idle fits => exact .inr ⟨api, n, p, rfl, fits⟩
  | advanced v busy | failed busy => simp [hb] at busy

/-- Settles O34: the accept is the advance, before the last byte and at it. -/
theorem acceptTakesTheOfferedByte : Obligations.AcceptTakesTheOfferedByte := by
  refine ⟨rfl, fun g hready hfail => by simp [Signals.sinkAnswer, hready, hfail],
    fun s t i hb hx => (exec_encoder_moves hx).idle_ek hb, fun s v hb hv => ⟨fun hlast => ?_, fun hlast => ?_⟩⟩
  · rw [exec_sinkAccept hb hv, Encoder.advance, if_neg hlast]
    rfl
  · rw [exec_sinkAccept hb hv, Encoder.advance, if_pos hlast]
    rfl

/-- Settles O35: a stall is the quiet step. -/
theorem stallChangesNothing : Obligations.StallChangesNothing := fun s =>
  ⟨s.quiet, rfl, rfl, rfl, rfl, fun g hready hfail => by simp [Signals.sinkAnswer, hready, hfail]⟩

/-- Settles O36: a failure while busy writes ebusy and eres. -/
theorem failEndsTheFrame : Obligations.FailEndsTheFrame := fun _ hb =>
  ⟨exec_sinkFail_busy hb, rfl, fun _ hfail => if_pos hfail⟩

/-- Settles O37: while idle each answer is the quiet step. -/
theorem answersWhileIdleChangeNothing : Obligations.AnswersWhileIdleChangeNothing := by
  rintro s i hb (rfl | rfl | rfl)
  · exact exec_sinkAccept_idle hb
  · rfl
  · exact exec_sinkFail_idle hb

end Sys2Proof.Machine
end

section
/-! PROOFS. The two units do not meet (R61, R216). -/

namespace Sys2Proof.Machine

/-- R216: RESET is the one instruction that writes both units. -/
theorem exec_keeps_dec_or_enc {i : Instr} (hr : i ≠ .reset) {s t : State} (hx : exec i s = .next t) :
    t.dec = s.dec ∨ t.enc = s.enc := by
  cases hop : i.isEncoderOp with
  | true => exact .inl (exec_keeps_dec (Instr.isDecoderOp_of_encoder hop) hr hx)
  | false => exact .inr (exec_keeps_enc hop hr hx)

/-- Settles O45: an instruction of one unit is none of the other's, so it leaves the other and runs the same beside any other. -/
theorem unitsAreIndependent : Obligations.UnitsAreIndependent := by
  refine fun s t i hx => ⟨fun hr => exec_keeps_dec_or_enc hr hx, fun hdec => ⟨?_, exec_with_enc hdec hx⟩,
    fun henc => ⟨?_, exec_with_dec henc hx⟩⟩
  · exact exec_keeps_enc (Instr.isEncoderOp_of_decoder hdec) (Instr.ne_reset_of_decoder hdec) hx
  · exact exec_keeps_dec (Instr.isDecoderOp_of_encoder henc) (Instr.ne_reset_of_encoder henc) hx

end Sys2Proof.Machine
end

section
/-! PROOFS. What RESET leaves behind (R230, R231), and the ways a busy encoder becomes idle (R239). -/

namespace Sys2Proof.Machine

/-- R239: a busy encoder becomes idle by RESET, by the advance past the last byte of W, or by the sink's failure. -/
theorem Encoder.Moves.instr_of_ends_frame {e f : Encoder} {i : Instr} (hm : e.Moves i f) (hb : e.ebusy = true) (hf : f.ebusy = false) :
    i = .sinkFail ∨ i = .reset ∨ (i = .sinkAccept ∧ e.ek.toNat + 1 = e.wire.length) := by
  cases hm with
  | kept => simp [hb] at hf
  | zeroed => exact .inr (.inl rfl)
  | tooLong api n p idle | latched api n p idle => simp [hb] at idle
  | advanced =>
    by_cases hlast : e.ek.toNat + 1 = e.wire.length
    · exact .inr (.inr ⟨rfl, hlast⟩)
    · obtain ⟨hbusy, -⟩ := Encoder.advance_before_last hlast
      simp [hbusy, hb] at hf
  | failed => exact .inl rfl

/-- Settles O40: of what an instruction makes of the encoder, these three end a frame. -/
theorem frameEndsEarlyOnlyByFailOrReset : Obligations.FrameEndsEarlyOnlyByFailOrReset := fun _ _ _ hb hx hf =>
  (exec_encoder_moves hx).instr_of_ends_frame hb hf

/-- R230: RESET is the state after reset of the same block, with the host's input kept. -/
theorem exec_reset (s : State) : exec .reset s = .next { State.resetFor s.cfg with input := s.input } := rfl

/-- R80: RESET wins its cycle. -/
theorem cycle_rst {g : Signals} (hg : g.rst = true) (s : State) : cycle g s = exec .reset s := if_pos hg

/-- Settles O10: record 01 and a cycle with rst are both RESET, whose result is the state after reset. -/
theorem resetWritesEveryRegister : Obligations.ResetWritesEveryRegister :=
  ⟨rfl, fun s _ hg => cycle_rst hg s, exec_reset⟩

/-- R231: with no byte in Msg the view reads 00 inside the array as it does outside. -/
theorem State.decMsg_of_empty {s : State} (h : s.dec.msg = []) (i : Half) : s.decMsg i = 0x00 := by
  rw [State.decMsg, h, Memory.read_nil, ite_self]

/-- Settles O11: the views of the zero units compute to the listed values; Msg reads 00 on both sides of MSG_CAP, and every
array is empty. -/
theorem resetObservables : Obligations.ResetObservables := by
  intro s t idx hx
  rw [exec_reset] at hx
  cases hx
  have hdec : Decoder.zero.statusWord = 0x00 := by decide
  have henc : Encoder.zero.statusWord = 0x00 := by decide
  exact ⟨hdec, rfl, rfl, rfl, rfl, rfl, rfl, State.decMsg_of_empty rfl, henc, rfl, State.encTxData_idle rfl,
    rfl, rfl, rfl, fun i => ⟨Memory.read_nil i, Memory.read_nil i, Memory.read_nil i⟩⟩

end Sys2Proof.Machine
end
